-- ==== Sys2Proof/Word.lean ====
section
/-! DEFINITION. The words that cross a port and the number formats' encodings (R13, R77, R92). -/

namespace Sys2Proof

/-- A word of a port: 32 bits, bit 0 the least significant (R13, R14, R60). -/
abbrev Word := BitVec 32

/-- A binary32 encoding: bit 31 the sign, bits 30..23 the exponent, bits 22..0 the fraction (R92). -/
abbrev F32 := BitVec 32

/-- A binary64 encoding, which crosses a port as two words (R77). -/
abbrev F64 := BitVec 64

end Sys2Proof
end

