-- ==== Sys2Proof/Syntax.lean ====
section
/-! DEFINITION. The packets of the command interface as syntax: the six rows of the opcode table (R87),
and the names their fields take. -/

namespace Sys2Proof

/-- The two input ports (R60): A takes the audio and lifecycle packets, C the control packets. -/
inductive Port
  | a
  | c
deriving DecidableEq, Repr, Inhabited

/-- The two waveforms (R22). A waveform also names the Oscillator of its number, which is bound to its shape (R30, R31). -/
inductive Wave
  | sine
  | tri
deriving DecidableEq, Repr

/-- The Oscillators a SET_FREQ addresses (R91). The field value 3 is reserved and names none. -/
inductive Target
  | sine
  | tri
  | both
deriving DecidableEq, Repr

/-- The eight values of FAULT_CAUSE (R171). -/
inductive Cause
  | none
  | illegalOpcode
  | reservedField
  | badWaveform
  | notPrepared
  | badRate
  | badFreq
  | badInc
deriving DecidableEq, Repr

/-- A packet that decodes (R87, R100): one constructor per row of the opcode table. -/
inductive Instr
  /-- NOP (R141). -/
  | nop
  /-- PREPARE (R142): the sample rate and the maximum block size. -/
  | prepare (fs : F64) (maxBlock : Word)
  /-- SET_FREQ (R123): its target, FORCE, and the frequency in Hz. -/
  | setFreq (tgt : Target) (force : Bool) (f : F32)
  /-- RESET (R143), which clears the phases; not power-on reset (R197). -/
  | reset
  /-- SET_WAVE (R144), with a waveform of the enumeration. -/
  | setWave (wf : Wave)
  /-- PROCESS (R145): the channel and frame counts and the samples, frame-major (R63). -/
  | process (nch : BitVec 12) (nfr : BitVec 16) (samples : List F32)
deriving DecidableEq, Repr

end Sys2Proof
end

