-- ==== Sys2Proof/WellFormed.lean ====
section
/-! DEFINITION. Which instructions a packet can carry: a PROCESS holds exactly NCH * NFR samples (R63, R94, R99).
Every other field's type already holds only the values the encoding admits. -/

namespace Sys2Proof

/-- The check, one case per instruction. -/
def Instr.wellFormed : Instr → Bool
  | .nop => true
  | .prepare _ _ => true
  | .setFreq _ _ _ => true
  | .reset => true
  | .setWave _ => true
  | .process nch nfr samples => samples.length == nch.toNat * nfr.toNat

/-- An instruction that some packet carries. -/
abbrev Instr.WellFormed (i : Instr) : Prop := i.wellFormed = true

end Sys2Proof
end

