-- ==== Sys2Proof/Decode.lean ====
section
/-! DEFINITION. The decoder (R85 to R100), total on every list of words, and after it the encoder, written from the same
formats. -/

namespace Sys2Proof

/-! Fields of a command word (R95). A field means something only for the opcode whose format defines it. -/

/-- OPC. -/
def opcOf (w : Word) : Nat := (w.extractLsb' 28 4).toNat

/-- FORCE. -/
def forceOf (w : Word) : Bool := w.getLsbD 0

/-- TGT. -/
def tgtOf (w : Word) : Nat := (w.extractLsb' 1 2).toNat

/-- WF. -/
def wfOf (w : Word) : Nat := (w.extractLsb' 0 2).toNat

/-- NCH. -/
def nchOf (w : Word) : BitVec 12 := w.extractLsb' 16 12

/-- NFR. -/
def nfrOf (w : Word) : BitVec 16 := w.extractLsb' 0 16

/-- The number of operand words of a packet, from its command word alone, whether or not the packet faults (R87, R99). -/
def operandCount (w : Word) : Nat :=
  match opcOf w with
  | 1 => 3
  | 2 => 1
  | 5 => (nchOf w).toNat * (nfrOf w).toNat
  | _ => 0

/-- The length of a packet in words (R99). -/
def packetLength (w : Word) : Nat := 1 + operandCount w

/-- The opcodes port C accepts: NOP and SET_WAVE (R72). -/
def allowedOnC (opc : Nat) : Bool := opc == 0 || opc == 4

/-- Whether an opcode is illegal on the port the packet came by (R96). -/
def opcodeIllegal (port : Port) (w : Word) : Bool :=
  decide (6 ≤ opcOf w) || (port == .c && !allowedOnC (opcOf w))

/-- Whether a reserved field is not as R97 asks: a reserved bit is 1, or TGT is 3. Format P reserves nothing (R94). -/
def reservedViolated (w : Word) : Bool :=
  match opcOf w with
  | 0 => w.extractLsb' 0 28 != 0#28
  | 1 => w.extractLsb' 0 28 != 0#28
  | 2 => w.extractLsb' 3 25 != 0#25 || tgtOf w == 3
  | 3 => w.extractLsb' 0 28 != 0#28
  | 4 => w.extractLsb' 2 26 != 0#26
  | _ => false

/-- Whether a SET_WAVE names a waveform outside the enumeration (R98). -/
def waveIllegal (w : Word) : Bool := opcOf w == 4 && decide (2 ≤ wfOf w)

/-- The fault a command word raises at decoding, the first of the checks of R100 that fails. -/
def decodeFault (port : Port) (w : Word) : Option Cause :=
  if opcodeIllegal port w then some .illegalOpcode
  else if reservedViolated w then some .reservedField
  else if waveIllegal w then some .badWaveform
  else none

/-- The Oscillators a TGT value names (R91); 3 is rejected before it is read. -/
def targetOf : Nat → Target
  | 0 => .sine
  | 1 => .tri
  | _ => .both

/-- The waveform a WF value names (R93); 2 and 3 are rejected before they are read. -/
def waveOf : Nat → Wave
  | 0 => .sine
  | _ => .tri

/-- Operand word `i` of a packet, `InWord(i)` (R17). -/
def inWord (operands : List Word) (i : Nat) : Word := operands.getD i 0#32

/-- The binary64 of two operand words, the low half first (R77, R89). -/
def joinWords (lo hi : Word) : F64 := hi ++ lo

/-- The instruction of a command word that raises no fault, with its operand words (R87, step 4 of R100). -/
def instrOf (w : Word) (operands : List Word) : Instr :=
  match opcOf w with
  | 0 => .nop
  | 1 => .prepare (joinWords (inWord operands 0) (inWord operands 1)) (inWord operands 2)
  | 2 => .setFreq (targetOf (tgtOf w)) (forceOf w) (inWord operands 0)
  | 3 => .reset
  | 4 => .setWave (waveOf (wfOf w))
  | _ => .process (nchOf w) (nfrOf w) operands

/-- What the front of a port's words is. -/
inductive Decoded
  /-- A packet, and the words after it. -/
  | instr (i : Instr) (rest : List Word)
  /-- A packet that raises a fault at decoding, and the words after its operands (R99, R176). -/
  | bad (cause : Cause) (rest : List Word)
  /-- The words end inside a packet (R62). -/
  | cutShort
deriving DecidableEq, Repr

/-- The decoder (R62, R85, R99, R100): it frames a whole packet, then checks it, then reads it. -/
def decode (port : Port) : List Word → Decoded
  | [] => .cutShort
  | w :: ws =>
    if ws.length < operandCount w then .cutShort
    else match decodeFault port w with
      | some cause => .bad cause (ws.drop (operandCount w))
      | none => .instr (instrOf w (ws.take (operandCount w))) (ws.drop (operandCount w))

/-! The words of an opcode-table row's number, whose bit 0 is the least significant bit of the command word. -/

/-- The packet that stands in the low `nbits` bits of `w`, every bit above them zero: as many words as its command word
asks for. -/
def tableWords (nbits w : Nat) : List Word :=
  (List.range (packetLength (BitVec.ofNat 32 (w % 2 ^ nbits)))).map
    fun i => BitVec.ofNat 32 (w % 2 ^ nbits / 2 ^ (32 * i))

/-- The instruction the decoder reads, on port A, from the words of a table number. -/
def decodeTableWord (nbits w : Nat) : Option Instr :=
  match decode .a (tableWords nbits w) with
  | .instr i _ => some i
  | _ => none

/-! The encoder, from the formats of R88 to R94. -/

/-- The TGT value of a target (R91). -/
def targetCode : Target → BitVec 2
  | .sine => 0
  | .tri => 1
  | .both => 2

/-- The code of a waveform, which is also its Oscillator's number (R30, R31). -/
def waveCode : Wave → BitVec 2
  | .sine => 0
  | .tri => 1

/-- Format Z (R88). -/
def formatZ (opc : BitVec 4) : Word := opc ++ 0#28

/-- Format F (R90). -/
def formatF (tgt : BitVec 2) (force : Bool) : Word := 2#4 ++ 0#25 ++ tgt ++ BitVec.ofBool force

/-- Format W (R93). -/
def formatW (wf : BitVec 2) : Word := 4#4 ++ 0#26 ++ wf

/-- Format P (R94). -/
def formatP (nch : BitVec 12) (nfr : BitVec 16) : Word := 5#4 ++ nch ++ nfr

/-- The command word of an instruction (R87). -/
def commandWord : Instr → Word
  | .nop => formatZ 0
  | .prepare _ _ => formatZ 1
  | .setFreq tgt force _ => formatF (targetCode tgt) force
  | .reset => formatZ 3
  | .setWave wf => formatW (waveCode wf)
  | .process nch nfr _ => formatP nch nfr

/-- The operand words of an instruction (R63, R89, R90). -/
def operandWords : Instr → List Word
  | .nop => []
  | .prepare fs maxBlock => [fs.extractLsb' 0 32, fs.extractLsb' 32 32, maxBlock]
  | .setFreq _ _ f => [f]
  | .reset => []
  | .setWave _ => []
  | .process _ _ samples => samples

/-- The words of an instruction. -/
def encode (i : Instr) : List Word := commandWord i :: operandWords i

end Sys2Proof
end

