-- ==== Sys2Proof/Config.lean ====
section
/-! DEFINITION. What an instance of the block fixes (R8 to R12): the parameters a model takes, and the free values the
spec leaves open, which have no body here and no value anywhere. -/

namespace Sys2Proof

/-- The parameters of one instance of the block (R8 to R12), each fixed at build time. -/
structure Params where
  /-- DEPTH, the modulation depth (R8). -/
  depth : F32
  /-- DEFAULT_FREQ, in Hz (R9). -/
  defaultFreq : F32
  /-- DEFAULT_WAVE (R10). -/
  defaultWave : Wave
  /-- ADVANCE_ALL: whether the Oscillator that is not selected advances too (R11). -/
  advanceAll : Bool
  /-- SIN32, the sine of the sine Oscillator (R12). -/
  sin32 : F32 → F32
  /-- SIN_TOL, the tolerance of law L3 of R114. -/
  sinTol : ℚ

/-- The default DEPTH, `fl32(0.4)` (R8). -/
def Config.depth : F32 := 0x3ECCCCCD#32

/-- The default DEFAULT_FREQ, 5.0 Hz (R9). -/
def Config.defaultFreq : F32 := 0x40A00000#32

/-- The default DEFAULT_WAVE (R10). -/
def Config.defaultWave : Wave := .sine

/-- The default ADVANCE_ALL (R11). -/
def Config.advanceAll : Bool := true

/-- The default SIN_TOL, `2^-25` (R114). -/
def Config.sinTol : ℚ := 1 / 2 ^ 25

/-- The arithmetic operations whose NaN results the spec leaves open [5]. -/
inductive FloatOp
  | add
  | mul
  | div
  | widen
  | narrow
  | sin
deriving DecidableEq, Repr

/-- Free value: 32 bits from which the NaN encoding of a NaN response word is taken (R160, U10) [4]. -/
opaque Config.freeNan : Nat → Word

/-- Free value: the port served next where both ports hold words and the hosts' `grants` are used up (R67, U20) [3]. -/
opaque Config.freeGrant : Nat → Port

/-- Free value: the NaN a binary32 operation yields on two operand encodings (D30) [5]. -/
opaque Config.opNan32 : FloatOp → Nat → Nat → Word

/-- Free value: the NaN a binary64 operation yields on two operand encodings (D30) [5]. -/
opaque Config.opNan64 : FloatOp → Nat → Nat → BitVec 64

end Sys2Proof
end

