-- ==== Sys2Proof/Machine/Float.lean ====
section
/-! DEFINITION. IEEE 754 binary32 and binary64 arithmetic (R15): each operation takes the exact result and rounds it
once, roundTiesToEven, with gradual underflow and overflow to a signed infinity. A finite number is held as its sign and
a count of units, a unit being the smallest subnormal of its format, so exact results are fractions of naturals. -/

namespace Sys2Proof.Machine

/-- A binary interchange format, by the widths of its fields. -/
structure Fmt where
  fracBits : Nat
  expBits : Nat
deriving DecidableEq, Repr

/-- binary32. -/
def b32 : Fmt := ⟨23, 8⟩

/-- binary64. -/
def b64 : Fmt := ⟨52, 11⟩

/-- The weight of the sign bit in an encoding. -/
def Fmt.signWeight (f : Fmt) : Nat := 2 ^ (f.expBits + f.fracBits)

/-- The encoding of infinity less its sign: exponent all ones, fraction zero. -/
def Fmt.infMag (f : Fmt) : Nat := (2 ^ f.expBits - 1) * 2 ^ f.fracBits

/-- The number of units in 1.0 is 2 to this power: 149 for binary32, 1074 for binary64. -/
def Fmt.unitExp (f : Fmt) : Nat := 2 ^ (f.expBits - 1) - 2 + f.fracBits

/-- What an encoding denotes: a NaN, a signed infinity, or a sign and a number of units. -/
inductive Num
  | nan
  | inf (neg : Bool)
  | fin (neg : Bool) (units : Nat)
deriving DecidableEq, Repr

/-- An exact result before rounding: the fraction is in units of the result's format. -/
inductive Exact
  | nan
  | inf (neg : Bool)
  | ratio (neg : Bool) (num den : Nat)
deriving DecidableEq, Repr

/-- The units of a finite encoding less its sign: a zero exponent field is subnormal, any other has the hidden bit. -/
def Fmt.unitsOf (f : Fmt) (mag : Nat) : Nat :=
  if mag / 2 ^ f.fracBits = 0 then mag % 2 ^ f.fracBits
  else (2 ^ f.fracBits + mag % 2 ^ f.fracBits) * 2 ^ (mag / 2 ^ f.fracBits - 1)

/-- An encoding less its sign. -/
def Fmt.mag (f : Fmt) (bits : Nat) : Nat := bits % f.signWeight

/-- Whether the sign bit of an encoding is 1. -/
def Fmt.neg (f : Fmt) (bits : Nat) : Bool := bits / f.signWeight % 2 == 1

/-- What an encoding denotes. -/
def Fmt.unpack (f : Fmt) (bits : Nat) : Num :=
  if f.mag bits < f.infMag then .fin (f.neg bits) (f.unitsOf (f.mag bits))
  else if f.mag bits = f.infMag then .inf (f.neg bits)
  else .nan

/-- How far the fraction `num / den` of units must be shifted down to leave a significand of the format's width. -/
def Fmt.shiftOf (f : Fmt) (num den : Nat) : Nat := Nat.log2 (num / den) - f.fracBits

/-- The integer nearest to `num / den`, the even one of two equally near. -/
def roundEven (num den : Nat) : Nat :=
  if 2 * (num % den) > den ∨ (2 * (num % den) = den ∧ num / den % 2 = 1) then num / den + 1 else num / den

/-- The encoding, less its sign, of `num / den` units rounded to nearest even; infinity when it overflows (R15). A carry
out of the significand moves into the exponent field by itself. -/
def Fmt.roundMag (f : Fmt) (num den : Nat) : Nat :=
  min f.infMag (f.shiftOf num den * 2 ^ f.fracBits + roundEven num (den * 2 ^ f.shiftOf num den))

/-- The weight a sign gives an encoding. -/
def Fmt.signOf (f : Fmt) (neg : Bool) : Nat := if neg then f.signWeight else 0

/-- The encoding of an exact result (R15); a NaN result has none of its own. -/
def Fmt.round (f : Fmt) : Exact → Option Nat
  | .nan => none
  | .inf neg => some (f.signOf neg + f.infMag)
  | .ratio neg num den => some (f.signOf neg + f.roundMag num den)

/-- The exact sum. An exact zero is +0 unless both operands are negative (IEEE 754, R15). -/
def addExact : Num → Num → Exact
  | .nan, _ => .nan
  | _, .nan => .nan
  | .inf s, .inf t => if s = t then .inf s else .nan
  | .inf s, .fin _ _ => .inf s
  | .fin _ _, .inf t => .inf t
  | .fin s a, .fin t b =>
    if s = t then .ratio s (a + b) 1
    else if a = b then .ratio false 0 1
    else if b < a then .ratio s (a - b) 1
    else .ratio t (b - a) 1

/-- The exact product; infinity times zero has none. -/
def Fmt.mulExact (f : Fmt) : Num → Num → Exact
  | .nan, _ => .nan
  | _, .nan => .nan
  | .inf s, .inf t => .inf (s != t)
  | .inf s, .fin t b => if b = 0 then .nan else .inf (s != t)
  | .fin s a, .inf t => if a = 0 then .nan else .inf (s != t)
  | .fin s a, .fin t b => .ratio (s != t) (a * b) (2 ^ f.unitExp)

/-- The exact quotient; 0/0 and infinity over infinity have none, and a nonzero number over zero is infinite. -/
def Fmt.divExact (f : Fmt) : Num → Num → Exact
  | .nan, _ => .nan
  | _, .nan => .nan
  | .inf _, .inf _ => .nan
  | .inf s, .fin t _ => .inf (s != t)
  | .fin s _, .inf t => .ratio (s != t) 0 1
  | .fin s a, .fin t b =>
    if b = 0 then (if a = 0 then .nan else .inf (s != t)) else .ratio (s != t) (a * 2 ^ f.unitExp) b

/-- A binary32 number in units of binary64, exactly (R15, `f64`). -/
def widenExact : Num → Exact
  | .nan => .nan
  | .inf s => .inf s
  | .fin s a => .ratio s (a * 2 ^ (b64.unitExp - b32.unitExp)) 1

/-- A binary64 number in units of binary32, exactly, before `fl32` rounds it (R15). -/
def narrowExact : Num → Exact
  | .nan => .nan
  | .inf s => .inf s
  | .fin s a => .ratio s a (2 ^ (b64.unitExp - b32.unitExp))

/-- The NaN encoding that 32 free bits select: the exponent is all ones and the fraction is not zero (U10). Every NaN
encoding is selected by itself. -/
def nanOf32 (x : Word) : F32 :=
  let y := x ||| 0x7F800000#32
  if y &&& 0x007FFFFF#32 = 0#32 then y ||| 1#32 else y

/-- The binary64 NaN encoding that 64 free bits select. -/
def nanOf64 (x : BitVec 64) : F64 :=
  let y := x ||| 0x7FF0000000000000#64
  if y &&& 0x000FFFFFFFFFFFFF#64 = 0#64 then y ||| 1#64 else y

/-- A binary32 result: the rounded encoding, or a free NaN [5]. -/
def fill32 (op : FloatOp) (x y : Nat) : Option Nat → F32
  | some bits => BitVec.ofNat 32 bits
  | none => nanOf32 (Config.opNan32 op x y)

/-- A binary64 result: the rounded encoding, or a free NaN [5]. -/
def fill64 (op : FloatOp) (x y : Nat) : Option Nat → F64
  | some bits => BitVec.ofNat 64 bits
  | none => nanOf64 (Config.opNan64 op x y)

/-- `+32` (R15). -/
def add32 (a b : F32) : F32 :=
  fill32 .add a.toNat b.toNat (b32.round (addExact (b32.unpack a.toNat) (b32.unpack b.toNat)))

/-- The sign bit flipped. -/
def neg32 (a : F32) : F32 := a ^^^ 0x80000000#32

/-- `-32`: the exact difference is the exact sum with the other's negation (R15). -/
def sub32 (a b : F32) : F32 := add32 a (neg32 b)

/-- `*32` (R15). -/
def mul32 (a b : F32) : F32 :=
  fill32 .mul a.toNat b.toNat (b32.round (b32.mulExact (b32.unpack a.toNat) (b32.unpack b.toNat)))

/-- `/32` (R15). -/
def div32 (a b : F32) : F32 :=
  fill32 .div a.toNat b.toNat (b32.round (b32.divExact (b32.unpack a.toNat) (b32.unpack b.toNat)))

/-- `abs` clears the sign bit (R15). -/
def abs32 (a : F32) : F32 := a &&& 0x7FFFFFFF#32

/-- `+64` (R15). -/
def add64 (a b : F64) : F64 :=
  fill64 .add a.toNat b.toNat (b64.round (addExact (b64.unpack a.toNat) (b64.unpack b.toNat)))

/-- `*64` (R15). -/
def mul64 (a b : F64) : F64 :=
  fill64 .mul a.toNat b.toNat (b64.round (b64.mulExact (b64.unpack a.toNat) (b64.unpack b.toNat)))

/-- `/64` (R15). -/
def div64 (a b : F64) : F64 :=
  fill64 .div a.toNat b.toNat (b64.round (b64.divExact (b64.unpack a.toNat) (b64.unpack b.toNat)))

/-- `f64`, the exact widening of a binary32 value (R15). -/
def widen (a : F32) : F64 := fill64 .widen a.toNat 0 (b64.round (widenExact (b32.unpack a.toNat)))

/-- `fl32` of a binary64 value (R15). -/
def narrow (a : F64) : F32 := fill32 .narrow a.toNat 0 (b32.round (narrowExact (b64.unpack a.toNat)))

/-- A NaN: the exponent all ones and the fraction not zero (U10). -/
def Fmt.isNaN (f : Fmt) (bits : Nat) : Bool := decide (f.infMag < f.mag bits)

/-- Neither an infinity nor a NaN (R15). -/
def Fmt.isFinite (f : Fmt) (bits : Nat) : Bool := decide (f.mag bits < f.infMag)

/-- Encodings that are no NaN are ordered as these integers are; the two zeros are equal (R15). -/
def Fmt.key (f : Fmt) (bits : Nat) : Int := if f.neg bits then -(f.mag bits : Int) else f.mag bits

/-- IEEE `<=`, false when an operand is a NaN (R15). -/
def Fmt.le (f : Fmt) (a b : Nat) : Bool := !f.isNaN a && !f.isNaN b && decide (f.key a ≤ f.key b)

/-- IEEE `<`, false when an operand is a NaN (R15). -/
def Fmt.lt (f : Fmt) (a b : Nat) : Bool := !f.isNaN a && !f.isNaN b && decide (f.key a < f.key b)

/-- `isNaN` of a binary32 value. -/
def isNaN32 (a : F32) : Bool := b32.isNaN a.toNat

/-- `isFinite` of a binary32 value (R15). -/
def isFinite32 (a : F32) : Bool := b32.isFinite a.toNat

/-- `isFinite` of a binary64 value (R15). -/
def isFinite64 (a : F64) : Bool := b64.isFinite a.toNat

/-- `<=` of binary32 values (R15); `a >= b` is `le32 b a`. -/
def le32 (a b : F32) : Bool := b32.le a.toNat b.toNat

/-- `<` of binary32 values (R15). -/
def lt32 (a b : F32) : Bool := b32.lt a.toNat b.toNat

/-- `<` of binary64 values (R15). -/
def lt64 (a b : F64) : Bool := b64.lt a.toNat b.toNat

/-- The exact value a finite encoding denotes (R15); an infinity or a NaN denotes none and is given 0 here. -/
def value32 (a : F32) : ℚ :=
  match b32.unpack a.toNat with
  | .fin neg u => (if neg then -(u : ℚ) else u) / 2 ^ b32.unitExp
  | _ => 0

/-- +0.0. -/
def zero32 : F32 := 0x00000000#32

/-- 0.5. -/
def half32 : F32 := 0x3F000000#32

/-- 1.0. -/
def one32 : F32 := 0x3F800000#32

/-- 2.0. -/
def two32 : F32 := 0x40000000#32

/-- PI32 (R16). -/
def pi32 : F32 := 0x40490FDB#32

/-- -PI32, the lower end of the phase interval (R32). -/
def negPi32 : F32 := 0xC0490FDB#32

/-- TWO_PI32 (R16). -/
def twoPi32 : F32 := 0x40C90FDB#32

/-- TWO_PI64 (R16). -/
def twoPi64 : F64 := 0x401921FB54442D18#64

/-- +0.0 in binary64. -/
def zero64 : F64 := 0x0000000000000000#64

end Sys2Proof.Machine
end

