-- ==== Sys2Proof/Machine/Sine.lean ====
section
/-! DEFINITION. The default SIN32 (R12): the sine of the exact real an encoding denotes, rounded once to binary32. The
sine is computed in fixed point at scale 2^512, by the exponential series of a small angle and repeated doubling, far
below the spacing of binary32; `sinDecided` tells where the error bound settles the rounding [6]. -/

namespace Sys2Proof.Machine

/-- The fixed-point scale of the sine's evaluation, as a power of two. -/
def sinScale : Nat := 512

/-- The number of terms of the exponential series. -/
def sinTerms : Nat := 60

/-- The cosine and sine of a small angle `t / 2^512`: the partial sum of the exponential series of `i t` in nested form,
`1 + (i t / j)(1 + (i t / (j + 1))(...))`, every quotient taken down to an integer. -/
def expNested (t : Nat) : Nat → Nat → Int × Int
  | 0, _ => (2 ^ sinScale, 0)
  | n + 1, j =>
    let z := expNested t n (j + 1)
    (2 ^ sinScale - (t : Int) * z.2 / (2 ^ sinScale * (j : Int)), (t : Int) * z.1 / (2 ^ sinScale * (j : Int)))

/-- The cosine and sine of the angle doubled `k` times: the square of a complex number of modulus one. -/
def doubleAngle : Nat → Int × Int → Int × Int
  | 0, z => z
  | k + 1, z =>
    let w := doubleAngle k z
    ((w.1 * w.1 - w.2 * w.2) / 2 ^ sinScale, 2 * w.1 * w.2 / 2 ^ sinScale)

/-- The bound on the error of either part, in units of `2^-512`, after `k` doublings. -/
def sinError : Nat → Nat
  | 0 => 8
  | k + 1 => 5 * sinError k + 1

/-- How often an angle of `units` binary32 units is halved so that it is at most `1/16`. -/
def sinHalvings (units : Nat) : Nat := Nat.log2 units + 5 - b32.unitExp

/-- The cosine and sine of `units` binary32 units, at scale `2^512`. -/
def cosSin (units : Nat) : Int × Int :=
  doubleAngle (sinHalvings units) (expNested (units * 2 ^ (sinScale - b32.unitExp - sinHalvings units)) sinTerms 1)

/-- The encoding, less its sign, of a fixed-point magnitude. -/
def sinMag (v : Nat) : Nat := b32.roundMag (v * 2 ^ b32.unitExp) (2 ^ sinScale)

/-- A sine cut to the range of the function. -/
def clampSin (v : Int) : Int := max (-(2 ^ sinScale)) (min (2 ^ sinScale) v)

/-- The encoding of the sine of a sign and a number of units; the sine is odd, and of a zero it is that zero (R114). -/
def sinBits (neg : Bool) (units : Nat) : Nat :=
  if units = 0 then b32.signOf neg
  else
    let v := clampSin (cosSin units).2
    b32.signOf (neg != decide (v < 0)) + sinMag v.natAbs

/-- Whether every real within the error bound of the computed sine rounds to the same encoding, so that the rounding is
settled. -/
def sinDecided (units : Nat) : Bool :=
  let v := (cosSin units).2
  let lo := v - (sinError (sinHalvings units) : Int)
  let hi := v + (sinError (sinHalvings units) : Int)
  let m := sinMag (clampSin v).natAbs
  units == 0 || (decide (0 < lo ∨ hi < 0) && sinMag lo.natAbs == m && sinMag hi.natAbs == m)

/-- The default SIN32 (R12, R114). Of an infinity or a NaN the sine is a free NaN [5]. -/
def sin32 (x : F32) : F32 :=
  match b32.unpack x.toNat with
  | .fin neg units => BitVec.ofNat 32 (sinBits neg units)
  | _ => fill32 .sin x.toNat 0 none

end Sys2Proof.Machine
end

