-- ==== Sys2Proof/Machine/Params.lean ====
section
/-! DEFINITION. The parameters this hardware takes: the defaults of R8 to R12. -/

namespace Sys2Proof.Machine

/-- The default value of every parameter (R8 to R12), the one this hardware takes [8]. -/
def params : Params where
  depth := Config.depth
  defaultFreq := Config.defaultFreq
  defaultWave := Config.defaultWave
  advanceAll := Config.advanceAll
  sin32 := sin32
  sinTol := Config.sinTol

end Sys2Proof.Machine
end

