-- ==== Sys2Proof/Machine/State.lean ====
section
/-! DEFINITION. The state of the block as plain data: every register of 10_state.md, and the model's own fields for the
words on the ports and for the free values. -/

namespace Sys2Proof.Machine

/-- The five registers of one Oscillator (R110). -/
structure Oscillator where
  /-- PHASE, radians (R32). -/
  phase : F32
  /-- FREQ, Hz, the frequency in use (R33). -/
  freq : F32
  /-- INC, radians per sample (R34). -/
  inc : F32
  /-- FREQ_TGT, Hz, the frequency last requested with FORCE = 0 (R35). -/
  freqTgt : F32
  /-- FREQ_PEND: FREQ_TGT is not yet adopted (R36). -/
  freqPend : Bool
deriving DecidableEq, Repr

/-- The two Oscillators, each bound to its shape for good (R30). -/
structure Bank where
  /-- Oscillator 0. -/
  sine : Oscillator
  /-- Oscillator 1. -/
  tri : Oscillator
deriving DecidableEq, Repr

/-- The block's state. -/
structure State where
  /-- The Oscillators' registers (R32 to R36). -/
  osc : Bank
  /-- FS, Hz, binary64 (R37). -/
  fs : F64
  /-- MAXBLOCK, which no rule reads (R38). -/
  maxBlock : Word
  /-- PREPARED (R39). -/
  prepared : Bool
  /-- CUR, the waveform in use (R40). -/
  cur : Wave
  /-- PEND, the waveform last requested (R42). -/
  pend : Wave
  /-- DEPTH, equal to the parameter; no packet writes it (R41) [8]. -/
  depth : F32
  /-- FAULT, sticky (R43). -/
  fault : Bool
  /-- FAULT_CAUSE (R44). -/
  faultCause : Cause
  /-- Model's own: the words delivered on port A and not yet consumed, oldest first (R60, R65) [2]. -/
  portA : List Word
  /-- Model's own: the words delivered on port C and not yet consumed, oldest first (R60, R65) [2]. -/
  portC : List Word
  /-- Model's own: the ports served next where both hold words (R67) [3]. -/
  grants : List Port
  /-- Model's own: the response words host A has not taken, oldest first (R60, R64) [2]. -/
  out : List Word
  /-- Model's own: the index of the next free value [4]. -/
  freeCount : Nat
deriving DecidableEq, Repr

/-- Why the machine takes no further step. -/
inductive Fault
  /-- Raised by every step and every instruction of a state with FAULT = 1: the faulted state is absorbing and a model gives
  the run no further step (R182, R183, U3). Safe: nothing can be proved of what follows [1]. -/
  | absorbed (cause : Cause)
deriving DecidableEq, Repr

/-- Why the model gives no meaning. -/
inductive Refusal
  /-- An arm of exec whose instruction has no meaning yet. No arm raises it. Safe. -/
  | notModelled (mnemonic : String)
  /-- Raised by step where the words on the port end inside a packet: the decoder refuses such a stream (R62, U17). Safe. -/
  | partialPacket
  /-- Raised by every step and every instruction where DEPTH is outside `[+0.0, 1.0]`: the block is not defined there (R8,
  U5). Safe; no run from a legal parameter reaches it [8]. -/
  | depthOutOfRange
deriving DecidableEq, Repr

/-- An Oscillator at power-on with the frequency `f` (R32 to R36). -/
def Oscillator.powerOn (f : F32) : Oscillator where
  phase := 0x00000000#32
  freq := f
  inc := 0x00000000#32
  freqTgt := f
  freqPend := false

/-- Power-on reset of an instance with the parameters `p`: every register at the value of R195, DEPTH at its parameter
(R41), nothing delivered and nothing emitted. DESIGN CHOICE: R9 does not say what an instance with a DEFAULT_FREQ outside its
legal values does; it is not refused, but takes that value and runs [14]. -/
def State.resetWith (p : Params) : State where
  osc := ⟨Oscillator.powerOn p.defaultFreq, Oscillator.powerOn p.defaultFreq⟩
  fs := 0x0000000000000000#64
  maxBlock := 0x00000000#32
  prepared := false
  cur := p.defaultWave
  pend := p.defaultWave
  depth := p.depth
  fault := false
  faultCause := .none
  portA := []
  portC := []
  grants := []
  out := []
  freeCount := 0

/-- The block right after power-on reset (R195). -/
def State.reset : State := State.resetWith params

end Sys2Proof.Machine
end

