-- ==== Sys2Proof/Machine/Flags.lean ====
section
/-! DEFINITION. The 1-bit status state (R46) and the status outputs (R45). -/

namespace Sys2Proof.Machine

/-- The code of a cause in FAULT_CAUSE (R171). -/
def causeCode : Cause → BitVec 3
  | .none => 0
  | .illegalOpcode => 1
  | .reservedField => 2
  | .badWaveform => 3
  | .notPrepared => 4
  | .badRate => 5
  | .badFreq => 6
  | .badInc => 7

/-- The status output `fault` (R45). -/
def statusFault (s : State) : BitVec 1 := BitVec.ofBool s.fault

/-- The status output `fault_cause[2:0]` (R45). -/
def statusCause (s : State) : BitVec 3 := causeCode s.faultCause

/-- FAULT and FAULT_CAUSE after `raise Fault(CODE)` (R176). -/
def State.withFault (s : State) (c : Cause) : State := { s with fault := true, faultCause := c }

/-- A deferred request of frequency `f`: FREQ_TGT takes it and FREQ_PEND is set (R35, R36, R123). -/
def Oscillator.request (o : Oscillator) (f : F32) : Oscillator := { o with freqTgt := f, freqPend := true }

/-- A frequency put in use: FREQ takes it and FREQ_PEND is cleared (R33, R36, R123, R124). -/
def Oscillator.useFreq (o : Oscillator) (f : F32) : Oscillator := { o with freq := f, freqPend := false }

end Sys2Proof.Machine
end

