-- ==== Sys2Proof/Machine/Operands.lean ====
section
/-! DEFINITION. The legality of operands and the selection of Oscillators. -/

namespace Sys2Proof.Machine

/-- `FreqOK` (R117): a finite frequency, not negative; both zeros are legal. -/
def freqOK (f : F32) : Bool := isFinite32 f && le32 zero32 f

/-- `IncOK` (R118): an increment that is finite, not negative and below one period. -/
def incOK (n : F32) : Bool := isFinite32 n && le32 zero32 n && lt32 n twoPi32

/-- A legal sample rate (R178): finite and positive. -/
def rateOK (fs : F64) : Bool := isFinite64 fs && lt64 zero64 fs

/-- A legal DEPTH (R8). -/
def depthOK (d : F32) : Bool := le32 zero32 d && le32 d one32

/-- A phase of the interval `[-PI32, PI32)` (R32). -/
def phaseOK (p : F32) : Bool := le32 negPi32 p && lt32 p pi32

/-- Whether a SET_FREQ with this target addresses the Oscillator (R91). -/
def addresses : Target → Wave → Bool
  | .sine, .sine => true
  | .sine, .tri => false
  | .tri, .sine => false
  | .tri, .tri => true
  | .both, _ => true

/-- The registers of an Oscillator, by its number's waveform (R17, R30). -/
def Bank.get (b : Bank) : Wave → Oscillator
  | .sine => b.sine
  | .tri => b.tri

/-- Both Oscillators rewritten, each from its own registers alone (R110). -/
def Bank.map (f : Wave → Oscillator → Oscillator) (b : Bank) : Bank := ⟨f .sine b.sine, f .tri b.tri⟩

/-- An empty block (R21): no channel or no frame. -/
def emptyBlock (nch : BitVec 12) (nfr : BitVec 16) : Bool := nch.toNat == 0 || nfr.toNat == 0

end Sys2Proof.Machine
end

