-- ==== Sys2Proof/Machine/Oscillator.lean ====
section
/-! DEFINITION. The Oscillator's functions and its steps without an opcode (40_oscillator.md). -/

namespace Sys2Proof.Machine

/-- `IncOf` (R111): the phase increment of a frequency at a sample rate. -/
def incOf (f : F32) (fs : F64) : F32 := narrow (div64 (mul64 twoPi64 (widen f)) fs)

/-- The wrap of R112: a sum that has reached PI32 gives up one period. -/
def wrapPhase (s : F32) : F32 := if le32 pi32 s then sub32 s twoPi32 else s

/-- `Advance` (R112). -/
def advance (p inc : F32) : F32 := wrapPhase (add32 p inc)

/-- `TRI32` (R115). -/
def tri32 (p : F32) : F32 := sub32 (abs32 (div32 (mul32 two32 p) pi32)) one32

/-- `Wave` (R113): Oscillator 0 is the sine, Oscillator 1 the triangle. -/
def wave (p : Params) : Wave → F32 → F32
  | .sine, x => p.sin32 x
  | .tri, x => tri32 x

/-- The register write of `OscStep` (R116): the phase advances by the increment. -/
def Oscillator.stepPhase (o : Oscillator) : Oscillator := { o with phase := advance o.phase o.inc }

/-- `OscStep` (R116): the phase advances first, and the shape is evaluated at the new phase. It takes no sample input
(R127). -/
def oscStep (p : Params) (w : Wave) (o : Oscillator) : F32 × Oscillator := (wave p w o.stepPhase.phase, o.stepPhase)

/-- The register write of an increment (R34). -/
def Oscillator.setInc (o : Oscillator) (n : F32) : Oscillator := { o with inc := n }

/-- `OscPrepare` (R119): the increment at the new sample rate, and nothing else (R126). -/
def Oscillator.prepare (o : Oscillator) (fs : F64) : Oscillator := o.setInc (incOf o.freq fs)

/-- `OscReset` (R120): the phase to +0.0, and nothing else. -/
def Oscillator.clearPhase (o : Oscillator) : Oscillator := { o with phase := zero32 }

/-- The increment check of PREPARE for one Oscillator (R142). -/
def Oscillator.prepareOK (o : Oscillator) (fs : F64) : Bool := incOK (incOf o.freq fs)

/-- The increment check of `AdoptFreq` for one Oscillator (R124). -/
def Oscillator.adoptOK (o : Oscillator) (fs : F64) : Bool := !o.freqPend || incOK (incOf o.freqTgt fs)

/-- The writes of `AdoptFreq` for one Oscillator (R124). -/
def Oscillator.adopt (o : Oscillator) (fs : F64) : Oscillator :=
  if o.freqPend then (o.useFreq o.freqTgt).setInc (incOf o.freqTgt fs) else o

end Sys2Proof.Machine
end

