-- ==== Sys2Proof/Machine/Ops.lean ====
section
/-! DEFINITION. The named operations the packets share: the register writes, taking a fault, and the ports. There is no
memory (R76), so there is no operation over memory; there is no return from a fault (R183). -/

namespace Sys2Proof.Machine

/-- The outcome of an instruction or a step. -/
abbrev Result := Host.Outcome State Fault Refusal

/-! Register writes. -/

/-- The Oscillators' registers written. -/
def State.setOsc (s : State) (b : Bank) : State := { s with osc := b }

/-- PEND written (R42). -/
def State.setPend (s : State) (w : Wave) : State := { s with pend := w }

/-- CUR written (R40). -/
def State.setCur (s : State) (w : Wave) : State := { s with cur := w }

/-- FS, MAXBLOCK and PREPARED written by PREPARE (R37 to R39). -/
def State.setRate (s : State) (fs : F64) (maxBlock : Word) : State :=
  { s with fs := fs, maxBlock := maxBlock, prepared := true }

/-- Response words emitted, in order (R64), one free index spent on each [4]. -/
def State.emit (s : State) (ws : List Word) : State :=
  { s with out := s.out ++ ws, freeCount := s.freeCount + ws.length }

/-! Faults. -/

/-- `raise Fault(CODE)` (R176): the packet ends with FAULT and FAULT_CAUSE written and nothing else (R177). The machine
has taken the fault, so this is a next state. There is no vector, no saved state and no change of mode. -/
def raise (c : Cause) (s : State) : Result := .next (s.withFault c)

/-- Whatever is applied is applied only to a block that is not faulted (R182, R183) and whose DEPTH is legal (R8). -/
def live (s : State) (r : Result) : Result :=
  if s.fault then .fault (.absorbed s.faultCause)
  else if depthOK s.depth then r
  else .refused .depthOutOfRange

/-! Ports. -/

/-- The words waiting on a port. -/
def State.queue (s : State) : Port → List Word
  | .a => s.portA
  | .c => s.portC

/-- The words waiting on a port, rewritten. -/
def State.setQueue (s : State) (p : Port) (ws : List Word) : State :=
  match p with
  | .a => { s with portA := ws }
  | .c => { s with portC := ws }

/-- The hosts' interleaving, rewritten [3]. -/
def State.setGrants (s : State) (ps : List Port) : State := { s with grants := ps }

/-- One free index spent on the order of the ports [3]. -/
def State.spendIndex (s : State) : State := { s with freeCount := s.freeCount + 1 }

/-- The port that is served next, if any holds words (R65, R67): the only one that does; where both do, the one the hosts'
interleaving names, and past its end a free choice [3]. -/
def arbitrate (s : State) : Option (Port × State) :=
  match s.portA, s.portC with
  | [], [] => none
  | _ :: _, [] => some (.a, s)
  | [], _ :: _ => some (.c, s)
  | _ :: _, _ :: _ =>
    match s.grants with
    | p :: ps => some (p, s.setGrants ps)
    | [] => some (Config.freeGrant s.freeCount, s.spendIndex)

/-- What stands at the front of the port that is served next. -/
inductive Fetched
  /-- Nothing is waiting: the block waits for a packet (R190, R196) [9]. -/
  | idle
  /-- The waiting words end inside a packet (R62). -/
  | cutShort
  /-- A packet that raises a fault at decoding; the state has all its words consumed (R99, R176). -/
  | bad (cause : Cause) (s : State)
  /-- An instruction; the state has all its words consumed. -/
  | run (i : Instr) (s : State)
deriving DecidableEq, Repr

/-- Take the next packet from the ports (R62, R65, R67). -/
def fetch (s : State) : Fetched :=
  match arbitrate s with
  | none => .idle
  | some (p, s1) =>
    match decode p (s1.queue p) with
    | .cutShort => .cutShort
    | .bad cause rest => .bad cause (s1.setQueue p rest)
    | .instr i rest => .run i (s1.setQueue p rest)

/-! The hosts' moves (R80). They are no steps of the block. -/

/-- A host delivers words on its port. -/
def deliver (s : State) (p : Port) (ws : List Word) : State := s.setQueue p (s.queue p ++ ws)

/-- Host A takes the response words. -/
def takeResponses (s : State) : List Word × State := (s.out, { s with out := [] })

/-- Words put where the next step takes its packet: at the front of port A, which the hosts' interleaving then serves
first [11]. -/
def placePacket (s : State) (ws : List Word) : State :=
  match s.portC with
  | [] => s.setQueue .a (ws ++ s.portA)
  | _ :: _ => (s.setQueue .a (ws ++ s.portA)).setGrants (.a :: s.grants)

end Sys2Proof.Machine
end

