-- ==== Sys2Proof/Machine/Frequency.lean ====
section
/-! DEFINITION. SET_FREQ (R123). -/

namespace Sys2Proof.Machine

/-- The writes of SET_FREQ with FORCE = 1 to an addressed Oscillator (R123): its increment only when the block is
prepared (R199). -/
def forceFreq (prepared : Bool) (fs : F64) (f : F32) (o : Oscillator) : Oscillator :=
  if prepared then (o.useFreq f).setInc (incOf f fs) else o.useFreq f

/-- One write of SET_FREQ, to the Oscillators its target addresses and to no other (R91). -/
def Bank.atTargets (tgt : Target) (g : Oscillator → Oscillator) (b : Bank) : Bank :=
  b.map fun w o => if addresses tgt w then g o else o

/-- SET_FREQ (R123): FORCE = 1 puts the frequency in use at once, FORCE = 0 leaves it for the next non-empty block. -/
def execSetFreq (tgt : Target) (force : Bool) (f : F32) (s : State) : Result :=
  live s
    (if !freqOK f then raise .badFreq s
    else if force then
      if s.prepared && !incOK (incOf f s.fs) then raise .badInc s
      else .next (s.setOsc (s.osc.atTargets tgt (forceFreq s.prepared s.fs f)))
    else .next (s.setOsc (s.osc.atTargets tgt fun o => o.request f)))

end Sys2Proof.Machine
end

