-- ==== Sys2Proof/Machine/Lifecycle.lean ====
section
/-! DEFINITION. The lifecycle packets: NOP, PREPARE and RESET. -/

namespace Sys2Proof.Machine

/-- NOP (R141): nothing. -/
def execNop (s : State) : Result := live s (.next s)

/-- PREPARE (R142): the rate is checked, then both increments, then everything is written; the phases are not. -/
def execPrepare (fs : F64) (maxBlock : Word) (s : State) : Result :=
  live s
    (if !rateOK fs then raise .badRate s
    else if !(s.osc.sine.prepareOK fs && s.osc.tri.prepareOK fs) then raise .badInc s
    else .next ((s.setOsc (s.osc.map fun _ o => o.prepare fs)).setRate fs maxBlock))

/-- RESET (R143): both phases to +0.0. -/
def execReset (s : State) : Result := live s (.next (s.setOsc (s.osc.map fun _ o => o.clearPhase)))

end Sys2Proof.Machine
end

