-- ==== Sys2Proof/Machine/Process.lean ====
section
/-! DEFINITION. PROCESS (R145) and the modulation law, for every value of the parameters. -/

namespace Sys2Proof.Machine

/-- The unipolar value `u` of an LFO value (R149). -/
def unipolar (v : F32) : F32 := mul32 (add32 v one32) half32

/-- `ModMul` (R150), for the depth held in DEPTH. -/
def modMul (depth v : F32) : F32 := sub32 one32 (mul32 (unipolar v) depth)

/-- The product of a sample and the multiplier (R151); where it is a NaN, a free NaN (R160) [4]. -/
def sampleOut (n : Nat) (x m : F32) : F32 :=
  if isNaN32 (mul32 x m) then nanOf32 (Config.freeNan n) else mul32 x m

/-- The response words of one frame: every channel's sample times the frame's one multiplier (R148, R151). The first
word's free index is `n`. -/
def frameOut (n : Nat) (m : F32) : List F32 → List Word
  | [] => []
  | x :: xs => sampleOut n x m :: frameOut (n + 1) m xs

/-- The registers of Oscillator `o` after a frame of the block's waveform `w` (R147, R158). -/
def frameOsc (p : Params) (w o : Wave) (r : Oscillator) : Oscillator :=
  if o = w then (oscStep p o r).2 else if p.advanceAll then (oscStep p o r).2 else r

/-- `FrameStep` (R147): the selected Oscillator's value, and both Oscillators' registers after it. -/
def frameStep (p : Params) (w : Wave) (b : Bank) : F32 × Bank := ((oscStep p w (b.get w)).1, b.map (frameOsc p w))

/-- The frames of a block (R145): `k` frames from the Oscillators `b` on, the samples frame-major (R63), the first response
word's free index `n`. The multiplier is computed once a frame (R148). -/
def runFrames (p : Params) (w : Wave) (depth : F32) (nch : Nat) : Nat → Nat → List F32 → Bank → List Word × Bank
  | 0, _, _, b => ([], b)
  | k + 1, n, xs, b =>
    let f := frameStep p w b
    let r := runFrames p w depth nch k (n + nch) (xs.drop nch) f.2
    (frameOut n (modMul depth f.1) (xs.take nch) ++ r.1, r.2)

/-- The checks of `AdoptFreq` (R124), all of them before any write. -/
def adoptFreqOK (s : State) : Bool := s.osc.sine.adoptOK s.fs && s.osc.tri.adoptOK s.fs

/-- The writes of `AdoptFreq` (R124). -/
def adoptFreq (s : State) : State := s.setOsc (s.osc.map fun _ o => o.adopt s.fs)

/-- `AdoptWave` (R146): the block's single read of PEND (R69). -/
def adoptWave (s : State) : State := if s.pend ≠ s.cur then s.setCur s.pend else s

/-- The frames of a block from the state after the adoptions, and their response words emitted. -/
def applyFrames (p : Params) (nch : BitVec 12) (nfr : BitVec 16) (samples : List F32) (s : State) : State :=
  let r := runFrames p s.cur s.depth nch.toNat nfr.toNat s.freeCount samples s.osc
  (s.setOsc r.2).emit r.1

/-- PROCESS (R145) with the parameters `p`. -/
def processWith (p : Params) (nch : BitVec 12) (nfr : BitVec 16) (samples : List F32) (s : State) : Result :=
  live s
    (if !s.prepared then raise .notPrepared s
    else if emptyBlock nch nfr then .next s
    else if !adoptFreqOK s then raise .badInc s
    else .next (applyFrames p nch nfr samples (adoptWave (adoptFreq s))))

/-- PROCESS (R145), with the parameters this hardware takes. -/
def execProcess (nch : BitVec 12) (nfr : BitVec 16) (samples : List F32) (s : State) : Result :=
  processWith params nch nfr samples s

end Sys2Proof.Machine
end

