-- ==== Sys2Proof/Machine/Waveform.lean ====
section
/-! DEFINITION. SET_WAVE (R144). -/

namespace Sys2Proof.Machine

/-- SET_WAVE (R144): PEND takes the waveform; CUR is never written. -/
def execSetWave (wf : Wave) (s : State) : Result := live s (.next (s.setPend wf))

end Sys2Proof.Machine
end

