-- ==== Sys2Proof/Machine/Dispatch.lean ====
section
/-! DEFINITION. The meaning of each instruction, one arm a constructor. -/

namespace Sys2Proof.Machine

def exec (i : Instr) (s : State) : Host.Outcome State Fault Refusal :=
  match i with
  | .nop => Sys2Proof.Machine.execNop s
  | .prepare fs maxBlock => Sys2Proof.Machine.execPrepare fs maxBlock s
  | .setFreq tgt force f => Sys2Proof.Machine.execSetFreq tgt force f s
  | .reset => Sys2Proof.Machine.execReset s
  | .setWave wf => Sys2Proof.Machine.execSetWave wf s
  | .process nch nfr samples => Sys2Proof.Machine.execProcess nch nfr samples s

end Sys2Proof.Machine
end

