-- ==== Sys2Proof/Machine/Step.lean ====
section
/-! DEFINITION. One step: one packet applied (R7, R66). -/

namespace Sys2Proof.Machine

/-- One step of the block: a faulted block takes none (R182); one with nothing delivered waits (R190, R196); otherwise the
next packet's words are consumed and the packet is applied, or its decoding fault is raised (R100, R176). -/
def step (s : State) : Host.Outcome State Fault Refusal :=
  live s
    (match fetch s with
    | .idle => .next s
    | .cutShort => .refused .partialPacket
    | .bad cause s1 => raise cause s1
    | .run i s1 => exec i s1)

/-- The packet of a table number put where the next step takes its packet: on port A [11]. -/
def State.withFetchWord (s : State) (nbits w : Nat) : State := placePacket s (tableWords nbits w)

end Sys2Proof.Machine
end

