-- ==== Sys2Proof/Machine/Run.lean ====
section
/-! DEFINITION. Runs (R81): what the hosts and the block do from power-on reset on, when a run has ended, and what is
observed of it. -/

namespace Sys2Proof.Machine

/-! The register state. -/

/-- The registers of 10_state.md: State without the model's own fields. -/
structure Registers where
  osc : Bank
  fs : F64
  maxBlock : Word
  prepared : Bool
  cur : Wave
  pend : Wave
  depth : F32
  fault : Bool
  faultCause : Cause
deriving DecidableEq, Repr

/-- The register state of a state. -/
def State.registers (s : State) : Registers :=
  ⟨s.osc, s.fs, s.maxBlock, s.prepared, s.cur, s.pend, s.depth, s.fault, s.faultCause⟩

/-! Runs. -/

/-- The words waiting on both ports. -/
def State.waiting (s : State) : Nat := s.portA.length + s.portC.length

/-- A run so far: the block's state, and the response words host A has taken, oldest first. -/
structure Run where
  state : State
  taken : List Word
deriving DecidableEq, Repr

/-- What happens in a run: a move of a host (R80), or one packet applied. -/
inductive Event
  /-- A host delivers words on its port (R60). -/
  | deliver (port : Port) (words : List Word)
  /-- The hosts' interleaving is continued (R67) [3]. -/
  | interleave (ports : List Port)
  /-- Host A takes the response words emitted so far (R80). -/
  | take
  /-- The block takes one step (R66). -/
  | apply
deriving DecidableEq, Repr

/-- A run starts at power-on reset (R81, R195). -/
def Run.start : Run := ⟨State.reset, []⟩

/-- A run with the outcome of a step. -/
def Run.after (r : Run) : Result → Host.Outcome Run Fault Refusal
  | .next s => .next { r with state := s }
  | .fault c => .fault c
  | .refused c => .refused c

/-- One event of a run. -/
def Run.event (r : Run) : Event → Host.Outcome Run Fault Refusal
  | .deliver port words => .next { r with state := deliver r.state port words }
  | .interleave ports => .next { r with state := r.state.setGrants (r.state.grants ++ ports) }
  | .take => .next ⟨(takeResponses r.state).2, r.taken ++ (takeResponses r.state).1⟩
  | .apply => r.after (step r.state)

/-- The events of a run, in order. -/
def Run.events (r : Run) : List Event → Host.Outcome Run Fault Refusal
  | [] => .next r
  | e :: es =>
    match r.event e with
    | .next r1 => r1.events es
    | .fault c => .fault c
    | .refused c => .refused c

/-- Whether a run has ended: every packet delivered has been applied (R81), or it is a faulted run, which has no further
step (R182). -/
def Run.ended (r : Run) : Bool := r.state.fault || r.state.waiting == 0

/-- A run continued to its end with nothing more delivered, in at most `n` steps. -/
def Run.finishIn : Nat → Run → Host.Outcome Run Fault Refusal
  | 0, r => .next r
  | n + 1, r =>
    if r.ended then .next r
    else match r.event .apply with
      | .next r1 => r1.finishIn n
      | .fault c => .fault c
      | .refused c => .refused c

/-- A run continued to its end: every step consumes a word at least, so the words that wait bound the steps. -/
def Run.finish (r : Run) : Host.Outcome Run Fault Refusal := r.finishIn r.state.waiting

/-! The observation. -/

/-- The observation of a run (R81). -/
structure Observation where
  /-- The response words of every PROCESS packet, in order, taken or not. -/
  response : List Word
  /-- FAULT, as its status output shows it (R45). -/
  fault : BitVec 1
  /-- FAULT_CAUSE, as its status output shows it (R45). -/
  faultCause : BitVec 3
  /-- For a model, the register state. -/
  registers : Registers
deriving DecidableEq, Repr

/-- What is observed of a run; of one that has ended, its observation (R81). -/
def Run.observe (r : Run) : Observation :=
  ⟨r.taken ++ r.state.out, statusFault r.state, statusCause r.state, r.state.registers⟩

end Sys2Proof.Machine
end

