-- ==== Sys2Proof/Safety.lean ====
section
/-! DEFINITION. The terms claims are stated in: the invariant of R47, the laws a sine must meet, the exact sequence of
phases and multipliers of a block, and runs of packets. -/

namespace Sys2Proof.Machine

/-- The registers of one Oscillator are as R47 says. -/
structure OscInv (prepared : Bool) (fs : F64) (o : Oscillator) : Prop where
  phase : phaseOK o.phase = true
  freq : freqOK o.freq = true
  freqTgt : freqOK o.freqTgt = true
  inc : prepared = true → o.inc = incOf o.freq fs ∧ incOK o.inc = true

/-- The invariant of R47, with the legality of DEPTH (R8), and FAULT_CAUSE being NONE exactly while FAULT is 0 (R44). -/
structure Inv (s : State) : Prop where
  sine : OscInv s.prepared s.fs s.osc.sine
  tri : OscInv s.prepared s.fs s.osc.tri
  rate : s.prepared = true → rateOK s.fs = true
  depth : depthOK s.depth = true
  cause : s.fault = false ↔ s.faultCause = .none

/-- A block to which packets are applied: not faulted (R182), DEPTH legal (R8). -/
def Running (s : State) : Prop := s.fault = false ∧ depthOK s.depth = true

/-- Law L1 of R114: in `[-1, 1]` on the closed phase interval. Law L2 holds of every function. -/
def SineBounded (g : F32 → F32) : Prop :=
  ∀ x, le32 negPi32 x = true → le32 x pi32 = true →
    le32 (neg32 one32) (g x) = true ∧ le32 (g x) one32 = true

/-- Law L3 of R114 with the tolerance `tol`: near the sine of the exact real, on the closed phase interval. -/
def SineWithin (g : F32 → F32) (tol : ℝ) : Prop :=
  ∀ x, le32 negPi32 x = true → le32 x pi32 = true →
    |((value32 (g x) : ℚ) : ℝ) - Real.sin ((value32 x : ℚ) : ℝ)| ≤ tol

/-- A function that meets the laws of R114 with the tolerance `tol`; law L2 holds of every function. -/
structure SineLegal (g : F32 → F32) (tol : ℝ) : Prop where
  bounded : SineBounded g
  within : SineWithin g tol

/-- Legal parameters: DEPTH (R8), DEFAULT_FREQ (R9), and SIN32, which is its default or another function that meets the laws
of R114 with SIN_TOL (R12). -/
structure ParamsLegal (p : Params) : Prop where
  depth : depthOK p.depth = true
  freq : freqOK p.defaultFreq = true
  sine : p.sin32 = sin32 ∨ SineLegal p.sin32 (p.sinTol : ℝ)

/-- Whether SET_FREQ with this target writes Oscillator `w` (R91). -/
def Hits (tgt : Target) (w : Wave) : Prop := tgt = .both ∨ (tgt = .sine ∧ w = .sine) ∨ (tgt = .tri ∧ w = .tri)

/-- The increment an Oscillator uses in the next non-empty block: that of its deferred frequency, if one waits (R124). -/
def blockInc (s : State) (w : Wave) : F32 :=
  if (s.osc.get w).freqPend then incOf (s.osc.get w).freqTgt s.fs else (s.osc.get w).inc

/-- The frequency an Oscillator has in the next non-empty block (R124). -/
def blockFreq (s : State) (w : Wave) : F32 :=
  if (s.osc.get w).freqPend then (s.osc.get w).freqTgt else (s.osc.get w).freq

/-- The preconditions of a PROCESS that runs frames (R145): prepared, not empty, as many samples as it asks for, and every
deferred frequency with a legal increment (R124). -/
structure BlockRuns (s : State) (nch : BitVec 12) (nfr : BitVec 16) (samples : List F32) : Prop where
  running : Running s
  prepared : s.prepared = true
  channels : nch ≠ 0
  frames : nfr ≠ 0
  length : samples.length = nch.toNat * nfr.toNat
  increments : ∀ w, (s.osc.get w).freqPend = true → incOK (incOf (s.osc.get w).freqTgt s.fs) = true

/-- The number of frames an instruction processes. -/
def framesOf : Instr → Nat
  | .process nch nfr _ => if nch = 0 then 0 else nfr.toNat
  | _ => 0

/-- A binary32 value is the one nearest to the exact `x`, and, of two equally near, the one with an even encoding; an
infinity of the sign of `x` when `x` is at or beyond the midpoint above the largest finite value (R15). -/
def Nearest32 (x : ℚ) (r : F32) : Prop :=
  (isFinite32 r = true ∧ |x| < 2 ^ 128 - 2 ^ 103 ∧ ∀ c, isFinite32 c = true →
      |value32 r - x| < |value32 c - x| ∨
        (|value32 r - x| = |value32 c - x| ∧ (value32 c = value32 r ∨ r.toNat % 2 = 0))) ∨
    (r = 0x7F800000#32 ∧ 2 ^ 128 - 2 ^ 103 ≤ x) ∨ (r = 0xFF800000#32 ∧ x ≤ -(2 ^ 128 - 2 ^ 103))

/-- The phase after `n` phase advances (R112, R116). -/
def phaseAfter (inc : F32) : Nat → F32 → F32
  | 0, ph => ph
  | n + 1, ph => phaseAfter inc n (advance ph inc)

/-- The LFO value of frame `k` of a block that starts at the phase `ph` (R116: the advance comes first). -/
def lfoValue (p : Params) (w : Wave) (inc ph : F32) (k : Nat) : F32 := wave p w (phaseAfter inc (k + 1) ph)

/-- The response word of a sample: the product, or, where the product is a NaN, some NaN (R151, R160). -/
def IsOutput (x m y : F32) : Prop :=
  (isNaN32 (mul32 x m) = false → y = mul32 x m) ∧ (isNaN32 (mul32 x m) = true → isNaN32 y = true)

/-- Instructions applied one after the other, as long as each gives a next state. -/
def execAll : List Instr → State → Result
  | [], s => .next s
  | i :: is, s =>
    match exec i s with
    | .next t => execAll is t
    | .fault r => .fault r
    | .refused r => .refused r

/-- The preconditions under which R170 has an instruction complete without a fault: what the source calls a programmer
error does not occur, and every increment computed is legal. -/
def Preconditions (s : State) : Instr → Prop
  | .nop => True
  | .prepare fs _ =>
    rateOK fs = true ∧ incOK (incOf s.osc.sine.freq fs) = true ∧ incOK (incOf s.osc.tri.freq fs) = true
  | .setFreq _ force f =>
    freqOK f = true ∧ (force = true → s.prepared = true → incOK (incOf f s.fs) = true)
  | .reset => True
  | .setWave _ => True
  | .process nch nfr _ =>
    s.prepared = true ∧
      (nch ≠ 0 → nfr ≠ 0 →
        (s.osc.sine.freqPend = true → incOK (incOf s.osc.sine.freqTgt s.fs) = true) ∧
        (s.osc.tri.freqPend = true → incOK (incOf s.osc.tri.freqTgt s.fs) = true))

/-- A packet at the front of a port's words is rejected with a cause: the decoder answers it, and a step that serves the port
raises it, the packet's words consumed and nothing else changed but FAULT and FAULT_CAUSE (R100, R176). -/
def Rejects (port : Port) (words : List Word) (c : Cause) (rest : List Word) : Prop :=
  decode port words = .bad c rest ∧
    ∀ s s1 : State, Running s → arbitrate s = some (port, s1) → s1.queue port = words →
      step s = .next { s1.setQueue port rest with fault := true, faultCause := c }

/-- The registers of the spec in two states are equal: everything but the model's own fields. -/
def SameRegisters (s t : State) : Prop := t.registers = s.registers

end Sys2Proof.Machine
end

