-- ==== Sys2Proof/Certificates/Slice0/Obligations.lean ====
section
/-! DEFINITION. The statements for the provers. Each docstring names the rule it formalises. -/

open Sys2Proof Sys2Proof.Machine

/-! Power-on reset. -/

/-- R195, for every instance of the block: power-on reset sets every register to its power-on value. For an instance whose
DEFAULT_FREQ is not legal (R9) this is the model's choice (log entry 14), and so it is for one whose DEPTH is not (R8), which
powers on before its first step is refused (log entry 8). -/
def Obligations.PowerOnSetsEveryRegister : Prop :=
  ∀ p : Params,
    (∀ w, (State.resetWith p).osc.get w = ⟨0x00000000#32, p.defaultFreq, 0x00000000#32, p.defaultFreq, false⟩) ∧
      (State.resetWith p).fs = 0x0000000000000000#64 ∧ (State.resetWith p).maxBlock = 0#32 ∧
      (State.resetWith p).prepared = false ∧ (State.resetWith p).cur = p.defaultWave ∧
      (State.resetWith p).pend = p.defaultWave ∧ (State.resetWith p).fault = false ∧
      (State.resetWith p).faultCause = .none

/-- R8 to R11, R41: this instance takes the default parameters, which are legal, and DEPTH holds its parameter. -/
def Obligations.ResetTakesDefaultParameters : Prop :=
  State.reset = State.resetWith params ∧ State.reset.depth = 0x3ECCCCCD#32 ∧
    (∀ w, (State.reset.osc.get w).freq = 0x40A00000#32) ∧ State.reset.cur = .sine ∧ params.advanceAll = true ∧
    depthOK params.depth = true ∧ freqOK params.defaultFreq = true

/-- R47 at power-on: the invariant holds after reset, for every legal DEPTH and DEFAULT_FREQ. -/
def Obligations.ResetMeetsInvariant : Prop :=
  Inv State.reset ∧
    ∀ p : Params, depthOK p.depth = true → freqOK p.defaultFreq = true → Inv (State.resetWith p)

/-! Encoding. -/

/-- R103: the encoding examples, each read by the decoder. -/
def Obligations.EncodingExamplesDecode : Prop :=
  decode .a [0x00000000#32] = .instr .nop [] ∧
    decode .a [0x10000000#32, 0x00000000#32, 0x40E77000#32, 0x00000200#32] =
      .instr (.prepare 0x40E7700000000000#64 512#32) [] ∧
    decode .a [0x10000000#32, 0x00000000#32, 0x40E58880#32, 0x00001000#32] =
      .instr (.prepare 0x40E5888000000000#64 4096#32) [] ∧
    decode .a [0x20000001#32, 0x40A00000#32] = .instr (.setFreq .sine true 0x40A00000#32) [] ∧
    decode .a [0x20000003#32, 0x40000000#32] = .instr (.setFreq .tri true 0x40000000#32) [] ∧
    decode .a [0x20000005#32, 0x3F800000#32] = .instr (.setFreq .both true 0x3F800000#32) [] ∧
    decode .a [0x20000000#32, 0x41200000#32] = .instr (.setFreq .sine false 0x41200000#32) [] ∧
    decode .a [0x20000004#32, 0x3F000000#32] = .instr (.setFreq .both false 0x3F000000#32) [] ∧
    decode .a [0x30000000#32] = .instr .reset [] ∧
    decode .a [0x40000000#32] = .instr (.setWave .sine) [] ∧
    decode .a [0x40000001#32] = .instr (.setWave .tri) [] ∧
    decode .a [0x40000002#32] = .bad .badWaveform [] ∧
    decode .a (0x50012580#32 :: List.replicate 9600 0x3F800000#32) =
      .instr (.process 1#12 9600#16 (List.replicate 9600 0x3F800000#32)) [] ∧
    (∀ a b c d e f : Word, decode .a [0x50020003#32, a, b, c, d, e, f] = .instr (.process 2#12 3#16 [a, b, c, d, e, f]) []) ∧
    decode .a [0x50000000#32] = .instr (.process 0#12 0#16 []) [] ∧
    decode .a [0x50000200#32] = .instr (.process 0#12 512#16 []) [] ∧
    decode .a [0x60000000#32] = .bad .illegalOpcode [] ∧
    decode .a [0x00000001#32] = .bad .reservedField []

/-- R85 to R100: every well-formed instruction's words decode to it on port A, whatever follows; those of NOP and SET_WAVE
on port C too. -/
def Obligations.DecodeOfEncode : Prop :=
  ∀ (i : Instr) (rest : List Word), i.WellFormed →
    decode .a (encode i ++ rest) = .instr i rest ∧
      ((i = .nop ∨ ∃ w, i = .setWave w) → decode .c (encode i ++ rest) = .instr i rest)

/-- R88 to R97: the words the decoder reads are exactly the encoding of what it reads, so no reserved bit is ignored; and
port C carries only NOP and SET_WAVE (R72). -/
def Obligations.EncodeOfDecode : Prop :=
  ∀ (port : Port) (ws rest : List Word) (i : Instr), decode port ws = .instr i rest →
    i.WellFormed ∧ ws = encode i ++ rest ∧ (port = .c → i = .nop ∨ ∃ w, i = .setWave w)

/-- R99: the length of a packet by its opcode, and that the decoder takes exactly that many words, whether the packet is an
instruction or faults; fewer are a packet cut short (R62). -/
def Obligations.PacketLengthsByOpcode : Prop :=
  (∀ w : Word,
      (w.toNat / 2 ^ 28 = 0 → packetLength w = 1) ∧ (w.toNat / 2 ^ 28 = 1 → packetLength w = 4) ∧
      (w.toNat / 2 ^ 28 = 2 → packetLength w = 2) ∧ (w.toNat / 2 ^ 28 = 3 → packetLength w = 1) ∧
      (w.toNat / 2 ^ 28 = 4 → packetLength w = 1) ∧
      (w.toNat / 2 ^ 28 = 5 → packetLength w = 1 + w.toNat / 2 ^ 16 % 2 ^ 12 * (w.toNat % 2 ^ 16)) ∧
      (6 ≤ w.toNat / 2 ^ 28 → packetLength w = 1)) ∧
    ∀ (port : Port) (w : Word) (ws rest : List Word),
      (decode port (w :: ws) = .cutShort ↔ (w :: ws).length < packetLength w) ∧
      (∀ i, decode port (w :: ws) = .instr i rest → (w :: ws).length = packetLength w + rest.length) ∧
      (∀ c, decode port (w :: ws) = .bad c rest → (w :: ws).length = packetLength w + rest.length)

/-- R96: the reserved opcodes are illegal on both ports, and on port C every opcode but 0 and 4; whatever the other bits. -/
def Obligations.IllegalOpcodesRejected : Prop :=
  ∀ (w : Word) (ws : List Word),
    (6 ≤ w.toNat / 2 ^ 28 → ∀ port, Rejects port (w :: ws) .illegalOpcode ws) ∧
      (w.toNat / 2 ^ 28 ≠ 0 → w.toNat / 2 ^ 28 ≠ 4 → packetLength w ≤ (w :: ws).length →
        Rejects .c (w :: ws) .illegalOpcode (ws.drop (packetLength w - 1)))

/-- R97: a reserved bit that is 1, or TGT = 3, is rejected as RESERVED_FIELD, before a bad waveform is looked for. -/
def Obligations.ReservedFieldsRejected : Prop :=
  ∀ (port : Port) (w : Word) (ws : List Word),
    packetLength w ≤ (w :: ws).length →
    (port = .c → w.toNat / 2 ^ 28 = 0 ∨ w.toNat / 2 ^ 28 = 4) →
    ((w.toNat / 2 ^ 28 = 0 ∨ w.toNat / 2 ^ 28 = 1 ∨ w.toNat / 2 ^ 28 = 3) ∧ w.toNat % 2 ^ 28 ≠ 0 ∨
      w.toNat / 2 ^ 28 = 2 ∧ (w.toNat % 2 ^ 28 / 2 ^ 3 ≠ 0 ∨ w.toNat / 2 % 4 = 3) ∨
      w.toNat / 2 ^ 28 = 4 ∧ w.toNat % 2 ^ 28 / 2 ^ 2 ≠ 0) →
    Rejects port (w :: ws) .reservedField (ws.drop (packetLength w - 1))

/-- R98: a SET_WAVE with WF = 2 or 3 and no reserved bit set is rejected as BAD_WAVEFORM on both ports. -/
def Obligations.BadWaveformRejected : Prop :=
  ∀ (port : Port) (ws : List Word),
    Rejects port (0x40000002#32 :: ws) .badWaveform ws ∧ Rejects port (0x40000003#32 :: ws) .badWaveform ws

/-! The step and the ports. -/

/-- R65, R66, R100, R176: a step of a running block applies the packet at the front of the port it serves: it runs the
decoded instruction on the state with the packet's words consumed, or takes the decoding fault there, or refuses a packet
cut short (R62). -/
def Obligations.StepAppliesNextPacket : Prop :=
  ∀ (s s1 : State) (p : Port), Running s → arbitrate s = some (p, s1) →
    (∀ i rest, decode p (s.queue p) = .instr i rest → step s = exec i (s1.setQueue p rest)) ∧
      (∀ c rest, decode p (s.queue p) = .bad c rest →
        step s = .next { s1.setQueue p rest with fault := true, faultCause := c }) ∧
      (decode p (s.queue p) = .cutShort → step s = .refused .partialPacket)

/-- R67: which port is served: the only one that holds words, and where both do, the next of the hosts' interleaving; past
its end the model's free choice (log entry 3). Serving changes nothing else. -/
def Obligations.PortsServedInAnyInterleaving : Prop :=
  ∀ (s : State) (a c : Word) (as cs : List Word),
    (s.portA = [] → s.portC = [] → arbitrate s = none) ∧
      (s.portA = a :: as → s.portC = [] → arbitrate s = some (.a, s)) ∧
      (s.portA = [] → s.portC = c :: cs → arbitrate s = some (.c, s)) ∧
      (s.portA = a :: as → s.portC = c :: cs →
        (∀ p ps, s.grants = p :: ps → arbitrate s = some (p, { s with grants := ps })) ∧
          (s.grants = [] → ∃ p, arbitrate s = some (p, { s with freeCount := s.freeCount + 1 })))

/-- R190, R196, the model's reading of them (log entry 9): a running block with nothing delivered waits. -/
def Obligations.WaitingBlockHoldsItsState : Prop :=
  ∀ s : State, Running s → s.portA = [] → s.portC = [] → step s = .next s

/-- R182, in the form of log entry 1: the faulted state is absorbing, so every step and every instruction answers the fault
`absorbed`. -/
def Obligations.FaultedBlockTakesNoStep : Prop :=
  ∀ s : State, s.fault = true →
    step s = .fault (.absorbed s.faultCause) ∧ ∀ i, exec i s = .fault (.absorbed s.faultCause)

/-- R8, U5, in the form of log entry 8: a DEPTH outside `[+0.0, 1.0]` is refused by every step and every instruction. -/
def Obligations.IllegalDepthRefused : Prop :=
  ∀ s : State, s.fault = false → (le32 0x00000000#32 s.depth && le32 s.depth 0x3F800000#32) = false →
    step s = .refused .depthOutOfRange ∧ ∀ i, exec i s = .refused .depthOutOfRange

/-- Log entry 11: the packet of a table number, put where the step takes its packet, is what the very next step runs, on the
state as it was. -/
def Obligations.PlacedPacketRunsNext : Prop :=
  ∀ (s : State) (nbits w : Nat) (i : Instr), Running s → decodeTableWord nbits w = some i →
    step (s.withFetchWord nbits w) = exec i s

/-- R65, over the model's own port queues (log entry 2): each port is consumed from its front, and a step consumes from one
port at most. -/
def Obligations.PortsAreFirstInFirstOut : Prop :=
  ∀ s t : State, step s = .next t →
    (∃ xs, s.portA = xs ++ t.portA) ∧ (∃ ys, s.portC = ys ++ t.portC) ∧ (t.portA = s.portA ∨ t.portC = s.portC)

/-- R82, over the model's own port queues (log entry 2): every packet delivered whole is eventually applied. A step consumes
words while any wait, so that as many steps as there are words leave none, unless the run stopped. -/
def Obligations.DeliveredPacketsAreApplied : Prop :=
  (∀ s t : State, 0 < s.waiting → step s = .next t → t.waiting < s.waiting) ∧
    ∀ s t : State, Host.Core.run Sys2Proof.core s.waiting s = .next t → t.waiting = 0

/-- R68, R72: a packet of port C that raises no fault writes no register but PEND, and emits no word. -/
def Obligations.PortCWritesOnlyPend : Prop :=
  ∀ s s1 t : State, arbitrate s = some (.c, s1) → step s = .next t → t.fault = false →
    t.osc = s.osc ∧ t.fs = s.fs ∧ t.maxBlock = s.maxBlock ∧ t.prepared = s.prepared ∧ t.cur = s.cur ∧
      t.depth = s.depth ∧ t.faultCause = s.faultCause ∧ t.out = s.out

/-! Faults. -/

/-- R171, R44, R45: the codes of the causes on the status outputs, and what the outputs show of a state. -/
def Obligations.CauseCodesOnStatusOutputs : Prop :=
  (∀ s : State, statusFault s = (if s.fault then 1#1 else 0#1) ∧ statusCause s = causeCode s.faultCause) ∧
    causeCode .none = 0#3 ∧ causeCode .illegalOpcode = 1#3 ∧ causeCode .reservedField = 2#3 ∧
    causeCode .badWaveform = 3#3 ∧ causeCode .notPrepared = 4#3 ∧ causeCode .badRate = 5#3 ∧
    causeCode .badFreq = 6#3 ∧ causeCode .badInc = 7#3

/-- R177: faults are precise: an instruction, or a step, that ends with FAULT = 1 has written nothing but FAULT and
FAULT_CAUSE, has emitted no word, and names a cause. -/
def Obligations.FaultsArePrecise : Prop :=
  (∀ (i : Instr) (s t : State), exec i s = .next t → t.fault = true →
      t = { s with fault := true, faultCause := t.faultCause } ∧ t.faultCause ≠ .none) ∧
    ∀ s t : State, step s = .next t → t.fault = true →
      t.faultCause ≠ .none ∧ t.osc = s.osc ∧ t.fs = s.fs ∧ t.maxBlock = s.maxBlock ∧ t.prepared = s.prepared ∧
        t.cur = s.cur ∧ t.pend = s.pend ∧ t.depth = s.depth ∧ t.out = s.out

/-- R170: an instruction that meets its preconditions completes without a fault, whatever its samples; and it faults only
where they fail. -/
def Obligations.LegalInputsNeverFault : Prop :=
  ∀ (i : Instr) (s : State), i.WellFormed → Running s →
    ∃ t, exec i s = .next t ∧ (t.fault = false ↔ Preconditions s i)

/-! NOP, PREPARE, RESET, SET_WAVE. -/

/-- R141: NOP on either port changes nothing; a reserved bit raises RESERVED_FIELD. -/
def Obligations.NopChangesNothing : Prop :=
  (∀ s : State, Running s → exec .nop s = .next s) ∧
    ∀ (port : Port) (ws : List Word),
      decode port (0x00000000#32 :: ws) = .instr .nop ws ∧
        ∀ w : Word, w.toNat / 2 ^ 28 = 0 → w.toNat % 2 ^ 28 ≠ 0 → Rejects port (w :: ws) .reservedField ws

/-- R142: what PREPARE does in a running block: BAD_RATE, else BAD_INC, else the rate, the block size, both increments and
PREPARED are written, and nothing else. It comes by port A alone, with no reserved bit set, the rate's low word first. -/
def Obligations.PrepareWritesRateAndIncrements : Prop :=
  (∀ (s : State) (fs : F64) (mb : Word), Running s →
    (rateOK fs = false → exec (.prepare fs mb) s = .next { s with fault := true, faultCause := .badRate }) ∧
      (rateOK fs = true → (∃ w, incOK (incOf (s.osc.get w).freq fs) = false) →
        exec (.prepare fs mb) s = .next { s with fault := true, faultCause := .badInc }) ∧
      (rateOK fs = true → (∀ w, incOK (incOf (s.osc.get w).freq fs) = true) →
        exec (.prepare fs mb) s =
          .next { s with
            osc := ⟨{ s.osc.sine with inc := incOf s.osc.sine.freq fs }, { s.osc.tri with inc := incOf s.osc.tri.freq fs }⟩
            fs := fs
            maxBlock := mb
            prepared := true })) ∧
    ∀ (w lo hi mb : Word) (ws : List Word), w.toNat / 2 ^ 28 = 1 →
      Rejects .c (w :: lo :: hi :: mb :: ws) .illegalOpcode ws ∧
        (w.toNat % 2 ^ 28 = 0 → decode .a (w :: lo :: hi :: mb :: ws) = .instr (.prepare (hi ++ lo) mb) ws) ∧
        (w.toNat % 2 ^ 28 ≠ 0 → Rejects .a (w :: lo :: hi :: mb :: ws) .reservedField ws)

/-- R178: the legal sample rates are the positive finite ones, and any other makes PREPARE raise BAD_RATE; a legal one so small
that an increment overflows makes it raise BAD_INC instead. -/
def Obligations.IllegalRatesRejected : Prop :=
  (∀ fs : F64, rateOK fs = true ↔ 0 < fs.toNat ∧ fs.toNat < 0x7FF0000000000000) ∧
    ∀ (s : State) (fs : F64) (mb : Word), Running s →
      (rateOK fs = false → exec (.prepare fs mb) s = .next { s with fault := true, faultCause := .badRate }) ∧
        (rateOK fs = true → (∃ w, isFinite32 (incOf (s.osc.get w).freq fs) = false) →
          exec (.prepare fs mb) s = .next { s with fault := true, faultCause := .badInc })

/-- R143: RESET writes +0.0 to both phases and nothing else, prepared or not; on port C it is illegal, and a reserved bit is
rejected. -/
def Obligations.ResetClearsPhases : Prop :=
  (∀ s : State, Running s →
      exec .reset s =
        .next { s with osc := ⟨{ s.osc.sine with phase := 0x00000000#32 }, { s.osc.tri with phase := 0x00000000#32 }⟩ }) ∧
    ∀ (w : Word) (ws : List Word), w.toNat / 2 ^ 28 = 3 →
      Rejects .c (w :: ws) .illegalOpcode ws ∧
        (w.toNat % 2 ^ 28 = 0 → decode .a (w :: ws) = .instr .reset ws) ∧
        (w.toNat % 2 ^ 28 ≠ 0 → Rejects .a (w :: ws) .reservedField ws)

/-- R144: SET_WAVE on either port writes PEND and nothing else; CUR is never written. -/
def Obligations.SetWaveWritesPend : Prop :=
  (∀ (s : State) (w : Wave), Running s → exec (.setWave w) s = .next { s with pend := w }) ∧
    ∀ (port : Port) (w : Word) (ws : List Word), w.toNat / 2 ^ 28 = 4 →
      (w.toNat % 2 ^ 28 = 0 → decode port (w :: ws) = .instr (.setWave .sine) ws) ∧
        (w.toNat % 2 ^ 28 = 1 → decode port (w :: ws) = .instr (.setWave .tri) ws) ∧
        (w.toNat % 2 ^ 28 = 2 ∨ w.toNat % 2 ^ 28 = 3 → Rejects port (w :: ws) .badWaveform ws) ∧
        (4 ≤ w.toNat % 2 ^ 28 → Rejects port (w :: ws) .reservedField ws)

/-- R71: whatever came before it, the last SET_WAVE before a non-empty block is the one the block adopts; CUR is its waveform. -/
def Obligations.LastSetWaveIsAdopted : Prop :=
  ∀ (s t : State) (before after : List Instr) (w : Wave) (nch : BitVec 12) (nfr : BitVec 16) (xs : List F32),
    (∀ i ∈ after, ∀ v, i ≠ .setWave v) → nch ≠ 0 → nfr ≠ 0 →
    execAll (before ++ .setWave w :: after ++ [.process nch nfr xs]) s = .next t → t.fault = false → t.cur = w

/-! SET_FREQ. -/

/-- R117: the legal frequencies by their encodings; any other makes SET_FREQ raise BAD_FREQ, with either FORCE. -/
def Obligations.IllegalFrequenciesRejected : Prop :=
  (∀ f : F32, freqOK f = true ↔ f.toNat < 0x7F800000 ∨ f = 0x80000000#32) ∧
    ∀ (s : State) (tgt : Target) (force : Bool) (f : F32), Running s → freqOK f = false →
      exec (.setFreq tgt force f) s = .next { s with fault := true, faultCause := .badFreq }

/-- R123 with FORCE = 1, R199: the addressed Oscillators take the frequency and drop a deferred one, and take the increment
only when the block is prepared; an illegal increment raises BAD_INC and writes nothing. Everything else is unchanged. -/
def Obligations.SetFreqImmediateTakesEffect : Prop :=
  ∀ (s : State) (tgt : Target) (f : F32), Running s → freqOK f = true →
    (s.prepared = true → incOK (incOf f s.fs) = false →
      exec (.setFreq tgt true f) s = .next { s with fault := true, faultCause := .badInc }) ∧
      ((s.prepared = true → incOK (incOf f s.fs) = true) →
        ∃ t, exec (.setFreq tgt true f) s = .next t ∧ t = { s with osc := t.osc } ∧
          ∀ w, (Hits tgt w → t.osc.get w = { s.osc.get w with
              freq := f, freqPend := false, inc := if s.prepared then incOf f s.fs else (s.osc.get w).inc }) ∧
            (¬Hits tgt w → t.osc.get w = s.osc.get w))

/-- R123 with FORCE = 0: the addressed Oscillators record the frequency and mark it pending, and nothing else changes; no
increment is checked. -/
def Obligations.SetFreqDeferredIsRecorded : Prop :=
  ∀ (s : State) (tgt : Target) (f : F32), Running s → freqOK f = true →
    ∃ t, exec (.setFreq tgt false f) s = .next t ∧ t = { s with osc := t.osc } ∧
      ∀ w, (Hits tgt w → t.osc.get w = { s.osc.get w with freqTgt := f, freqPend := true }) ∧
        (¬Hits tgt w → t.osc.get w = s.osc.get w)

/-- R202, R124: a deferred frequency takes effect from the first frame of the next non-empty block, for that whole block,
and the phase continues from where it stood. -/
def Obligations.DeferredFrequencyIsAdopted : Prop :=
  ∀ (s t : State) (tgt : Target) (f : F32) (nch : BitVec 12) (nfr : BitVec 16) (xs : List F32) (w : Wave),
    nch ≠ 0 → nfr ≠ 0 → execAll [.setFreq tgt false f, .process nch nfr xs] s = .next t → t.fault = false → Hits tgt w →
    t.osc.get w = { phase := phaseAfter (incOf f s.fs) nfr.toNat (s.osc.get w).phase
                    freq := f
                    inc := incOf f s.fs
                    freqTgt := f
                    freqPend := false }

/-- R118 at 48 kHz: the legal frequencies with a legal increment are exactly those up to `0x473B7FFF`. -/
def Obligations.LargestLegalFrequencyAt48kHz : Prop :=
  ∀ f : F32, freqOK f = true → (incOK (incOf f 0x40E7700000000000#64) = true ↔ le32 f 0x473B7FFF#32 = true)

/-- R123, corner cases: an increment of either zero freezes the phase, but that -0.0 and +0.0 give +0.0. -/
def Obligations.ZeroIncrementFreezesPhase : Prop :=
  ∀ p : F32, phaseOK p = true →
    advance p 0x80000000#32 = p ∧ (p ≠ 0x80000000#32 → advance p 0x00000000#32 = p) ∧
      advance 0x80000000#32 0x00000000#32 = 0x00000000#32

/-! PROCESS. -/

/-- R175: PROCESS, empty or not, raises NOT_PREPARED in a block that is not prepared. -/
def Obligations.ProcessNeedsPrepare : Prop :=
  ∀ (s : State) (nch : BitVec 12) (nfr : BitVec 16) (xs : List F32), Running s → s.prepared = false →
    exec (.process nch nfr xs) s = .next { s with fault := true, faultCause := .notPrepared }

/-- R155: an empty block changes no register and emits nothing, so that whatever is applied after it has the result it
would have had without it; and had it adopted PEND, the same packets would have emitted the same words and left every
register but CUR the same. -/
def Obligations.EmptyBlockDoesNothing : Prop :=
  ∀ (s : State) (nch : BitVec 12) (nfr : BitVec 16) (xs : List F32), Running s → s.prepared = true → (nch = 0 ∨ nfr = 0) →
    exec (.process nch nfr xs) s = .next s ∧ (∀ is, execAll (.process nch nfr xs :: is) s = execAll is s) ∧
      ∀ is t, execAll is s = .next t →
        ∃ t', execAll is { s with cur := s.pend } = .next t' ∧ { t' with cur := t.cur } = t

/-- R180, R124: a deferred frequency whose increment is illegal makes a non-empty block raise BAD_INC, with nothing
written. -/
def Obligations.IllegalDeferredFrequencyFaults : Prop :=
  ∀ (s : State) (nch : BitVec 12) (nfr : BitVec 16) (xs : List F32), Running s → s.prepared = true → nch ≠ 0 → nfr ≠ 0 →
    (∃ w, (s.osc.get w).freqPend = true ∧ incOK (incOf (s.osc.get w).freqTgt s.fs) = false) →
    exec (.process nch nfr xs) s = .next { s with fault := true, faultCause := .badInc }

/-- R145, R124, R146, R147, R151, with ADVANCE_ALL = true: a non-empty block completes; its registers after it, and each of
its response words: the sample times the one multiplier of its frame, which comes from the LFO value of the adopted
waveform's Oscillator at its phase advanced once more. Everything else is unchanged. -/
def Obligations.ProcessModulatesEveryFrame : Prop :=
  ∀ (s : State) (nch : BitVec 12) (nfr : BitVec 16) (xs : List F32), BlockRuns s nch nfr xs →
    ∃ t ys, exec (.process nch nfr xs) s = .next t ∧
      t = { s with osc := t.osc, cur := s.pend, out := s.out ++ ys, freeCount := t.freeCount } ∧
      (∀ w, t.osc.get w = { phase := phaseAfter (blockInc s w) nfr.toNat (s.osc.get w).phase
                            freq := blockFreq s w
                            inc := blockInc s w
                            freqTgt := (s.osc.get w).freqTgt
                            freqPend := false }) ∧
      ys.length = nch.toNat * nfr.toNat ∧
      ∀ k c x y, k < nfr.toNat → c < nch.toNat → xs[k * nch.toNat + c]? = some x → ys[k * nch.toNat + c]? = some y →
        IsOutput x (modMul s.depth (lfoValue params s.pend (blockInc s s.pend) (s.osc.get s.pend).phase k)) y

/-- R153: within a frame every channel's word is its sample times the same multiplier, so that equal samples give equal words
(or each some NaN, where the product is one). -/
def Obligations.ChannelsShareTheMultiplier : Prop :=
  ∀ (s t : State) (nch : BitVec 12) (nfr : BitVec 16) (xs : List F32), BlockRuns s nch nfr xs →
    exec (.process nch nfr xs) s = .next t →
    ∃ (m : Nat → F32) (ys : List Word), t.out = s.out ++ ys ∧
      (∀ k c x y, k < nfr.toNat → c < nch.toNat → xs[k * nch.toNat + c]? = some x → ys[k * nch.toNat + c]? = some y →
        IsOutput x (m k) y) ∧
      ∀ k c d x, k < nfr.toNat → c < nch.toNat → d < nch.toNat →
        xs[k * nch.toNat + c]? = some x → xs[k * nch.toNat + d]? = some x → isNaN32 (mul32 x (m k)) = false →
        ys[k * nch.toNat + c]? = ys[k * nch.toNat + d]?

/-- R158: with ADVANCE_ALL = false the Oscillator that is not selected holds its phase through a block, and the selected one
advances once a frame. -/
def Obligations.UnselectedOscillatorHolds : Prop :=
  ∀ (p : Params) (s t : State) (nch : BitVec 12) (nfr : BitVec 16) (xs : List F32), p.advanceAll = false →
    nch ≠ 0 → nfr ≠ 0 → processWith p nch nfr xs s = .next t → t.fault = false →
    t.cur = s.pend ∧ ∀ w,
      (w = s.pend → (t.osc.get w).phase = phaseAfter (blockInc s w) nfr.toNat (s.osc.get w).phase) ∧
        (w ≠ s.pend → (t.osc.get w).phase = (s.osc.get w).phase)

/-- R157: with ADVANCE_ALL = true, through any sequence of blocks and waveform switches with no increment change, both
Oscillators perform one OscStep for every frame, whichever is selected. -/
def Obligations.SwitchingKeepsBothPhasesRunning : Prop :=
  ∀ (is : List Instr) (s t : State),
    (∀ i ∈ is, (∃ w, i = .setWave w) ∨ ∃ nch nfr xs, i = .process nch nfr xs) →
    (∀ w, (s.osc.get w).freqPend = false) → execAll is s = .next t → t.fault = false →
    ∀ w, (t.osc.get w).phase = phaseAfter (s.osc.get w).inc (is.map framesOf).sum (s.osc.get w).phase

/-! The numbers. -/

/-- R15: the binary32 operations yield the value nearest to the exact result, ties to even, overflow to infinity. -/
def Obligations.ArithmeticRoundsToNearestEven : Prop :=
  ∀ a b : F32, isFinite32 a = true → isFinite32 b = true →
    Nearest32 (value32 a + value32 b) (add32 a b) ∧ Nearest32 (value32 a - value32 b) (sub32 a b) ∧
      Nearest32 (value32 a * value32 b) (mul32 a b) ∧
      (value32 b ≠ 0 → Nearest32 (value32 a / value32 b) (div32 a b))

/-- R121: the phase bound, and that the subtraction of the wrap is exact. -/
def Obligations.AdvanceKeepsPhaseInterval : Prop :=
  ∀ p inc : F32, phaseOK p = true → incOK inc = true →
    phaseOK (advance p inc) = true ∧
      (le32 pi32 (add32 p inc) = true →
        value32 (sub32 (add32 p inc) twoPi32) = value32 (add32 p inc) - value32 twoPi32)

/-- R115: the triangle at its corners, and its range on the phase interval. -/
def Obligations.TriangleShape : Prop :=
  tri32 0x00000000#32 = 0xBF800000#32 ∧ tri32 0x3FC90FDB#32 = 0x00000000#32 ∧ tri32 0xBFC90FDB#32 = 0x00000000#32 ∧
    tri32 0xC0490FDB#32 = 0x3F800000#32 ∧
    (∀ p, phaseOK p = true → le32 0xBF800000#32 (tri32 p) = true ∧ le32 (tri32 p) 0x3F800000#32 = true) ∧
    ∀ p q, phaseOK p = true → phaseOK q = true → le32 (abs32 p) (abs32 q) = true → le32 (tri32 p) (tri32 q) = true

/-- R122: for every sine that meets law L1, both shapes stay in `[-1, 1]` at every phase that meets the invariant; and the
model's computed sine (log entry 6) meets it. -/
def Obligations.ShapesStayInRange : Prop :=
  (∀ (p : Params) (s : State) (w : Wave), SineBounded p.sin32 → Inv s →
      le32 0xBF800000#32 (wave p w (s.osc.get w).phase) = true ∧
        le32 (wave p w (s.osc.get w).phase) 0x3F800000#32 = true) ∧
    SineBounded params.sin32

/-- R114, law L3 of the computed sine, within half a unit in the last place and the error of its evaluation (log entries 6
and 7): SIN_TOL is `2^-25`, and the excess `2^-400` is the model's own bound. -/
def Obligations.ComputedSineIsNearTheSine : Prop :=
  SineWithin params.sin32 ((params.sinTol : ℝ) + 1 / 2 ^ 400)

/-- R12: where the evaluation's error bound settles the rounding (log entry 7), SIN32 is the correctly rounded sine: no
finite value is nearer to the sine of the exact real. The sine of either zero is that zero, and the sine is odd. -/
def Obligations.ComputedSineIsCorrectlyRounded : Prop :=
  (∀ x c : F32, isFinite32 x = true → isFinite32 c = true → sinDecided (b32.unitsOf (b32.mag x.toNat)) = true →
      isFinite32 (sin32 x) = true ∧
        |((value32 (sin32 x) : ℚ) : ℝ) - Real.sin ((value32 x : ℚ) : ℝ)| ≤
          |((value32 c : ℚ) : ℝ) - Real.sin ((value32 x : ℚ) : ℝ)|) ∧
    sin32 0x00000000#32 = 0x00000000#32 ∧ sin32 0x80000000#32 = 0x80000000#32 ∧
    ∀ x : F32, isFinite32 x = true → sin32 (neg32 x) = neg32 (sin32 x)

/-- R152: the range of the multiplier for every legal depth, and for the default one. -/
def Obligations.MultiplierRange : Prop :=
  ∀ d v : F32, depthOK d = true → le32 0xBF800000#32 v = true → le32 v 0x3F800000#32 = true →
    le32 (sub32 0x3F800000#32 d) (modMul d v) = true ∧ le32 (modMul d v) 0x3F800000#32 = true ∧
      (d = 0x3ECCCCCD#32 → le32 0x3F19999A#32 (modMul d v) = true) ∧
      modMul d 0xBF800000#32 = 0x3F800000#32 ∧ modMul d 0x3F800000#32 = sub32 0x3F800000#32 d

/-- R152: a finite sample is never amplified by a multiplier of `[0, 1]`, and with one of `[0x3F19999A, 1]` a sample that is
not zero never gives zero. -/
def Obligations.SamplesNeverAmplifiedNorSilenced : Prop :=
  ∀ x m : F32, isFinite32 x = true → le32 0x00000000#32 m = true → le32 m 0x3F800000#32 = true →
    le32 (abs32 (mul32 x m)) (abs32 x) = true ∧
      (le32 0x3F19999A#32 m = true → value32 x ≠ 0 → value32 (mul32 x m) ≠ 0)

/-- R160: special samples under a positive multiplier: a zero and an infinity keep their encodings, and a NaN gives a NaN. -/
def Obligations.SpecialSamples : Prop :=
  ∀ (n : Nat) (x m : F32), lt32 0x00000000#32 m = true → le32 m 0x3F800000#32 = true →
    sampleOut n 0x00000000#32 m = 0x00000000#32 ∧ sampleOut n 0x80000000#32 m = 0x80000000#32 ∧
      sampleOut n 0x7F800000#32 m = 0x7F800000#32 ∧ sampleOut n 0xFF800000#32 m = 0xFF800000#32 ∧
      (isNaN32 x = true → isNaN32 (sampleOut n x m) = true) ∧ (isNaN32 x = false → isNaN32 (sampleOut n x m) = false)

/-- R152 of whole blocks, the headline: in every state that meets the invariant, and for every legal instance of the block
(R8, R9, R12), each word of a block is its sample times a multiplier between `fl32(1 - DEPTH)` and 1, for both waveforms, in
a next state that meets the invariant again. This instance (the sine being the model's computed one, log entry 6) is one of
them. -/
def Obligations.BlocksAttenuateWithinDepth : Prop :=
  (∀ (p : Params) (s : State) (nch : BitVec 12) (nfr : BitVec 16) (xs : List F32),
      ParamsLegal p → Inv s → BlockRuns s nch nfr xs →
      ∃ (t : State) (m : Nat → F32) (ys : List Word), processWith p nch nfr xs s = .next t ∧ Inv t ∧ t.out = s.out ++ ys ∧
        (∀ k, k < nfr.toNat → le32 (sub32 0x3F800000#32 s.depth) (m k) = true ∧ le32 (m k) 0x3F800000#32 = true) ∧
        ∀ k c x y, k < nfr.toNat → c < nch.toNat → xs[k * nch.toNat + c]? = some x → ys[k * nch.toNat + c]? = some y →
          IsOutput x (m k) y) ∧
    ParamsLegal params ∧ ∀ nch nfr xs s, exec (.process nch nfr xs) s = processWith params nch nfr xs s

/-! Whole-machine rules. -/

/-- R47: every step keeps the invariant. -/
def Obligations.StepKeepsInvariant : Prop :=
  ∀ s t : State, Inv s → step s = .next t → Inv t

/-- R125: no packet but RESET and a PROCESS writes a phase. -/
def Obligations.OnlyResetAndFramesWritePhases : Prop :=
  ∀ (i : Instr) (s t : State), exec i s = .next t → i ≠ .reset → (∀ nch nfr xs, i ≠ .process nch nfr xs) →
    ∀ w, (t.osc.get w).phase = (s.osc.get w).phase

/-- R50: which packet may write which register: what each leaves unchanged whenever it answers a next state. -/
def Obligations.RegistersHaveTheirWritersOnly : Prop :=
  ∀ (i : Instr) (s t : State), exec i s = .next t →
    t.depth = s.depth ∧ t.portA = s.portA ∧ t.portC = s.portC ∧ t.grants = s.grants ∧
      ((∀ fs mb, i ≠ .prepare fs mb) → t.fs = s.fs ∧ t.maxBlock = s.maxBlock ∧ t.prepared = s.prepared) ∧
      ((∀ w, i ≠ .setWave w) → t.pend = s.pend) ∧
      ((∀ nch nfr xs, i ≠ .process nch nfr xs) → t.cur = s.cur ∧ t.out = s.out ∧ t.freeCount = s.freeCount) ∧
      ((∀ tgt f, i ≠ .setFreq tgt false f) → ∀ w, (t.osc.get w).freqTgt = (s.osc.get w).freqTgt) ∧
      ((∀ tgt f, i ≠ .setFreq tgt true f) → (∀ nch nfr xs, i ≠ .process nch nfr xs) →
        ∀ w, (t.osc.get w).freq = (s.osc.get w).freq) ∧
      ((∀ tgt f, i ≠ .setFreq tgt true f) → (∀ nch nfr xs, i ≠ .process nch nfr xs) → (∀ fs mb, i ≠ .prepare fs mb) →
        ∀ w, (t.osc.get w).inc = (s.osc.get w).inc) ∧
      ((∀ tgt force f, i ≠ .setFreq tgt force f) → (∀ nch nfr xs, i ≠ .process nch nfr xs) →
        ∀ w, (t.osc.get w).freqPend = (s.osc.get w).freqPend)

/-- R38: nothing reads MAXBLOCK: with another value in it every instruction does the same. -/
def Obligations.MaxBlockIsReadByNothing : Prop :=
  ∀ (i : Instr) (s t : State) (m : Word), exec i s = .next t →
    ∃ t', exec i { s with maxBlock := m } = .next t' ∧ { t' with maxBlock := t.maxBlock } = t

/-- R79: NOP, PREPARE, SET_FREQ, RESET and SET_WAVE applied twice in a row equal one application. -/
def Obligations.RepeatedPacketsEqualOne : Prop :=
  ∀ (i : Instr) (s t : State), (∀ nch nfr xs, i ≠ .process nch nfr xs) → exec i s = .next t → t.fault = false →
    exec i t = .next t

/-- R159: RESET then PREPARE makes a block that agrees with another on CUR, PEND and the frequency registers run as the
other does from then on: the same registers after any packets, and the same response words. DEPTH and FAULT_CAUSE are the same, and so
are the free values met. -/
def Obligations.RestartReproducesFreshRun : Prop :=
  ∀ (s s' t : State) (fs : F64) (mb : Word) (is : List Instr),
    Running s → Running s' → s'.cur = s.cur → s'.pend = s.pend → s'.depth = s.depth → s'.faultCause = s.faultCause →
    s'.freeCount = s.freeCount →
    (∀ w, (s'.osc.get w).freq = (s.osc.get w).freq ∧ (s'.osc.get w).freqTgt = (s.osc.get w).freqTgt ∧
      (s'.osc.get w).freqPend = (s.osc.get w).freqPend) →
    execAll (.reset :: .prepare fs mb :: is) s = .next t → t.fault = false →
    ∃ t' ys, execAll (.reset :: .prepare fs mb :: is) s' = .next t' ∧ t.out = s.out ++ ys ∧ t'.out = s'.out ++ ys ∧
      SameRegisters t t'

/-! Runs. -/

/-- R81: a run continued to its end has ended: it is a faulted run, or nothing waits on a port. It was continued by applying
packets alone, no more of them than words were waiting. -/
def Obligations.FinishedRunHasEnded : Prop :=
  ∀ r t : Run, r.finish = .next t →
    (t.state.fault = true ∨ t.state.portA = [] ∧ t.state.portC = []) ∧
      ∃ n, n ≤ r.state.waiting ∧ r.events (List.replicate n .apply) = .next t

/-- R81, over the model's own record of a run (log entry 2): the observed response only grows, at its end and by applying
packets alone, and no move of a host writes a register; and a run in which host A never takes a word is observed the same, so
that when words are taken makes no difference. -/
def Obligations.ObservationIsOfWholeRun : Prop :=
  (∀ (r t : Run) (e : Event), r.event e = .next t →
      ∃ ys, t.observe.response = r.observe.response ++ ys ∧ (e ≠ .apply → ys = [] ∧ t.observe = r.observe)) ∧
    ∀ (r t : Run) (es : List Event), r.events es = .next t →
      ∃ t', r.events (es.filter (· ≠ .take)) = .next t' ∧ t'.observe = t.observe ∧ t'.ended = t.ended
end

