-- ==== Sys2Proof/Laws/Decode.lean ====
section
/-! SUPPORT. The fields of the formats, read back (R88 to R95). -/

namespace Sys2Proof

theorem opcOf_formatZ (o : BitVec 4) : opcOf (formatZ o) = o.toNat := by revert o; decide

theorem opcOf_formatF (t : BitVec 2) (b : Bool) : opcOf (formatF t b) = 2 := by revert t b; decide

theorem tgtOf_formatF (t : BitVec 2) (b : Bool) : tgtOf (formatF t b) = t.toNat := by revert t b; decide

theorem forceOf_formatF (t : BitVec 2) (b : Bool) : forceOf (formatF t b) = b := by revert t b; decide

theorem opcOf_formatW (w : BitVec 2) : opcOf (formatW w) = 4 := by revert w; decide

theorem wfOf_formatW (w : BitVec 2) : wfOf (formatW w) = w.toNat := by revert w; decide

/-- A format P word as a number. -/
theorem formatP_toNat (c : BitVec 12) (k : BitVec 16) :
    (formatP c k).toNat = 5 * 2 ^ 28 + c.toNat * 2 ^ 16 + k.toNat := by
  have hc := c.isLt
  have hk := k.isLt
  rw [formatP, BitVec.toNat_append, BitVec.toNat_append, ← Nat.shiftLeft_add_eq_or_of_lt hk,
    ← Nat.shiftLeft_add_eq_or_of_lt hc, Nat.shiftLeft_eq, Nat.shiftLeft_eq]
  have : (5#4).toNat = 5 := rfl
  rw [this]
  ring

theorem opcOf_formatP (c : BitVec 12) (k : BitVec 16) : opcOf (formatP c k) = 5 := by
  have hc := c.isLt
  have hk := k.isLt
  rw [opcOf, BitVec.extractLsb'_toNat, formatP_toNat, Nat.shiftRight_eq_div_pow]
  omega

theorem nchOf_formatP (c : BitVec 12) (k : BitVec 16) : nchOf (formatP c k) = c := by
  have hc := c.isLt
  have hk := k.isLt
  apply BitVec.eq_of_toNat_eq
  rw [nchOf, BitVec.extractLsb'_toNat, formatP_toNat, Nat.shiftRight_eq_div_pow]
  omega

theorem nfrOf_formatP (c : BitVec 12) (k : BitVec 16) : nfrOf (formatP c k) = k := by
  have hc := c.isLt
  have hk := k.isLt
  apply BitVec.eq_of_toNat_eq
  rw [nfrOf, BitVec.extractLsb'_toNat, formatP_toNat, Nat.shiftRight_eq_div_pow]
  omega

/-! The operand counts of the formats (R99). -/

theorem operandCount_one {w : Word} (h : opcOf w = 1) : operandCount w = 3 := by simp only [operandCount, h]

theorem operandCount_two {w : Word} (h : opcOf w = 2) : operandCount w = 1 := by simp only [operandCount, h]

theorem operandCount_five {w : Word} (h : opcOf w = 5) : operandCount w = (nchOf w).toNat * (nfrOf w).toNat := by
  simp only [operandCount, h]

theorem operandCount_other {w : Word} (h1 : opcOf w ≠ 1) (h2 : opcOf w ≠ 2) (h5 : opcOf w ≠ 5) : operandCount w = 0 := by
  simp only [operandCount]

theorem operandCount_formatF (t : BitVec 2) (b : Bool) : operandCount (formatF t b) = 1 :=
  operandCount_two (opcOf_formatF t b)

theorem operandCount_formatW (w : BitVec 2) : operandCount (formatW w) = 0 :=
  operandCount_other (by rw [opcOf_formatW]; decide) (by rw [opcOf_formatW]; decide) (by rw [opcOf_formatW]; decide)

theorem operandCount_formatP (c : BitVec 12) (k : BitVec 16) : operandCount (formatP c k) = c.toNat * k.toNat := by
  rw [operandCount_five (opcOf_formatP c k), nchOf_formatP, nfrOf_formatP]

/-- The two halves of a binary64, low first, joined again (R77). -/
theorem joinWords_halves (fs : F64) : joinWords (fs.extractLsb' 0 32) (fs.extractLsb' 32 32) = fs := by
  have h := fs.isLt
  apply BitVec.eq_of_toNat_eq
  rw [joinWords, BitVec.toNat_append, ← Nat.shiftLeft_add_eq_or_of_lt (BitVec.isLt _), BitVec.extractLsb'_toNat,
    BitVec.extractLsb'_toNat, Nat.shiftLeft_eq, Nat.shiftRight_eq_div_pow, Nat.shiftRight_eq_div_pow]
  omega

/-! The fields of a word as numbers (R86, R91 to R94). -/

theorem opcOf_eq (w : Word) : opcOf w = w.toNat / 2 ^ 28 := by
  have hl := w.isLt
  rw [opcOf, BitVec.extractLsb'_toNat, Nat.shiftRight_eq_div_pow]
  omega

theorem tgtOf_eq (w : Word) : tgtOf w = w.toNat / 2 % 4 := by
  rw [tgtOf, BitVec.extractLsb'_toNat, Nat.shiftRight_eq_div_pow]

theorem wfOf_eq (w : Word) : wfOf w = w.toNat % 4 := by
  rw [wfOf, BitVec.extractLsb'_toNat, Nat.shiftRight_eq_div_pow]
  simp

theorem nchOf_eq (w : Word) : (nchOf w).toNat = w.toNat / 2 ^ 16 % 2 ^ 12 := by
  rw [nchOf, BitVec.extractLsb'_toNat, Nat.shiftRight_eq_div_pow]

theorem nfrOf_eq (w : Word) : (nfrOf w).toNat = w.toNat % 2 ^ 16 := by
  rw [nfrOf, BitVec.extractLsb'_toNat, Nat.shiftRight_eq_div_pow]
  simp

/-- Whether bits 27 down to `k` of a word are not all 0. -/
theorem reserved_eq (w : Word) (k m : Nat) (h : k + m = 28) :
    (w.extractLsb' k m != BitVec.ofNat m 0) = decide (w.toNat % 2 ^ 28 / 2 ^ k ≠ 0) := by
  rw [Bool.eq_iff_iff, bne_iff_ne, decide_eq_true_eq, Ne, ← BitVec.toNat_inj, BitVec.extractLsb'_toNat,
    Nat.shiftRight_eq_div_pow, ← h, Nat.pow_add, Nat.mod_mul_right_div_self]
  simp

/-! What the decoder can answer. -/

/-- A packet that decodes: its operand words, what follows them, and that no check failed. -/
theorem decode_instr {port : Port} {w : Word} {ws rest : List Word} {i : Instr} (h : decode port (w :: ws) = .instr i rest) :
    ws = ws.take (operandCount w) ++ rest ∧ operandCount w ≤ ws.length ∧ i = instrOf w (ws.take (operandCount w)) ∧
      decodeFault port w = none := by
  simp only [decode] at h
  split at h
  · cases h
  · rename_i hl
    split at h
    · cases h
    · rename_i hn
      injection h with h1 h2
      subst h1 h2
      exact ⟨by simp, by omega, rfl, hn⟩

/-- A packet that faults: its operand words are consumed all the same (R99, R176). -/
theorem decode_bad {port : Port} {w : Word} {ws rest : List Word} {c : Cause} (h : decode port (w :: ws) = .bad c rest) :
    rest = ws.drop (operandCount w) ∧ operandCount w ≤ ws.length ∧ decodeFault port w = some c := by
  simp only [decode] at h
  split at h
  · cases h
  · rename_i hl
    split at h
    · rename_i hn
      injection h with h1 h2
      subst h1
      exact ⟨h2.symm, by omega, hn⟩
    · cases h

/-- A packet with all its operand words whose command word fails no check. -/
theorem decode_of_none {port : Port} {w : Word} {ws : List Word} (h : operandCount w ≤ ws.length)
    (hd : decodeFault port w = none) :
    decode port (w :: ws) = .instr (instrOf w (ws.take (operandCount w))) (ws.drop (operandCount w)) := by
  rw [decode, if_neg (by omega), hd]

theorem joinWords_toNat (lo hi : Word) : (joinWords lo hi).toNat = hi.toNat * 2 ^ 32 + lo.toNat := by
  have h : (joinWords lo hi).toNat = hi.toNat <<< 32 ||| lo.toNat := BitVec.toNat_append hi lo
  rw [h, ← Nat.shiftLeft_add_eq_or_of_lt lo.isLt, Nat.shiftLeft_eq]

end Sys2Proof
end

