-- ==== Sys2Proof/Laws/State.lean ====
section
/-! SUPPORT. One lemma per field and update: what each register write leaves in each field. -/

namespace Sys2Proof.Machine

/-! Updates of the state. -/

@[simp] theorem State.withFault_osc (s : State) (c : Cause) : (s.withFault c).osc = s.osc := rfl
@[simp] theorem State.withFault_fs (s : State) (c : Cause) : (s.withFault c).fs = s.fs := rfl
@[simp] theorem State.withFault_maxBlock (s : State) (c : Cause) : (s.withFault c).maxBlock = s.maxBlock := rfl
@[simp] theorem State.withFault_prepared (s : State) (c : Cause) : (s.withFault c).prepared = s.prepared := rfl
@[simp] theorem State.withFault_cur (s : State) (c : Cause) : (s.withFault c).cur = s.cur := rfl
@[simp] theorem State.withFault_pend (s : State) (c : Cause) : (s.withFault c).pend = s.pend := rfl
@[simp] theorem State.withFault_depth (s : State) (c : Cause) : (s.withFault c).depth = s.depth := rfl
@[simp] theorem State.withFault_fault (s : State) (c : Cause) : (s.withFault c).fault = true := rfl
@[simp] theorem State.withFault_faultCause (s : State) (c : Cause) : (s.withFault c).faultCause = c := rfl
@[simp] theorem State.withFault_portA (s : State) (c : Cause) : (s.withFault c).portA = s.portA := rfl
@[simp] theorem State.withFault_portC (s : State) (c : Cause) : (s.withFault c).portC = s.portC := rfl
@[simp] theorem State.withFault_grants (s : State) (c : Cause) : (s.withFault c).grants = s.grants := rfl
@[simp] theorem State.withFault_out (s : State) (c : Cause) : (s.withFault c).out = s.out := rfl
@[simp] theorem State.withFault_freeCount (s : State) (c : Cause) : (s.withFault c).freeCount = s.freeCount := rfl

@[simp] theorem State.setOsc_osc (s : State) (b : Bank) : (s.setOsc b).osc = b := rfl
@[simp] theorem State.setOsc_fs (s : State) (b : Bank) : (s.setOsc b).fs = s.fs := rfl
@[simp] theorem State.setOsc_maxBlock (s : State) (b : Bank) : (s.setOsc b).maxBlock = s.maxBlock := rfl
@[simp] theorem State.setOsc_prepared (s : State) (b : Bank) : (s.setOsc b).prepared = s.prepared := rfl
@[simp] theorem State.setOsc_cur (s : State) (b : Bank) : (s.setOsc b).cur = s.cur := rfl
@[simp] theorem State.setOsc_pend (s : State) (b : Bank) : (s.setOsc b).pend = s.pend := rfl
@[simp] theorem State.setOsc_depth (s : State) (b : Bank) : (s.setOsc b).depth = s.depth := rfl
@[simp] theorem State.setOsc_fault (s : State) (b : Bank) : (s.setOsc b).fault = s.fault := rfl
@[simp] theorem State.setOsc_faultCause (s : State) (b : Bank) : (s.setOsc b).faultCause = s.faultCause := rfl
@[simp] theorem State.setOsc_portA (s : State) (b : Bank) : (s.setOsc b).portA = s.portA := rfl
@[simp] theorem State.setOsc_portC (s : State) (b : Bank) : (s.setOsc b).portC = s.portC := rfl
@[simp] theorem State.setOsc_grants (s : State) (b : Bank) : (s.setOsc b).grants = s.grants := rfl
@[simp] theorem State.setOsc_out (s : State) (b : Bank) : (s.setOsc b).out = s.out := rfl
@[simp] theorem State.setOsc_freeCount (s : State) (b : Bank) : (s.setOsc b).freeCount = s.freeCount := rfl

@[simp] theorem State.setPend_osc (s : State) (w : Wave) : (s.setPend w).osc = s.osc := rfl
@[simp] theorem State.setPend_fs (s : State) (w : Wave) : (s.setPend w).fs = s.fs := rfl
@[simp] theorem State.setPend_maxBlock (s : State) (w : Wave) : (s.setPend w).maxBlock = s.maxBlock := rfl
@[simp] theorem State.setPend_prepared (s : State) (w : Wave) : (s.setPend w).prepared = s.prepared := rfl
@[simp] theorem State.setPend_cur (s : State) (w : Wave) : (s.setPend w).cur = s.cur := rfl
@[simp] theorem State.setPend_pend (s : State) (w : Wave) : (s.setPend w).pend = w := rfl
@[simp] theorem State.setPend_depth (s : State) (w : Wave) : (s.setPend w).depth = s.depth := rfl
@[simp] theorem State.setPend_fault (s : State) (w : Wave) : (s.setPend w).fault = s.fault := rfl
@[simp] theorem State.setPend_faultCause (s : State) (w : Wave) : (s.setPend w).faultCause = s.faultCause := rfl
@[simp] theorem State.setPend_portA (s : State) (w : Wave) : (s.setPend w).portA = s.portA := rfl
@[simp] theorem State.setPend_portC (s : State) (w : Wave) : (s.setPend w).portC = s.portC := rfl
@[simp] theorem State.setPend_grants (s : State) (w : Wave) : (s.setPend w).grants = s.grants := rfl
@[simp] theorem State.setPend_out (s : State) (w : Wave) : (s.setPend w).out = s.out := rfl
@[simp] theorem State.setPend_freeCount (s : State) (w : Wave) : (s.setPend w).freeCount = s.freeCount := rfl

@[simp] theorem State.setCur_osc (s : State) (w : Wave) : (s.setCur w).osc = s.osc := rfl
@[simp] theorem State.setCur_fs (s : State) (w : Wave) : (s.setCur w).fs = s.fs := rfl
@[simp] theorem State.setCur_maxBlock (s : State) (w : Wave) : (s.setCur w).maxBlock = s.maxBlock := rfl
@[simp] theorem State.setCur_prepared (s : State) (w : Wave) : (s.setCur w).prepared = s.prepared := rfl
@[simp] theorem State.setCur_cur (s : State) (w : Wave) : (s.setCur w).cur = w := rfl
@[simp] theorem State.setCur_pend (s : State) (w : Wave) : (s.setCur w).pend = s.pend := rfl
@[simp] theorem State.setCur_depth (s : State) (w : Wave) : (s.setCur w).depth = s.depth := rfl
@[simp] theorem State.setCur_fault (s : State) (w : Wave) : (s.setCur w).fault = s.fault := rfl
@[simp] theorem State.setCur_faultCause (s : State) (w : Wave) : (s.setCur w).faultCause = s.faultCause := rfl
@[simp] theorem State.setCur_portA (s : State) (w : Wave) : (s.setCur w).portA = s.portA := rfl
@[simp] theorem State.setCur_portC (s : State) (w : Wave) : (s.setCur w).portC = s.portC := rfl
@[simp] theorem State.setCur_grants (s : State) (w : Wave) : (s.setCur w).grants = s.grants := rfl
@[simp] theorem State.setCur_out (s : State) (w : Wave) : (s.setCur w).out = s.out := rfl
@[simp] theorem State.setCur_freeCount (s : State) (w : Wave) : (s.setCur w).freeCount = s.freeCount := rfl

@[simp] theorem State.setRate_osc (s : State) (fs : F64) (mb : Word) : (s.setRate fs mb).osc = s.osc := rfl
@[simp] theorem State.setRate_fs (s : State) (fs : F64) (mb : Word) : (s.setRate fs mb).fs = fs := rfl
@[simp] theorem State.setRate_maxBlock (s : State) (fs : F64) (mb : Word) : (s.setRate fs mb).maxBlock = mb := rfl
@[simp] theorem State.setRate_prepared (s : State) (fs : F64) (mb : Word) : (s.setRate fs mb).prepared = true := rfl
@[simp] theorem State.setRate_cur (s : State) (fs : F64) (mb : Word) : (s.setRate fs mb).cur = s.cur := rfl
@[simp] theorem State.setRate_pend (s : State) (fs : F64) (mb : Word) : (s.setRate fs mb).pend = s.pend := rfl
@[simp] theorem State.setRate_depth (s : State) (fs : F64) (mb : Word) : (s.setRate fs mb).depth = s.depth := rfl
@[simp] theorem State.setRate_fault (s : State) (fs : F64) (mb : Word) : (s.setRate fs mb).fault = s.fault := rfl
@[simp] theorem State.setRate_faultCause (s : State) (fs : F64) (mb : Word) : (s.setRate fs mb).faultCause = s.faultCause := rfl
@[simp] theorem State.setRate_portA (s : State) (fs : F64) (mb : Word) : (s.setRate fs mb).portA = s.portA := rfl
@[simp] theorem State.setRate_portC (s : State) (fs : F64) (mb : Word) : (s.setRate fs mb).portC = s.portC := rfl
@[simp] theorem State.setRate_grants (s : State) (fs : F64) (mb : Word) : (s.setRate fs mb).grants = s.grants := rfl
@[simp] theorem State.setRate_out (s : State) (fs : F64) (mb : Word) : (s.setRate fs mb).out = s.out := rfl
@[simp] theorem State.setRate_freeCount (s : State) (fs : F64) (mb : Word) : (s.setRate fs mb).freeCount = s.freeCount := rfl

@[simp] theorem State.emit_osc (s : State) (ws : List Word) : (s.emit ws).osc = s.osc := rfl
@[simp] theorem State.emit_fs (s : State) (ws : List Word) : (s.emit ws).fs = s.fs := rfl
@[simp] theorem State.emit_maxBlock (s : State) (ws : List Word) : (s.emit ws).maxBlock = s.maxBlock := rfl
@[simp] theorem State.emit_prepared (s : State) (ws : List Word) : (s.emit ws).prepared = s.prepared := rfl
@[simp] theorem State.emit_cur (s : State) (ws : List Word) : (s.emit ws).cur = s.cur := rfl
@[simp] theorem State.emit_pend (s : State) (ws : List Word) : (s.emit ws).pend = s.pend := rfl
@[simp] theorem State.emit_depth (s : State) (ws : List Word) : (s.emit ws).depth = s.depth := rfl
@[simp] theorem State.emit_fault (s : State) (ws : List Word) : (s.emit ws).fault = s.fault := rfl
@[simp] theorem State.emit_faultCause (s : State) (ws : List Word) : (s.emit ws).faultCause = s.faultCause := rfl
@[simp] theorem State.emit_portA (s : State) (ws : List Word) : (s.emit ws).portA = s.portA := rfl
@[simp] theorem State.emit_portC (s : State) (ws : List Word) : (s.emit ws).portC = s.portC := rfl
@[simp] theorem State.emit_grants (s : State) (ws : List Word) : (s.emit ws).grants = s.grants := rfl
@[simp] theorem State.emit_out (s : State) (ws : List Word) : (s.emit ws).out = s.out ++ ws := rfl
@[simp] theorem State.emit_freeCount (s : State) (ws : List Word) : (s.emit ws).freeCount = s.freeCount + ws.length := rfl

@[simp] theorem State.setGrants_osc (s : State) (ps : List Port) : (s.setGrants ps).osc = s.osc := rfl
@[simp] theorem State.setGrants_fs (s : State) (ps : List Port) : (s.setGrants ps).fs = s.fs := rfl
@[simp] theorem State.setGrants_maxBlock (s : State) (ps : List Port) : (s.setGrants ps).maxBlock = s.maxBlock := rfl
@[simp] theorem State.setGrants_prepared (s : State) (ps : List Port) : (s.setGrants ps).prepared = s.prepared := rfl
@[simp] theorem State.setGrants_cur (s : State) (ps : List Port) : (s.setGrants ps).cur = s.cur := rfl
@[simp] theorem State.setGrants_pend (s : State) (ps : List Port) : (s.setGrants ps).pend = s.pend := rfl
@[simp] theorem State.setGrants_depth (s : State) (ps : List Port) : (s.setGrants ps).depth = s.depth := rfl
@[simp] theorem State.setGrants_fault (s : State) (ps : List Port) : (s.setGrants ps).fault = s.fault := rfl
@[simp] theorem State.setGrants_faultCause (s : State) (ps : List Port) : (s.setGrants ps).faultCause = s.faultCause := rfl
@[simp] theorem State.setGrants_portA (s : State) (ps : List Port) : (s.setGrants ps).portA = s.portA := rfl
@[simp] theorem State.setGrants_portC (s : State) (ps : List Port) : (s.setGrants ps).portC = s.portC := rfl
@[simp] theorem State.setGrants_grants (s : State) (ps : List Port) : (s.setGrants ps).grants = ps := rfl
@[simp] theorem State.setGrants_out (s : State) (ps : List Port) : (s.setGrants ps).out = s.out := rfl
@[simp] theorem State.setGrants_freeCount (s : State) (ps : List Port) : (s.setGrants ps).freeCount = s.freeCount := rfl

@[simp] theorem State.spendIndex_osc (s : State) : s.spendIndex.osc = s.osc := rfl
@[simp] theorem State.spendIndex_fs (s : State) : s.spendIndex.fs = s.fs := rfl
@[simp] theorem State.spendIndex_maxBlock (s : State) : s.spendIndex.maxBlock = s.maxBlock := rfl
@[simp] theorem State.spendIndex_prepared (s : State) : s.spendIndex.prepared = s.prepared := rfl
@[simp] theorem State.spendIndex_cur (s : State) : s.spendIndex.cur = s.cur := rfl
@[simp] theorem State.spendIndex_pend (s : State) : s.spendIndex.pend = s.pend := rfl
@[simp] theorem State.spendIndex_depth (s : State) : s.spendIndex.depth = s.depth := rfl
@[simp] theorem State.spendIndex_fault (s : State) : s.spendIndex.fault = s.fault := rfl
@[simp] theorem State.spendIndex_faultCause (s : State) : s.spendIndex.faultCause = s.faultCause := rfl
@[simp] theorem State.spendIndex_portA (s : State) : s.spendIndex.portA = s.portA := rfl
@[simp] theorem State.spendIndex_portC (s : State) : s.spendIndex.portC = s.portC := rfl
@[simp] theorem State.spendIndex_grants (s : State) : s.spendIndex.grants = s.grants := rfl
@[simp] theorem State.spendIndex_out (s : State) : s.spendIndex.out = s.out := rfl
@[simp] theorem State.spendIndex_freeCount (s : State) : s.spendIndex.freeCount = s.freeCount + 1 := rfl

/-! The ports' queues. -/

@[simp] theorem State.setQueue_osc (s : State) (p : Port) (ws : List Word) : (s.setQueue p ws).osc = s.osc := by cases p <;> rfl
@[simp] theorem State.setQueue_fs (s : State) (p : Port) (ws : List Word) : (s.setQueue p ws).fs = s.fs := by cases p <;> rfl
@[simp] theorem State.setQueue_maxBlock (s : State) (p : Port) (ws : List Word) : (s.setQueue p ws).maxBlock = s.maxBlock := by cases p <;> rfl
@[simp] theorem State.setQueue_prepared (s : State) (p : Port) (ws : List Word) : (s.setQueue p ws).prepared = s.prepared := by cases p <;> rfl
@[simp] theorem State.setQueue_cur (s : State) (p : Port) (ws : List Word) : (s.setQueue p ws).cur = s.cur := by cases p <;> rfl
@[simp] theorem State.setQueue_pend (s : State) (p : Port) (ws : List Word) : (s.setQueue p ws).pend = s.pend := by cases p <;> rfl
@[simp] theorem State.setQueue_depth (s : State) (p : Port) (ws : List Word) : (s.setQueue p ws).depth = s.depth := by cases p <;> rfl
@[simp] theorem State.setQueue_fault (s : State) (p : Port) (ws : List Word) : (s.setQueue p ws).fault = s.fault := by cases p <;> rfl
@[simp] theorem State.setQueue_faultCause (s : State) (p : Port) (ws : List Word) : (s.setQueue p ws).faultCause = s.faultCause := by cases p <;> rfl
@[simp] theorem State.setQueue_grants (s : State) (p : Port) (ws : List Word) : (s.setQueue p ws).grants = s.grants := by cases p <;> rfl
@[simp] theorem State.setQueue_out (s : State) (p : Port) (ws : List Word) : (s.setQueue p ws).out = s.out := by cases p <;> rfl
@[simp] theorem State.setQueue_freeCount (s : State) (p : Port) (ws : List Word) : (s.setQueue p ws).freeCount = s.freeCount := by cases p <;> rfl
@[simp] theorem State.setQueue_a_portA (s : State) (ws : List Word) : (s.setQueue .a ws).portA = ws := rfl
@[simp] theorem State.setQueue_a_portC (s : State) (ws : List Word) : (s.setQueue .a ws).portC = s.portC := rfl
@[simp] theorem State.setQueue_c_portA (s : State) (ws : List Word) : (s.setQueue .c ws).portA = s.portA := rfl
@[simp] theorem State.setQueue_c_portC (s : State) (ws : List Word) : (s.setQueue .c ws).portC = ws := rfl
@[simp] theorem State.queue_a (s : State) : s.queue .a = s.portA := rfl
@[simp] theorem State.queue_c (s : State) : s.queue .c = s.portC := rfl
@[simp] theorem State.queue_setQueue (s : State) (p : Port) (ws : List Word) : (s.setQueue p ws).queue p = ws := by cases p <;> rfl
@[simp] theorem State.setQueue_setQueue (s : State) (p : Port) (ws vs : List Word) :
    (s.setQueue p ws).setQueue p vs = s.setQueue p vs := by cases p <;> rfl
@[simp] theorem State.setQueue_queue (s : State) (p : Port) : s.setQueue p (s.queue p) = s := by cases p <;> rfl
@[simp] theorem State.setGrants_grants_self (s : State) : s.setGrants s.grants = s := rfl

/-! Updates of an Oscillator. -/

@[simp] theorem Oscillator.request_phase (o : Oscillator) (f : F32) : (o.request f).phase = o.phase := rfl
@[simp] theorem Oscillator.request_freq (o : Oscillator) (f : F32) : (o.request f).freq = o.freq := rfl
@[simp] theorem Oscillator.request_inc (o : Oscillator) (f : F32) : (o.request f).inc = o.inc := rfl
@[simp] theorem Oscillator.request_freqTgt (o : Oscillator) (f : F32) : (o.request f).freqTgt = f := rfl
@[simp] theorem Oscillator.request_freqPend (o : Oscillator) (f : F32) : (o.request f).freqPend = true := rfl

@[simp] theorem Oscillator.useFreq_phase (o : Oscillator) (f : F32) : (o.useFreq f).phase = o.phase := rfl
@[simp] theorem Oscillator.useFreq_freq (o : Oscillator) (f : F32) : (o.useFreq f).freq = f := rfl
@[simp] theorem Oscillator.useFreq_inc (o : Oscillator) (f : F32) : (o.useFreq f).inc = o.inc := rfl
@[simp] theorem Oscillator.useFreq_freqTgt (o : Oscillator) (f : F32) : (o.useFreq f).freqTgt = o.freqTgt := rfl
@[simp] theorem Oscillator.useFreq_freqPend (o : Oscillator) (f : F32) : (o.useFreq f).freqPend = false := rfl

@[simp] theorem Oscillator.setInc_phase (o : Oscillator) (n : F32) : (o.setInc n).phase = o.phase := rfl
@[simp] theorem Oscillator.setInc_freq (o : Oscillator) (n : F32) : (o.setInc n).freq = o.freq := rfl
@[simp] theorem Oscillator.setInc_inc (o : Oscillator) (n : F32) : (o.setInc n).inc = n := rfl
@[simp] theorem Oscillator.setInc_freqTgt (o : Oscillator) (n : F32) : (o.setInc n).freqTgt = o.freqTgt := rfl
@[simp] theorem Oscillator.setInc_freqPend (o : Oscillator) (n : F32) : (o.setInc n).freqPend = o.freqPend := rfl

@[simp] theorem Oscillator.stepPhase_phase (o : Oscillator) : o.stepPhase.phase = advance o.phase o.inc := rfl
@[simp] theorem Oscillator.stepPhase_freq (o : Oscillator) : o.stepPhase.freq = o.freq := rfl
@[simp] theorem Oscillator.stepPhase_inc (o : Oscillator) : o.stepPhase.inc = o.inc := rfl
@[simp] theorem Oscillator.stepPhase_freqTgt (o : Oscillator) : o.stepPhase.freqTgt = o.freqTgt := rfl
@[simp] theorem Oscillator.stepPhase_freqPend (o : Oscillator) : o.stepPhase.freqPend = o.freqPend := rfl

@[simp] theorem Oscillator.prepare_phase (o : Oscillator) (fs : F64) : (o.prepare fs).phase = o.phase := by rw [Oscillator.prepare, Oscillator.setInc_phase]
@[simp] theorem Oscillator.prepare_freq (o : Oscillator) (fs : F64) : (o.prepare fs).freq = o.freq := by rw [Oscillator.prepare, Oscillator.setInc_freq]
@[simp] theorem Oscillator.prepare_inc (o : Oscillator) (fs : F64) : (o.prepare fs).inc = incOf o.freq fs := by rw [Oscillator.prepare, Oscillator.setInc_inc]
@[simp] theorem Oscillator.prepare_freqTgt (o : Oscillator) (fs : F64) : (o.prepare fs).freqTgt = o.freqTgt := by rw [Oscillator.prepare, Oscillator.setInc_freqTgt]
@[simp] theorem Oscillator.prepare_freqPend (o : Oscillator) (fs : F64) : (o.prepare fs).freqPend = o.freqPend := by rw [Oscillator.prepare, Oscillator.setInc_freqPend]

@[simp] theorem Oscillator.clearPhase_phase (o : Oscillator) : o.clearPhase.phase = zero32 := rfl
@[simp] theorem Oscillator.clearPhase_freq (o : Oscillator) : o.clearPhase.freq = o.freq := rfl
@[simp] theorem Oscillator.clearPhase_inc (o : Oscillator) : o.clearPhase.inc = o.inc := rfl
@[simp] theorem Oscillator.clearPhase_freqTgt (o : Oscillator) : o.clearPhase.freqTgt = o.freqTgt := rfl
@[simp] theorem Oscillator.clearPhase_freqPend (o : Oscillator) : o.clearPhase.freqPend = o.freqPend := rfl

/-! The two Oscillators. -/

@[simp] theorem Bank.map_sine (g : Wave → Oscillator → Oscillator) (b : Bank) : (b.map g).sine = g .sine b.sine := rfl
@[simp] theorem Bank.map_tri (g : Wave → Oscillator → Oscillator) (b : Bank) : (b.map g).tri = g .tri b.tri := rfl
@[simp] theorem Bank.get_sine (b : Bank) : b.get .sine = b.sine := rfl
@[simp] theorem Bank.get_tri (b : Bank) : b.get .tri = b.tri := rfl

theorem Bank.get_map (g : Wave → Oscillator → Oscillator) (b : Bank) (w : Wave) : (b.map g).get w = g w (b.get w) := by
  cases w <;> rfl

/-- Two banks with the same Oscillators are the same. -/
theorem Bank.ext_get (b c : Bank) (h : ∀ w, b.get w = c.get w) : b = c := by
  cases b; cases c
  exact congrArg₂ Bank.mk (h .sine) (h .tri)

theorem Bank.map_map (g k : Wave → Oscillator → Oscillator) (b : Bank) :
    (b.map g).map k = b.map fun w o => k w (g w o) := rfl

/-- A rewriting that changes no Oscillator changes nothing. -/
theorem Bank.map_self (g : Wave → Oscillator → Oscillator) (b : Bank) (h : ∀ w, g w (b.get w) = b.get w) :
    b.map g = b := Bank.ext_get _ _ fun w => by rw [Bank.get_map, h]

end Sys2Proof.Machine
end

