-- ==== Sys2Proof/Laws/Ops.lean ====
section
/-! SUPPORT. What each shared operation can do, said once: the check for a running block, taking a fault, the ports, and
the step. -/

namespace Sys2Proof.Machine

/-! The check for a running block. -/

theorem live_of_running {s : State} (h : Running s) (r : Result) : live s r = r := by
  rw [live, h.1, h.2]; rfl

theorem live_of_faulted {s : State} (h : s.fault = true) (r : Result) : live s r = .fault (.absorbed s.faultCause) := by
  rw [live, h]; rfl

theorem live_of_bad_depth {s : State} (h : s.fault = false) (hd : depthOK s.depth = false) (r : Result) :
    live s r = .refused .depthOutOfRange := by
  rw [live, h, hd]; rfl

/-- Only a running block answers a next state, and then it is that of what is applied. -/
theorem live_eq_next {s t : State} {r : Result} : live s r = .next t ↔ Running s ∧ r = .next t := by
  unfold live Running
  cases s.fault <;> cases depthOK s.depth <;> simp

theorem next_inj {s t : State} : (Host.Outcome.next s : Result) = .next t ↔ s = t := by
  constructor
  · intro h; injection h
  · intro h; rw [h]

/-- Taking a fault is a next state that differs in FAULT and FAULT_CAUSE alone. -/
theorem raise_eq_next {c : Cause} {s t : State} : raise c s = .next t ↔ s.withFault c = t := next_inj

/-! The ports. -/

/-- What serving a port leaves as it was: everything but the interleaving and the free index. -/
theorem arbitrate_spec {s s1 : State} {p : Port} (h : arbitrate s = some (p, s1)) :
    s.queue p ≠ [] ∧ ∃ gs n, s1 = { s with grants := gs, freeCount := n } := by
  unfold arbitrate at h
  split at h
  · cases h
  · rename_i e1 e2
    simp only [Option.some.injEq, Prod.mk.injEq] at h
    obtain ⟨rfl, rfl⟩ := h
    exact ⟨by simp [e1], s.grants, s.freeCount, rfl⟩
  · rename_i e1 e2
    simp only [Option.some.injEq, Prod.mk.injEq] at h
    obtain ⟨rfl, rfl⟩ := h
    exact ⟨by simp [e2], s.grants, s.freeCount, rfl⟩
  · rename_i e1 e2
    split at h
    · simp only [Option.some.injEq, Prod.mk.injEq] at h
      obtain ⟨rfl, rfl⟩ := h
      refine ⟨?_, _, s.freeCount, rfl⟩
      rename_i p ps _
      cases p <;> simp [e1, e2]
    · simp only [Option.some.injEq, Prod.mk.injEq] at h
      obtain ⟨rfl, rfl⟩ := h
      refine ⟨?_, s.grants, _, rfl⟩
      cases Config.freeGrant s.freeCount <;> simp [e1, e2]

/-- No port is served exactly when nothing waits. -/
theorem arbitrate_eq_none {s : State} : arbitrate s = none ↔ s.portA = [] ∧ s.portC = [] := by
  unfold arbitrate
  split
  · simp_all
  · simp_all
  · simp_all
  · rename_i e1 e2
    split <;> simp [e1]

/-- The words a state with another interleaving and free index holds. -/
theorem queue_regrant (s : State) (gs : List Port) (n : Nat) (p : Port) :
    State.queue { s with grants := gs, freeCount := n } p = s.queue p := by cases p <;> rfl

/-- What a fetch finds, by what the decoder makes of the served port's words. -/
theorem fetch_of_arbitrate {s s1 : State} {p : Port} (h : arbitrate s = some (p, s1)) :
    fetch s = match decode p (s.queue p) with
      | .cutShort => .cutShort
      | .bad cause rest => .bad cause (s1.setQueue p rest)
      | .instr i rest => .run i (s1.setQueue p rest) := by
  obtain ⟨_, gs, n, rfl⟩ := arbitrate_spec h
  rw [fetch, h]
  show (match decode p (State.queue { s with grants := gs, freeCount := n } p) with
    | .cutShort => Fetched.cutShort
    | .bad cause rest => .bad cause (State.setQueue { s with grants := gs, freeCount := n } p rest)
    | .instr i rest => .run i (State.setQueue { s with grants := gs, freeCount := n } p rest)) = _
  rw [queue_regrant]

theorem fetch_of_idle {s : State} (ha : s.portA = []) (hc : s.portC = []) : fetch s = .idle := by
  rw [fetch, arbitrate_eq_none.mpr ⟨ha, hc⟩]

/-- What a fetch that finds an instruction has done. -/
theorem fetch_run {s s' : State} {i : Instr} (h : fetch s = .run i s') :
    ∃ p gs n rest, s.queue p ≠ [] ∧ decode p (s.queue p) = .instr i rest ∧
      s' = State.setQueue { s with grants := gs, freeCount := n } p rest := by
  cases harb : arbitrate s with
  | none => rw [fetch, harb] at h; cases h
  | some r =>
    obtain ⟨p, s1⟩ := r
    rw [fetch_of_arbitrate harb] at h
    obtain ⟨hne, gs, n, rfl⟩ := arbitrate_spec harb
    split at h
    · cases h
    · cases h
    · rename_i rest hd
      injection h with h1 h2
      exact ⟨p, gs, n, rest, hne, by rw [hd, h1], h2.symm⟩

/-- What a fetch that finds a packet that faults at decoding has done. -/
theorem fetch_bad {s s' : State} {c : Cause} (h : fetch s = .bad c s') :
    ∃ p gs n rest, s.queue p ≠ [] ∧ decode p (s.queue p) = .bad c rest ∧
      s' = State.setQueue { s with grants := gs, freeCount := n } p rest := by
  cases harb : arbitrate s with
  | none => rw [fetch, harb] at h; cases h
  | some r =>
    obtain ⟨p, s1⟩ := r
    rw [fetch_of_arbitrate harb] at h
    obtain ⟨hne, gs, n, rfl⟩ := arbitrate_spec harb
    split at h
    · cases h
    · rename_i cause rest hd
      injection h with h1 h2
      exact ⟨p, gs, n, rest, hne, by rw [hd, h1], h2.symm⟩
    · cases h

/-- Consuming a packet keeps every register. -/
theorem sameRegisters_consume (s : State) (gs : List Port) (n : Nat) (p : Port) (ws : List Word) :
    SameRegisters s (State.setQueue { s with grants := gs, freeCount := n } p ws) := by
  cases p <;> rfl

/-! The step. -/

/-- Everything a step that answers a next state can have done: waited, taken a fault at decoding, or run an
instruction. -/
theorem step_cases {s t : State} (h : step s = .next t) :
    Running s ∧
      ((fetch s = .idle ∧ t = s) ∨
        (∃ c s1, fetch s = .bad c s1 ∧ t = s1.withFault c) ∨
        (∃ i s1, fetch s = .run i s1 ∧ exec i s1 = .next t)) := by
  rw [step, live_eq_next] at h
  obtain ⟨hr, h⟩ := h
  refine ⟨hr, ?_⟩
  cases hf : fetch s with
  | idle =>
    rw [hf] at h
    simp only at h
    exact .inl ⟨rfl, (next_inj.mp h).symm⟩
  | cutShort =>
    rw [hf] at h
    simp only at h
    cases h
  | bad c s1 =>
    rw [hf] at h
    simp only at h
    exact .inr (.inl ⟨c, s1, rfl, (raise_eq_next.mp h).symm⟩)
  | run i s1 =>
    rw [hf] at h
    simp only at h
    exact .inr (.inr ⟨i, s1, rfl, h⟩)

end Sys2Proof.Machine
end

