-- ==== Sys2Proof/Laws/Exec.lean ====
section
/-! SUPPORT. What each instruction can do when it answers a next state, said once for each. -/

namespace Sys2Proof.Machine

theorem execNop_next {s t : State} : execNop s = .next t ↔ Running s ∧ t = s := by
  rw [execNop, live_eq_next, next_inj, eq_comm (a := s)]

theorem execReset_next {s t : State} :
    execReset s = .next t ↔ Running s ∧ t = s.setOsc (s.osc.map fun _ o => o.clearPhase) := by
  rw [execReset, live_eq_next, next_inj, eq_comm (b := t)]

theorem execSetWave_next {wf : Wave} {s t : State} : execSetWave wf s = .next t ↔ Running s ∧ t = s.setPend wf := by
  rw [execSetWave, live_eq_next, next_inj, eq_comm (b := t)]

/-- PREPARE faults on its rate, faults on an increment, or writes. -/
theorem execPrepare_next {fs : F64} {mb : Word} {s t : State} (h : execPrepare fs mb s = .next t) :
    Running s ∧
      ((rateOK fs = false ∧ t = s.withFault .badRate) ∨
        (rateOK fs = true ∧ (s.osc.sine.prepareOK fs && s.osc.tri.prepareOK fs) = false ∧ t = s.withFault .badInc) ∨
        (rateOK fs = true ∧ s.osc.sine.prepareOK fs = true ∧ s.osc.tri.prepareOK fs = true ∧
          t = (s.setOsc (s.osc.map fun _ o => o.prepare fs)).setRate fs mb)) := by
  rw [execPrepare, live_eq_next] at h
  obtain ⟨hr, h⟩ := h
  refine ⟨hr, ?_⟩
  cases h1 : rateOK fs with
  | false =>
    rw [h1] at h
    exact .inl ⟨rfl, (raise_eq_next.mp h).symm⟩
  | true =>
    cases h2 : (s.osc.sine.prepareOK fs && s.osc.tri.prepareOK fs) with
    | false =>
      rw [h1, h2] at h
      exact .inr (.inl ⟨rfl, rfl, (raise_eq_next.mp h).symm⟩)
    | true =>
      rw [h1, h2] at h
      rw [Bool.and_eq_true] at h2
      exact .inr (.inr ⟨rfl, h2.1, h2.2, (next_inj.mp h).symm⟩)

/-- SET_FREQ faults on its frequency, faults on the increment, puts the frequency in use, or defers it. -/
theorem execSetFreq_next {tgt : Target} {force : Bool} {f : F32} {s t : State} (h : execSetFreq tgt force f s = .next t) :
    Running s ∧
      ((freqOK f = false ∧ t = s.withFault .badFreq) ∨
        (freqOK f = true ∧ force = true ∧ s.prepared = true ∧ incOK (incOf f s.fs) = false ∧ t = s.withFault .badInc) ∨
        (freqOK f = true ∧ force = true ∧ (s.prepared = true → incOK (incOf f s.fs) = true) ∧
          t = s.setOsc (s.osc.atTargets tgt (forceFreq s.prepared s.fs f))) ∨
        (freqOK f = true ∧ force = false ∧ t = s.setOsc (s.osc.atTargets tgt fun o => o.request f))) := by
  rw [execSetFreq, live_eq_next] at h
  obtain ⟨hr, h⟩ := h
  refine ⟨hr, ?_⟩
  cases h1 : freqOK f with
  | false =>
    rw [h1] at h
    exact .inl ⟨rfl, (raise_eq_next.mp h).symm⟩
  | true =>
    refine .inr ?_
    rw [h1] at h
    cases force with
    | false => exact .inr (.inr ⟨rfl, rfl, (next_inj.mp h).symm⟩)
    | true =>
      cases h2 : (s.prepared && !incOK (incOf f s.fs)) with
      | true =>
        rw [h2] at h
        rw [Bool.and_eq_true, Bool.not_eq_true'] at h2
        exact .inl ⟨rfl, rfl, h2.1, h2.2, (raise_eq_next.mp h).symm⟩
      | false =>
        rw [h2] at h
        refine .inr (.inl ⟨rfl, rfl, fun hp => ?_, (next_inj.mp h).symm⟩)
        rw [hp] at h2
        simpa using h2

/-- PROCESS faults for want of a PREPARE, does nothing on an empty block, faults on a deferred frequency, or runs its
frames after the adoptions. -/
theorem processWith_next {p : Params} {nch : BitVec 12} {nfr : BitVec 16} {xs : List F32} {s t : State}
    (h : processWith p nch nfr xs s = .next t) :
    Running s ∧
      ((s.prepared = false ∧ t = s.withFault .notPrepared) ∨
        (s.prepared = true ∧ emptyBlock nch nfr = true ∧ t = s) ∨
        (s.prepared = true ∧ emptyBlock nch nfr = false ∧ adoptFreqOK s = false ∧ t = s.withFault .badInc) ∨
        (s.prepared = true ∧ emptyBlock nch nfr = false ∧ adoptFreqOK s = true ∧
          t = applyFrames p nch nfr xs (adoptWave (adoptFreq s)))) := by
  rw [processWith, live_eq_next] at h
  obtain ⟨hr, h⟩ := h
  refine ⟨hr, ?_⟩
  cases h1 : s.prepared with
  | false =>
    rw [h1] at h
    exact .inl ⟨rfl, (raise_eq_next.mp h).symm⟩
  | true =>
    refine .inr ?_
    rw [h1] at h
    cases h2 : emptyBlock nch nfr with
    | true =>
      rw [h2] at h
      exact .inl ⟨rfl, rfl, (next_inj.mp h).symm⟩
    | false =>
      rw [h2] at h
      cases h3 : adoptFreqOK s with
      | false =>
        rw [h3] at h
        exact .inr (.inl ⟨rfl, rfl, rfl, (raise_eq_next.mp h).symm⟩)
      | true =>
        rw [h3] at h
        exact .inr (.inr ⟨rfl, rfl, rfl, (next_inj.mp h).symm⟩)

/-- The adoptions rewrite the Oscillators and CUR, and nothing else. -/
theorem adopted_eq (s : State) :
    adoptWave (adoptFreq s) = { s with osc := s.osc.map (fun _ o => o.adopt s.fs), cur := s.pend } := by
  unfold adoptWave
  split
  · rfl
  · rename_i h
    have h : s.pend = s.cur := not_not.mp h
    cases s; cases h; rfl

/-- One frame's response words: as many as there are samples. -/
@[simp] theorem frameOut_length (n : Nat) (m : F32) (xs : List F32) : (frameOut n m xs).length = xs.length := by
  induction xs generalizing n with
  | nil => rfl
  | cons x xs ih => simp [frameOut, ih]

/-- A block of enough samples yields one word a sample. -/
theorem runFrames_length (p : Params) (w : Wave) (d : F32) (nch k n : Nat) (xs : List F32) (b : Bank)
    (h : xs.length = nch * k) : (runFrames p w d nch k n xs b).1.length = nch * k := by
  induction k generalizing n xs b with
  | zero => simp [runFrames]
  | succ k ih =>
    rw [Nat.mul_succ] at h
    simp only [runFrames, List.length_append, frameOut_length, List.length_take]
    rw [ih _ _ _ (by rw [List.length_drop]; omega), Nat.mul_succ]
    omega

/-- One frame's response words, each by its index. -/
theorem frameOut_get (n : Nat) (m : F32) (xs : List F32) (i : Nat) :
    (frameOut n m xs)[i]? = xs[i]?.map fun x => sampleOut (n + i) x m := by
  induction xs generalizing n i with
  | nil => rfl
  | cons x xs ih =>
    cases i with
    | zero => rfl
    | succ i => simp [frameOut, ih, Nat.add_assoc, Nat.add_comm 1]

/-- An Oscillator after `k` phase advances. -/
def stepMany (k : Nat) (r : Oscillator) : Oscillator := { r with phase := phaseAfter r.inc k r.phase }

/-- The Oscillators after `k` frames: the selected one, and with ADVANCE_ALL the other too, has advanced `k` times
(R147, R157, R158). -/
theorem runFrames_bank (p : Params) (w : Wave) (d : F32) (nch k n : Nat) (xs : List F32) (b : Bank) (o : Wave) :
    (runFrames p w d nch k n xs b).2.get o = if o = w ∨ p.advanceAll = true then stepMany k (b.get o) else b.get o := by
  induction k generalizing n xs b with
  | zero => simp [runFrames, stepMany, phaseAfter]
  | succ k ih =>
    simp only [runFrames]
    rw [ih]
    simp only [frameStep, Bank.get_map, frameOsc, oscStep]
    by_cases h : o = w
    · simp only [h, true_or, if_true]; rfl
    · cases h2 : p.advanceAll <;> simp only [h, false_or, if_true, if_false, Bool.false_eq_true]
      rfl

/-- A non-empty block's writes, after the adoptions, all at once. -/
theorem applyFrames_adopted (p : Params) (s : State) (nch : BitVec 12) (nfr : BitVec 16) (xs : List F32) :
    applyFrames p nch nfr xs (adoptWave (adoptFreq s)) =
      let r := runFrames p s.pend s.depth nch.toNat nfr.toNat s.freeCount xs (s.osc.map fun _ o => o.adopt s.fs)
      { s with osc := r.2, cur := s.pend, out := s.out ++ r.1, freeCount := s.freeCount + r.1.length } := by
  rw [adopted_eq]; rfl

/-- The Oscillator a block's frames start from (R124). -/
theorem adopt_get (s : State) (w : Wave) :
    (s.osc.map fun _ o => o.adopt s.fs).get w =
      { s.osc.get w with freq := blockFreq s w, inc := blockInc s w, freqPend := false } := by
  rw [Bank.get_map, Oscillator.adopt, blockFreq, blockInc]
  cases h : (s.osc.get w).freqPend
  · simp only [if_false, Bool.false_eq_true]
    rw [← h]
  · rfl

end Sys2Proof.Machine
end

