-- ==== Sys2Proof/Laws/Float.lean ====
section
/-! SUPPORT. Rounding: what one rounding does, stated once. A result is the encoding at or just above the exact value's
floor among the encodings, whichever is nearer, the even one of two equally near; hence rounding is exact on what a
format represents and monotone. -/

namespace Sys2Proof.Machine

/-! The units of an encoding. -/

/-- An encoding split into a shift and a significand of at most one bit more than the fraction. -/
theorem Fmt.unitsOf_split (f : Fmt) (s q : Nat) (hq : q ≤ 2 ^ (f.fracBits + 1)) (hs : s = 0 ∨ 2 ^ f.fracBits ≤ q) :
    f.unitsOf (s * 2 ^ f.fracBits + q) = q * 2 ^ s := by
  obtain ⟨b, hb⟩ : ∃ b, b = 2 ^ f.fracBits := ⟨_, rfl⟩
  have hpos : 0 < b := hb ▸ Nat.two_pow_pos _
  rw [pow_succ, ← hb] at hq
  rw [← hb] at hs
  unfold Fmt.unitsOf
  rw [← hb]
  by_cases hlt : q < b
  · have h0 : s = 0 := by omega
    subst h0
    have : (0 * b + q) / b = 0 := by rw [Nat.zero_mul, Nat.zero_add]; exact Nat.div_eq_of_lt hlt
    rw [if_pos this, Nat.zero_mul, Nat.zero_add, Nat.mod_eq_of_lt hlt]; simp
  · by_cases hlt2 : q < 2 * b
    · have e : s * b + q = (q - b) + b * (s + 1) := by
        have : b * (s + 1) = s * b + b := by ring
        omega
      have h1 : (s * b + q) / b = s + 1 := by
        rw [e, Nat.add_mul_div_left _ _ hpos, Nat.div_eq_of_lt (by omega)]; omega
      have h2 : (s * b + q) % b = q - b := by
        rw [e, Nat.add_mul_mod_self_left, Nat.mod_eq_of_lt (by omega)]
      rw [h1, h2, if_neg (by omega), Nat.add_sub_cancel]
      congr 1; omega
    · have hq2 : q = 2 * b := by omega
      have e : s * b + q = 0 + b * (s + 2) := by rw [hq2]; ring
      have h1 : (s * b + q) / b = s + 2 := by
        rw [e, Nat.add_mul_div_left _ _ hpos]; simp
      have h2 : (s * b + q) % b = 0 := by
        rw [e, Nat.add_mul_mod_self_left]; simp
      rw [h1, h2, if_neg (by omega), hq2, show s + 2 - 1 = s + 1 by omega, pow_succ]; ring

/-- Every encoding splits so, with room for its successor. -/
theorem Fmt.exists_split (f : Fmt) (mag : Nat) :
    ∃ s q, mag = s * 2 ^ f.fracBits + q ∧ q + 1 ≤ 2 ^ (f.fracBits + 1) ∧ (s = 0 ∨ 2 ^ f.fracBits ≤ q) := by
  obtain ⟨b, hb⟩ : ∃ b, b = 2 ^ f.fracBits := ⟨_, rfl⟩
  have hpos : 0 < b := hb ▸ Nat.two_pow_pos _
  rw [pow_succ, ← hb]
  have hm := Nat.mod_lt mag hpos
  have hd := Nat.div_add_mod mag b
  rcases Nat.eq_zero_or_pos (mag / b) with h | h
  · exact ⟨0, mag % b, by rw [h] at hd; omega, by omega, .inl rfl⟩
  · refine ⟨mag / b - 1, mag % b + b, ?_, by omega, .inr (by omega)⟩
    have : b * (mag / b) = (mag / b - 1) * b + b := by
      obtain ⟨e, he⟩ : ∃ e, mag / b = e + 1 := ⟨mag / b - 1, by omega⟩
      rw [he, Nat.add_sub_cancel]; ring
    omega

/-- A larger encoding has more units. -/
theorem Fmt.unitsOf_strictMono (f : Fmt) : StrictMono f.unitsOf := by
  refine strictMono_nat_of_lt_succ fun n => ?_
  obtain ⟨s, q, hn, hq, hs⟩ := f.exists_split n
  have h1 := f.unitsOf_split s q (by omega) hs
  have h2 := f.unitsOf_split s (q + 1) hq (by omega)
  rw [hn, h1, Nat.add_assoc, h2]
  exact Nat.mul_lt_mul_of_pos_right (Nat.lt_succ_self q) (Nat.two_pow_pos s)

@[simp] theorem Fmt.unitsOf_zero (f : Fmt) : f.unitsOf 0 = 0 := by
  simpa using f.unitsOf_split 0 0 (Nat.zero_le _) (.inl rfl)

/-! One rounding. -/

/-- The integer nearest to a fraction is its floor, or the one above when that is nearer, or as near and even. -/
theorem roundEven_eq (num den : Nat) :
    roundEven num den = if 2 * (num % den) > den ∨ (2 * (num % den) = den ∧ num / den % 2 = 1)
      then num / den + 1 else num / den := rfl

/-- What rounding `num / den` units does (R15): with `m` the greatest encoding not above the exact value, the result is
`m + 1` when the exact value lies above the midpoint of `m` and `m + 1`, or on it with `m` odd, and `m` otherwise; an
encoding at or above infinity's is infinity. -/
theorem Fmt.roundMag_spec (f : Fmt) (hf : 0 < f.fracBits) (num den : Nat) (hd : 0 < den) :
    ∃ m, f.unitsOf m * den ≤ num ∧ num < f.unitsOf (m + 1) * den ∧
      f.roundMag num den = min f.infMag
        (if (f.unitsOf m + f.unitsOf (m + 1)) * den < 2 * num ∨
            ((f.unitsOf m + f.unitsOf (m + 1)) * den = 2 * num ∧ m % 2 = 1) then m + 1 else m) := by
  obtain ⟨b, hb⟩ : ∃ b, b = 2 ^ f.fracBits := ⟨_, rfl⟩
  obtain ⟨s, hs⟩ : ∃ s, s = f.shiftOf num den := ⟨_, rfl⟩
  obtain ⟨c, hc⟩ : ∃ c, c = den * 2 ^ s := ⟨_, rfl⟩
  have hbpos : 0 < b := hb ▸ Nat.two_pow_pos _
  have hspos : 0 < 2 ^ s := Nat.two_pow_pos _
  have hcpos : 0 < c := hc ▸ Nat.mul_pos hd hspos
  obtain ⟨q, hq⟩ : ∃ q, q = num / c := ⟨_, rfl⟩
  obtain ⟨r, hr⟩ : ∃ r, r = num % c := ⟨_, rfl⟩
  have hdiv : c * q + r = num := by rw [hq, hr]; exact Nat.div_add_mod num c
  have hrlt : r < c := hr ▸ Nat.mod_lt _ hcpos
  have hqt : q = num / den / 2 ^ s := by rw [hq, hc, Nat.div_div_eq_div_mul]
  -- the significand's width
  have hwidth : q + 1 ≤ 2 ^ (f.fracBits + 1) := by
    rw [hqt]
    refine Nat.div_lt_of_lt_mul ?_
    rw [← pow_add]
    refine lt_of_lt_of_le (Nat.lt_log2_self (n := num / den)) (Nat.pow_le_pow_right (by norm_num) ?_)
    rw [hs, Fmt.shiftOf]; omega
  have hnorm : s = 0 ∨ 2 ^ f.fracBits ≤ q := by
    rcases Nat.eq_zero_or_pos s with h | h
    · exact .inl h
    · refine .inr ?_
      have hlog : Nat.log2 (num / den) = f.fracBits + s := by rw [Fmt.shiftOf] at hs; omega
      have hne : num / den ≠ 0 := by
        intro h0; rw [h0] at hlog; simp at hlog; omega
      rw [hqt, Nat.le_div_iff_mul_le hspos, ← pow_add, ← hlog]
      exact Nat.log2_self_le hne
  have u0 := f.unitsOf_split s q (by omega) hnorm
  have u1 := f.unitsOf_split s (q + 1) hwidth (by omega)
  have hmul : ∀ x, x * 2 ^ s * den = c * x := fun x => by rw [hc]; ring
  refine ⟨s * 2 ^ f.fracBits + q, ?_, ?_, ?_⟩
  · rw [u0, hmul]; omega
  · rw [Nat.add_assoc, u1, hmul, Nat.mul_add, Nat.mul_one]; omega
  · have hpar : (s * 2 ^ f.fracBits + q) % 2 = q % 2 := by
      obtain ⟨k, hk⟩ : ∃ k, f.fracBits = k + 1 := ⟨f.fracBits - 1, by omega⟩
      rw [hk, pow_succ, ← Nat.mul_assoc]; omega
    have hcond : (2 * r > c ∨ (2 * r = c ∧ q % 2 = 1)) ↔
        ((f.unitsOf (s * 2 ^ f.fracBits + q) + f.unitsOf (s * 2 ^ f.fracBits + q + 1)) * den < 2 * num ∨
          ((f.unitsOf (s * 2 ^ f.fracBits + q) + f.unitsOf (s * 2 ^ f.fracBits + q + 1)) * den = 2 * num ∧
            (s * 2 ^ f.fracBits + q) % 2 = 1)) := by
      have e : (f.unitsOf (s * 2 ^ f.fracBits + q) + f.unitsOf (s * 2 ^ f.fracBits + q + 1)) * den = 2 * (c * q) + c := by
        rw [Nat.add_assoc (s * 2 ^ f.fracBits), u0, u1, Nat.add_mul, hmul, hmul, Nat.mul_add]; omega
      rw [e, hpar]; omega
    rw [Fmt.roundMag, ← hs, ← hc, roundEven_eq, ← hq, ← hr]
    by_cases h : 2 * r > c ∨ (2 * r = c ∧ q % 2 = 1)
    · rw [if_pos h, if_pos (hcond.mp h), Nat.add_assoc]
    · rw [if_neg h, if_neg (fun h' => h (hcond.mpr h'))]

/-- Two encodings that bracket the same value from below, each with its successor above it, are the same. -/
theorem Fmt.floor_unique (f : Fmt) {m k : Nat} (h1 : f.unitsOf m < f.unitsOf (k + 1)) (h2 : f.unitsOf k < f.unitsOf (m + 1)) :
    m = k := by
  have a := f.unitsOf_strictMono.lt_iff_lt.mp h1
  have b := f.unitsOf_strictMono.lt_iff_lt.mp h2
  omega

/-- Rounding is exact on what the format represents. -/
theorem Fmt.roundMag_exact (f : Fmt) (hf : 0 < f.fracBits) (mag den : Nat) (hd : 0 < den) :
    f.roundMag (f.unitsOf mag * den) den = min f.infMag mag := by
  obtain ⟨m, h1, h2, h3⟩ := f.roundMag_spec hf (f.unitsOf mag * den) den hd
  have hm : m = mag := by
    have a := f.unitsOf_strictMono.le_iff_le.mp (Nat.le_of_mul_le_mul_right h1 hd)
    have b := f.unitsOf_strictMono.lt_iff_lt.mp (Nat.lt_of_mul_lt_mul_right h2)
    omega
  subst hm
  have hlt : f.unitsOf m < f.unitsOf (m + 1) := f.unitsOf_strictMono (Nat.lt_succ_self m)
  have hk : 2 * (f.unitsOf m * den) < (f.unitsOf m + f.unitsOf (m + 1)) * den := by
    have := Nat.mul_lt_mul_of_pos_right hlt hd
    rw [Nat.add_mul]; omega
  rw [h3, if_neg (by omega)]

/-- Rounding is monotone in the exact value. -/
theorem Fmt.roundMag_mono (f : Fmt) (hf : 0 < f.fracBits) {n d n' d' : Nat} (hd : 0 < d) (hd' : 0 < d')
    (h : n * d' ≤ n' * d) : f.roundMag n d ≤ f.roundMag n' d' := by
  obtain ⟨m, h1, h2, h3⟩ := f.roundMag_spec hf n d hd
  obtain ⟨k, k1, k2, k3⟩ := f.roundMag_spec hf n' d' hd'
  rw [h3, k3]
  refine min_le_min le_rfl ?_
  -- the floors are ordered
  have hmk : m < k + 1 := by
    refine f.unitsOf_strictMono.lt_iff_lt.mp ?_
    by_contra hcon
    push Not at hcon
    have a : f.unitsOf (k + 1) * d' * d ≤ n * d' := by
      calc f.unitsOf (k + 1) * d' * d ≤ f.unitsOf m * d' * d := by gcongr
        _ = f.unitsOf m * d * d' := by ring
        _ ≤ n * d' := by gcongr
    have b : n' * d < f.unitsOf (k + 1) * d' * d := Nat.mul_lt_mul_of_pos_right k2 hd
    omega
  rcases Nat.lt_or_ge m k with hlt | hge
  · split <;> split <;> omega
  · have hm : m = k := by omega
    subst hm
    have hmono : ∀ x, x * d < 2 * n → x * d' < 2 * n' := by
      intro x hx
      by_contra hcon
      push Not at hcon
      have a : 2 * n' * d ≤ x * d * d' := by
        calc 2 * n' * d ≤ x * d' * d := by gcongr
          _ = x * d * d' := by ring
      have b : x * d * d' < 2 * n * d' := Nat.mul_lt_mul_of_pos_right hx hd'
      nlinarith
    have hmono' : ∀ x, x * d = 2 * n → x * d' ≤ 2 * n' := by
      intro x hx
      by_contra hcon
      push Not at hcon
      have a : 2 * n' * d < x * d' * d := Nat.mul_lt_mul_of_pos_right hcon hd
      have b : x * d' * d = 2 * n * d' := by rw [mul_right_comm, hx]
      nlinarith
    split
    · rename_i hup
      rw [if_pos]
      rcases hup with hup | ⟨hup, hodd⟩
      · exact .inl (hmono _ hup)
      · rcases Nat.lt_or_eq_of_le (hmono' _ hup) with h4 | h4
        · exact .inl h4
        · exact .inr ⟨h4, hodd⟩
    · split <;> omega

/-- A rounded magnitude is at most infinity's. -/
theorem Fmt.roundMag_le_infMag (f : Fmt) (n d : Nat) : f.roundMag n d ≤ f.infMag := min_le_left _ _

end Sys2Proof.Machine
end

