-- ==== Sys2Proof/Laws/PerInstr.lean ====
section
/-! SUPPORT. One lemma per instruction: an encoding is as long as its command word says (R99). -/

namespace Sys2Proof.Laws.EncodeLength

/-- A well-formed instruction's words are as many as its command word asks for. -/
def Statement (i : Instr) : Prop := i.WellFormed → (encode i).length = packetLength (commandWord i)

theorem nop : Statement .nop := fun _ => by decide

theorem prepare (fs : F64) (maxBlock : Word) : Statement (.prepare fs maxBlock) := fun _ => by
  have h : packetLength (formatZ 1) = 4 := by decide
  simpa [commandWord, encode, operandWords] using h.symm

theorem setFreq (tgt : Target) (force : Bool) (f : F32) : Statement (.setFreq tgt force f) := fun _ => by
  simp [commandWord, encode, operandWords, packetLength, operandCount_formatF]

theorem reset : Statement .reset := fun _ => by decide

theorem setWave (wf : Wave) : Statement (.setWave wf) := fun _ => by
  simp [commandWord, encode, operandWords, packetLength, operandCount_formatW]

theorem process (nch : BitVec 12) (nfr : BitVec 16) (samples : List F32) : Statement (.process nch nfr samples) := by
  intro h
  have hl : samples.length = nch.toNat * nfr.toNat := by simpa [Instr.WellFormed, Instr.wellFormed] using h
  rw [packetLength, commandWord, operandCount_formatP, ← hl, encode, operandWords, List.length_cons, Nat.add_comm]

end Sys2Proof.Laws.EncodeLength
end

