-- ==== Sys2Proof/Laws/Run.lean ====
section
/-! SUPPORT. Runs: what each event can do, said once, and that no step reads the response words. -/

namespace Sys2Proof.Machine

/-! The register state, by each write that is none of a register. -/

@[simp] theorem State.setQueue_registers (s : State) (p : Port) (ws : List Word) :
    (s.setQueue p ws).registers = s.registers := by cases p <;> rfl
@[simp] theorem State.setGrants_registers (s : State) (ps : List Port) : (s.setGrants ps).registers = s.registers := rfl
@[simp] theorem State.spendIndex_registers (s : State) : s.spendIndex.registers = s.registers := rfl
@[simp] theorem State.emit_registers (s : State) (ws : List Word) : (s.emit ws).registers = s.registers := rfl
@[simp] theorem deliver_registers (s : State) (p : Port) (ws : List Word) : (deliver s p ws).registers = s.registers := by
  simp [deliver]
@[simp] theorem takeResponses_registers (s : State) : (takeResponses s).2.registers = s.registers := rfl
@[simp] theorem takeResponses_words (s : State) : (takeResponses s).1 = s.out := rfl
@[simp] theorem takeResponses_out (s : State) : (takeResponses s).2.out = [] := rfl
@[simp] theorem deliver_out (s : State) (p : Port) (ws : List Word) : (deliver s p ws).out = s.out := by cases p <;> rfl

/-! The response words. -/

/-- A state with words before its response words. -/
def State.before (ys : List Word) (s : State) : State := { s with out := ys ++ s.out }

/-- An outcome with words before the response words of its next state. -/
def resultBefore (ys : List Word) : Result → Result
  | .next s => .next (s.before ys)
  | .fault c => .fault c
  | .refused c => .refused c

theorem live_before (ys : List Word) (s : State) (r : Result) :
    live (s.before ys) (resultBefore ys r) = resultBefore ys (live s r) := by
  unfold live State.before
  split
  · rfl
  · split <;> rfl

/-- No instruction reads the response words: those that were there stay in front. -/
theorem exec_before (ys : List Word) (i : Instr) (s : State) : exec i (s.before ys) = resultBefore ys (exec i s) := by
  cases i with
  | nop => exact live_before ys s (.next s)
  | reset => exact live_before ys s (.next (s.setOsc (s.osc.map fun _ o => o.clearPhase)))
  | setWave w => exact live_before ys s (.next (s.setPend w))
  | prepare fs mb =>
    refine Eq.trans (congrArg (live (s.before ys)) ?_) (live_before ys s _)
    show (if !rateOK fs then raise .badRate (s.before ys)
      else if !(s.osc.sine.prepareOK fs && s.osc.tri.prepareOK fs) then raise .badInc (s.before ys) else _) = _
    split
    · rfl
    · split <;> rfl
  | setFreq tgt force f =>
    refine Eq.trans (congrArg (live (s.before ys)) ?_) (live_before ys s _)
    show (if !freqOK f then raise .badFreq (s.before ys)
      else if force then if s.prepared && !incOK (incOf f s.fs) then raise .badInc (s.before ys) else _ else _) = _
    split
    · rfl
    · split
      · split <;> rfl
      · rfl
  | process nch nfr xs =>
    refine Eq.trans (congrArg (live (s.before ys)) ?_) (live_before ys s _)
    show (if !s.prepared then raise .notPrepared (s.before ys)
      else if emptyBlock nch nfr then .next (s.before ys)
      else if !adoptFreqOK s then raise .badInc (s.before ys) else _) = _
    split
    · rfl
    · split
      · rfl
      · split
        · rfl
        · rw [applyFrames_adopted, applyFrames_adopted]
          simp only [resultBefore, State.before, List.append_assoc]

/-- What is fetched, with words before the response words of its state. -/
def fetchedBefore (ys : List Word) : Fetched → Fetched
  | .idle => .idle
  | .cutShort => .cutShort
  | .bad c s => .bad c (s.before ys)
  | .run i s => .run i (s.before ys)

@[simp] theorem setQueue_before (ys : List Word) (s : State) (p : Port) (ws : List Word) :
    (s.before ys).setQueue p ws = (s.setQueue p ws).before ys := by cases p <;> rfl

@[simp] theorem queue_before (ys : List Word) (s : State) (p : Port) : (s.before ys).queue p = s.queue p := by cases p <;> rfl

theorem arbitrate_before (ys : List Word) (s : State) :
    arbitrate (s.before ys) = (arbitrate s).map fun r => (r.1, r.2.before ys) := by
  obtain ⟨_, _, _, _, _, _, _, _, _, portA, portC, grants, _, _⟩ := s
  cases portA <;> cases portC <;> cases grants <;> rfl

theorem fetch_before (ys : List Word) (s : State) : fetch (s.before ys) = fetchedBefore ys (fetch s) := by
  rw [fetch, fetch, arbitrate_before]
  cases arbitrate s with
  | none => rfl
  | some r =>
    obtain ⟨p, s1⟩ := r
    simp only [Option.map_some, queue_before, setQueue_before]
    cases decode p (s1.queue p) <;> rfl

/-- No step reads the response words. -/
theorem step_before (ys : List Word) (s : State) : step (s.before ys) = resultBefore ys (step s) := by
  rw [step, step, ← live_before, fetch_before]
  cases fetch s with
  | run i s1 => exact congrArg (live (s.before ys)) (exec_before ys i s1)
  | _ => rfl

/-- Every response word of a next state stands after those that were there. -/
theorem step_out {s t : State} (h : step s = .next t) : ∃ ys, t.out = s.out ++ ys := by
  have e := step_before s.out { s with out := [] }
  have hs : State.before s.out { s with out := [] } = s := by simp [State.before]
  rw [hs, h] at e
  cases hr : step { s with out := [] } with
  | next u =>
    rw [hr] at e
    exact ⟨u.out, by rw [next_inj.mp e]; rfl⟩
  | fault c => rw [hr] at e; cases e
  | refused c => rw [hr] at e; cases e

/-! Events. -/

/-- Everything an event that a run goes on after can have done. -/
theorem event_cases {r t : Run} {e : Event} (h : r.event e = .next t) :
    (∃ port words, e = .deliver port words ∧ t = { r with state := deliver r.state port words }) ∨
      (∃ ports, e = .interleave ports ∧ t = { r with state := r.state.setGrants (r.state.grants ++ ports) }) ∨
      (e = .take ∧ t = ⟨(takeResponses r.state).2, r.taken ++ r.state.out⟩) ∨
      (e = .apply ∧ ∃ s, step r.state = .next s ∧ t = { r with state := s }) := by
  cases e with
  | deliver port words => injection h with h; exact .inl ⟨port, words, rfl, h.symm⟩
  | interleave ports => injection h with h; exact .inr (.inl ⟨ports, rfl, h.symm⟩)
  | take => injection h with h; exact .inr (.inr (.inl ⟨rfl, h.symm⟩))
  | apply =>
    simp only [Run.event] at h
    cases hs : step r.state with
    | next s => rw [hs] at h; injection h with h; exact .inr (.inr (.inr ⟨rfl, s, rfl, h.symm⟩))
    | fault c => rw [hs] at h; cases h
    | refused c => rw [hs] at h; cases h

/-- A run goes on after some events exactly when it does after the first and then after the others. -/
theorem events_cons {r t : Run} {e : Event} {es : List Event} :
    r.events (e :: es) = .next t ↔ ∃ u, r.event e = .next u ∧ u.events es = .next t := by
  simp only [Run.events]
  cases r.event e <;> simp

/-- A packet applied in a run. -/
theorem event_apply {r : Run} {s : State} (h : step r.state = .next s) : r.event .apply = .next { r with state := s } := by
  simp only [Run.event, h, Run.after]

end Sys2Proof.Machine
end

