-- ==== Sys2Proof/Laws/Signed.lean ====
section
/-! SUPPORT. Signed rounding: the order of encodings, and what each arithmetic operation does to it. Every lemma about an
operation says that the result's key, which orders encodings, is the exact result rounded. -/

namespace Sys2Proof.Machine

/-- The signed units of an encoding. -/
def Fmt.signed (f : Fmt) (bits : Nat) : Int :=
  if f.neg bits then -(f.unitsOf (f.mag bits) : Int) else f.unitsOf (f.mag bits)

/-- A signed exact value, `n / d` units, rounded to the key of an encoding. -/
def Fmt.roundSigned (f : Fmt) (n : Int) (d : Nat) : Int :=
  if n < 0 then -(f.roundMag n.natAbs d : Int) else f.roundMag n.natAbs d

theorem Fmt.key_eq (f : Fmt) (bits : Nat) : f.key bits = if f.neg bits then -(f.mag bits : Int) else f.mag bits := rfl

/-- Signed magnitudes are ordered as their images under a strictly monotone function that keeps zero. -/
theorem signed_le_iff (g : Nat → Nat) (hg : StrictMono g) (h0 : g 0 = 0) (s t : Bool) (a b : Nat) :
    ((if s then -(a : Int) else a) ≤ if t then -(b : Int) else b) ↔
      ((if s then -(g a : Int) else g a) ≤ if t then -(g b : Int) else g b) := by
  have le := hg.le_iff_le (a := a) (b := b)
  have ge := hg.le_iff_le (a := b) (b := a)
  have pa : g a = 0 ↔ a = 0 := ⟨fun h => by
    by_contra hne
    have := hg (Nat.pos_of_ne_zero hne)
    omega, fun h => by rw [h, h0]⟩
  have pb : g b = 0 ↔ b = 0 := ⟨fun h => by
    by_contra hne
    have := hg (Nat.pos_of_ne_zero hne)
    omega, fun h => by rw [h, h0]⟩
  cases s <;> cases t <;> simp only [Bool.false_eq_true, if_false, if_true] <;> omega

/-- Keys are ordered as the values they stand for. -/
theorem Fmt.key_le_iff (f : Fmt) (a b : Nat) : f.key a ≤ f.key b ↔ f.signed a ≤ f.signed b :=
  signed_le_iff f.unitsOf f.unitsOf_strictMono f.unitsOf_zero _ _ _ _

theorem Fmt.key_lt_iff (f : Fmt) (a b : Nat) : f.key a < f.key b ↔ f.signed a < f.signed b := by
  rw [← not_le, ← not_le, f.key_le_iff]

theorem Fmt.key_eq_iff (f : Fmt) (a b : Nat) : f.key a = f.key b ↔ f.signed a = f.signed b := by
  rw [le_antisymm_iff, le_antisymm_iff, f.key_le_iff, f.key_le_iff]

theorem Fmt.roundMag_zero (f : Fmt) (hf : 0 < f.fracBits) (d : Nat) (hd : 0 < d) : f.roundMag 0 d = 0 := by
  simpa using f.roundMag_exact hf 0 d hd

/-- Signed rounding is monotone in the exact value. -/
theorem Fmt.roundSigned_mono (f : Fmt) (hf : 0 < f.fracBits) {n n' : Int} {d d' : Nat} (hd : 0 < d) (hd' : 0 < d')
    (h : n * d' ≤ n' * d) : f.roundSigned n d ≤ f.roundSigned n' d' := by
  have hdZ : (0 : Int) < d := by exact_mod_cast hd
  have hdZ' : (0 : Int) < d' := by exact_mod_cast hd'
  unfold Fmt.roundSigned
  by_cases h1 : n < 0 <;> by_cases h2 : n' < 0
  · rw [if_pos h1, if_pos h2, neg_le_neg_iff]
    have : f.roundMag n'.natAbs d' ≤ f.roundMag n.natAbs d := by
      refine f.roundMag_mono hf hd' hd ?_
      have e1 : (n.natAbs : Int) = -n := by omega
      have e2 : (n'.natAbs : Int) = -n' := by omega
      have : (n'.natAbs : Int) * d ≤ n.natAbs * d' := by rw [e1, e2]; nlinarith
      exact_mod_cast this
    exact_mod_cast this
  · rw [if_pos h1, if_neg h2]
    have : (0 : Int) ≤ f.roundMag n'.natAbs d' := by positivity
    omega
  · exfalso
    have : n' * d < 0 := mul_neg_of_neg_of_pos h2 hdZ
    have : 0 ≤ n * d' := mul_nonneg (by omega) hdZ'.le
    omega
  · rw [if_neg h1, if_neg h2]
    have : f.roundMag n.natAbs d ≤ f.roundMag n'.natAbs d' := by
      refine f.roundMag_mono hf hd hd' ?_
      have e1 : (n.natAbs : Int) = n := by omega
      have e2 : (n'.natAbs : Int) = n' := by omega
      have : (n.natAbs : Int) * d' ≤ n'.natAbs * d := by rw [e1, e2]; exact h
      exact_mod_cast this
    exact_mod_cast this

/-- Signed rounding is exact on what the format represents. -/
theorem Fmt.roundSigned_exact (f : Fmt) (hf : 0 < f.fracBits) (bits d : Nat) (hd : 0 < d)
    (hfin : f.mag bits ≤ f.infMag) : f.roundSigned (f.signed bits * d) d = f.key bits := by
  have hdZ : (0 : Int) < d := by exact_mod_cast hd
  have habs : (f.signed bits * d).natAbs = f.unitsOf (f.mag bits) * d := by
    rw [Int.natAbs_mul, Int.natAbs_natCast]
    congr 1
    unfold Fmt.signed
    split <;> omega
  have hr : f.roundMag (f.signed bits * d).natAbs d = f.mag bits := by
    rw [habs, f.roundMag_exact hf _ _ hd, min_eq_right hfin]
  unfold Fmt.roundSigned
  rw [hr, f.key_eq]
  by_cases h0 : f.mag bits = 0
  · rw [h0]; split <;> split <;> simp
  · have hpos : 0 < f.unitsOf (f.mag bits) := by
      have := f.unitsOf_strictMono (Nat.pos_of_ne_zero h0)
      rw [f.unitsOf_zero] at this
      exact this
    unfold Fmt.signed
    by_cases hn : f.neg bits = true
    · rw [if_pos hn, if_pos hn, if_pos]
      have : (0 : Int) < f.unitsOf (f.mag bits) := by exact_mod_cast hpos
      nlinarith
    · rw [if_neg hn, if_neg hn, if_neg]
      push Not
      positivity

theorem Fmt.roundSigned_neg (f : Fmt) (hf : 0 < f.fracBits) (n : Int) (d : Nat) (hd : 0 < d) :
    f.roundSigned (-n) d = -f.roundSigned n d := by
  unfold Fmt.roundSigned
  rw [Int.natAbs_neg]
  rcases lt_trichotomy n 0 with h | h | h
  · rw [if_neg (by omega), if_pos h, neg_neg]
  · subst h; simp [f.roundMag_zero hf d hd]
  · rw [if_pos (by omega), if_neg (by omega)]

theorem Fmt.roundSigned_natAbs (f : Fmt) (n : Int) (d : Nat) : (f.roundSigned n d).natAbs = f.roundMag n.natAbs d := by
  unfold Fmt.roundSigned
  split <;> omega

/-! Encodings put together. -/

/-- An encoding put together from a sign and a magnitude that leaves the sign bit free. -/
theorem Fmt.mag_signOf_add (f : Fmt) (s : Bool) (m : Nat) (h : m < f.signWeight) : f.mag (f.signOf s + m) = m := by
  unfold Fmt.mag Fmt.signOf
  cases s
  · simp [Nat.mod_eq_of_lt h]
  · simp [Nat.mod_eq_of_lt h]

theorem Fmt.neg_signOf_add (f : Fmt) (s : Bool) (m : Nat) (h : m < f.signWeight) : f.neg (f.signOf s + m) = s := by
  have hp : 0 < f.signWeight := by omega
  unfold Fmt.neg Fmt.signOf
  cases s
  · simp [Nat.div_eq_of_lt h]
  · have : (f.signWeight + m) / f.signWeight = 1 := by
      rw [Nat.add_comm, Nat.add_div_right _ hp, Nat.div_eq_of_lt h]
    simp [this]

theorem Fmt.key_signOf_add (f : Fmt) (s : Bool) (m : Nat) (h : m < f.signWeight) :
    f.key (f.signOf s + m) = if s then -(m : Int) else m := by
  rw [f.key_eq, f.mag_signOf_add s m h, f.neg_signOf_add s m h]

/-- A rounded fraction with its sign, as a key. -/
theorem Fmt.key_round_ratio (f : Fmt) (hf : 0 < f.fracBits) (hw : f.infMag < f.signWeight) (s : Bool) (n d : Nat) (hd : 0 < d) :
    f.key (f.signOf s + f.roundMag n d) = f.roundSigned (if s then -(n : Int) else n) d := by
  rw [f.key_signOf_add s _ (lt_of_le_of_lt (f.roundMag_le_infMag n d) hw)]
  cases s
  · simp [Fmt.roundSigned]
  · rw [if_pos rfl, if_pos rfl, f.roundSigned_neg hf _ _ hd]
    simp [Fmt.roundSigned]

theorem Fmt.mag_le_of_round_ratio (f : Fmt) (hw : f.infMag < f.signWeight) (s : Bool) (n d : Nat) :
    f.mag (f.signOf s + f.roundMag n d) ≤ f.infMag := by
  rw [f.mag_signOf_add s _ (lt_of_le_of_lt (f.roundMag_le_infMag n d) hw)]
  exact f.roundMag_le_infMag n d

/-! binary32 and binary64. -/

theorem b32_signWeight : b32.signWeight = 2 ^ 31 := rfl
theorem b64_signWeight : b64.signWeight = 2 ^ 63 := rfl
theorem b32_infMag : b32.infMag = 0x7F800000 := rfl
theorem b64_infMag : b64.infMag = 0x7FF0000000000000 := rfl
theorem b32_frac : 0 < b32.fracBits := by decide
theorem b64_frac : 0 < b64.fracBits := by decide
theorem b32_inf_lt : b32.infMag < b32.signWeight := by decide
theorem b64_inf_lt : b64.infMag < b64.signWeight := by decide
theorem b32_unitExp : b32.unitExp = 149 := rfl
theorem b64_unitExp : b64.unitExp = 1074 := rfl

/-- The key of a binary32 value: the integer that orders it (R15). -/
def key32 (a : F32) : Int := b32.key a.toNat

/-- The signed units of a binary32 value: its exact value times `2^149` where it is finite. -/
def units32 (a : F32) : Int := b32.signed a.toNat

/-- The key of a binary64 value. -/
def key64 (a : F64) : Int := b64.key a.toNat

/-- The signed units of a binary64 value. -/
def units64 (a : F64) : Int := b64.signed a.toNat

theorem le32_iff (a b : F32) : le32 a b = true ↔ isNaN32 a = false ∧ isNaN32 b = false ∧ key32 a ≤ key32 b := by
  simp [le32, Fmt.le, isNaN32, key32, and_assoc]

theorem lt32_iff (a b : F32) : lt32 a b = true ↔ isNaN32 a = false ∧ isNaN32 b = false ∧ key32 a < key32 b := by
  simp [lt32, Fmt.lt, isNaN32, key32, and_assoc]

theorem lt64_iff (a b : F64) :
    lt64 a b = true ↔ b64.isNaN a.toNat = false ∧ b64.isNaN b.toNat = false ∧ key64 a < key64 b := by
  simp [lt64, Fmt.lt, key64, and_assoc]

theorem isFinite32_iff (a : F32) : isFinite32 a = true ↔ b32.mag a.toNat < b32.infMag := by
  simp [isFinite32, Fmt.isFinite]

theorem isFinite64_iff (a : F64) : isFinite64 a = true ↔ b64.mag a.toNat < b64.infMag := by
  simp [isFinite64, Fmt.isFinite]

theorem isNaN32_iff (a : F32) : isNaN32 a = true ↔ b32.infMag < b32.mag a.toNat := by
  simp [isNaN32, Fmt.isNaN]

theorem isNaN32_false_iff (a : F32) : isNaN32 a = false ↔ b32.mag a.toNat ≤ b32.infMag := by
  simp [isNaN32, Fmt.isNaN]

theorem isNaN32_of_isFinite32 {a : F32} (h : isFinite32 a = true) : isNaN32 a = false := by
  rw [isFinite32_iff] at h
  rw [isNaN32_false_iff]
  exact h.le

/-- Keys order finite values as their exact values do. -/
theorem key32_le_iff (a b : F32) : key32 a ≤ key32 b ↔ units32 a ≤ units32 b := b32.key_le_iff _ _

theorem key32_lt_iff (a b : F32) : key32 a < key32 b ↔ units32 a < units32 b := b32.key_lt_iff _ _

theorem key64_lt_iff (a b : F64) : key64 a < key64 b ↔ units64 a < units64 b := b64.key_lt_iff _ _

/-- The key's magnitude is the encoding's. -/
theorem key32_natAbs (a : F32) : (key32 a).natAbs = b32.mag a.toNat := by
  unfold key32; rw [b32.key_eq]; split <;> omega

theorem key64_natAbs (a : F64) : (key64 a).natAbs = b64.mag a.toNat := by
  unfold key64; rw [b64.key_eq]; split <;> omega

theorem units32_natAbs (a : F32) : (units32 a).natAbs = b32.unitsOf (b32.mag a.toNat) := by
  unfold units32 Fmt.signed; split <;> omega

theorem isFinite32_iff_key (a : F32) : isFinite32 a = true ↔ (key32 a).natAbs < b32.infMag := by
  rw [key32_natAbs, isFinite32_iff]

theorem isNaN32_false_iff_key (a : F32) : isNaN32 a = false ↔ (key32 a).natAbs ≤ b32.infMag := by
  rw [key32_natAbs, isNaN32_false_iff]

/-- A finite value rounds to itself. -/
theorem roundSigned_units32 (a : F32) (h : isNaN32 a = false) (d : Nat) (hd : 0 < d) :
    b32.roundSigned (units32 a * d) d = key32 a :=
  b32.roundSigned_exact b32_frac _ _ hd ((isNaN32_false_iff a).mp h)

theorem unpack32_of_finite {a : F32} (h : isFinite32 a = true) :
    b32.unpack a.toNat = .fin (b32.neg a.toNat) (b32.unitsOf (b32.mag a.toNat)) := by
  rw [isFinite32_iff] at h
  rw [Fmt.unpack, if_pos h]

theorem unpack64_of_finite {a : F64} (h : isFinite64 a = true) :
    b64.unpack a.toNat = .fin (b64.neg a.toNat) (b64.unitsOf (b64.mag a.toNat)) := by
  rw [isFinite64_iff] at h
  rw [Fmt.unpack, if_pos h]

theorem signOf_add_lt (s : Bool) (n d : Nat) : b32.signOf s + b32.roundMag n d < 2 ^ 32 := by
  have h := b32.roundMag_le_infMag n d
  rw [b32_infMag] at h
  unfold Fmt.signOf
  rw [b32_signWeight]
  split <;> omega

theorem signOf_add_lt64 (s : Bool) (n d : Nat) : b64.signOf s + b64.roundMag n d < 2 ^ 64 := by
  have h := b64.roundMag_le_infMag n d
  rw [b64_infMag] at h
  unfold Fmt.signOf
  rw [b64_signWeight]
  split <;> omega

/-- What a binary32 operation whose exact result is a fraction yields. -/
theorem fill32_ratio (op : FloatOp) (x y : Nat) (s : Bool) (n d : Nat) (hd : 0 < d) :
    key32 (fill32 op x y (b32.round (.ratio s n d))) = b32.roundSigned (if s then -(n : Int) else n) d ∧
      isNaN32 (fill32 op x y (b32.round (.ratio s n d))) = false := by
  have h : (BitVec.ofNat 32 (b32.signOf s + b32.roundMag n d)).toNat = b32.signOf s + b32.roundMag n d := by
    rw [BitVec.toNat_ofNat, Nat.mod_eq_of_lt (signOf_add_lt s n d)]
  constructor
  · rw [Fmt.round, fill32, key32, h, b32.key_round_ratio b32_frac b32_inf_lt s n d hd]
  · rw [Fmt.round, fill32, isNaN32_false_iff, h]
    exact b32.mag_le_of_round_ratio b32_inf_lt s n d

/-- What a binary64 operation whose exact result is a fraction yields. -/
theorem fill64_ratio (op : FloatOp) (x y : Nat) (s : Bool) (n d : Nat) (hd : 0 < d) :
    key64 (fill64 op x y (b64.round (.ratio s n d))) = b64.roundSigned (if s then -(n : Int) else n) d ∧
      b64.isNaN (fill64 op x y (b64.round (.ratio s n d))).toNat = false := by
  have h : (BitVec.ofNat 64 (b64.signOf s + b64.roundMag n d)).toNat = b64.signOf s + b64.roundMag n d := by
    rw [BitVec.toNat_ofNat, Nat.mod_eq_of_lt (signOf_add_lt64 s n d)]
  constructor
  · rw [Fmt.round, fill64, key64, h, b64.key_round_ratio b64_frac b64_inf_lt s n d hd]
  · rw [Fmt.round, fill64, Fmt.isNaN, h]
    have := b64.mag_le_of_round_ratio b64_inf_lt s n d
    simp only [decide_eq_false_iff_not]
    omega

/-- The exact sum of two finite numbers is a fraction of their signed units. -/
theorem addExact_fin (s t : Bool) (a b : Nat) :
    ∃ u n, addExact (.fin s a) (.fin t b) = .ratio u n 1 ∧
      (if u then -(n : Int) else n) = (if s then -(a : Int) else a) + (if t then -(b : Int) else b) := by
  simp only [addExact]
  by_cases h : s = t
  · rw [if_pos h]; subst h
    refine ⟨s, a + b, rfl, ?_⟩
    cases s <;> simp; omega
  · rw [if_neg h]
    have ht : t = !s := by cases s <;> cases t <;> simp_all
    subst ht
    by_cases h1 : a = b
    · rw [if_pos h1]; subst h1
      exact ⟨false, 0, rfl, by cases s <;> simp⟩
    · rw [if_neg h1]
      by_cases h2 : b < a
      · rw [if_pos h2]
        exact ⟨s, a - b, rfl, by cases s <;> simp <;> omega⟩
      · rw [if_neg h2]
        exact ⟨!s, b - a, rfl, by cases s <;> simp <;> omega⟩

/-- `+32` of finite values: the exact sum, rounded once (R15). -/
theorem add32_key {a b : F32} (ha : isFinite32 a = true) (hb : isFinite32 b = true) :
    key32 (add32 a b) = b32.roundSigned (units32 a + units32 b) 1 ∧ isNaN32 (add32 a b) = false := by
  obtain ⟨u, n, h1, h2⟩ := addExact_fin (b32.neg a.toNat) (b32.neg b.toNat) (b32.unitsOf (b32.mag a.toNat))
    (b32.unitsOf (b32.mag b.toNat))
  have h := fill32_ratio .add a.toNat b.toNat u n 1 (by norm_num)
  rw [h2] at h
  rw [add32, unpack32_of_finite ha, unpack32_of_finite hb, h1]
  exact h

/-- Flipping bit 31 moves a number across `2^31`. -/
theorem xor_signBit (x : Nat) (h : x < 2 ^ 32) :
    x ^^^ 2 ^ 31 = if x < 2 ^ 31 then x + 2 ^ 31 else x - 2 ^ 31 := by
  have flip : ∀ c, c < 2 ^ 31 → (2 ^ 31 + c) ^^^ 2 ^ 31 = c := by
    intro c hc
    have e := Nat.two_pow_add_eq_or_of_lt hc 1
    rw [Nat.mul_one] at e
    rw [e]
    apply Nat.eq_of_testBit_eq
    intro j
    rw [Nat.testBit_xor, Nat.testBit_or, Nat.testBit_two_pow]
    by_cases hj : 31 = j
    · subst hj; simp [Nat.testBit_lt_two_pow hc]
    · simp [hj]
  split
  · rename_i hlt
    have e := flip x hlt
    rw [← e, Nat.xor_assoc, Nat.xor_self, Nat.xor_zero, e, Nat.add_comm]
  · have e := flip (x - 2 ^ 31) (by omega)
    rw [Nat.add_sub_cancel' (by omega)] at e
    exact e

/-- The encoding of a negation. -/
theorem neg32_toNat (a : F32) : (neg32 a).toNat = if a.toNat < 2 ^ 31 then a.toNat + 2 ^ 31 else a.toNat - 2 ^ 31 := by
  rw [neg32, BitVec.toNat_xor]
  exact xor_signBit a.toNat a.isLt

theorem neg32_mag (a : F32) : b32.mag (neg32 a).toNat = b32.mag a.toNat := by
  have hlt := a.isLt
  rw [neg32_toNat, Fmt.mag, Fmt.mag, b32_signWeight]
  split <;> omega

theorem neg32_neg (a : F32) : b32.neg (neg32 a).toNat = !b32.neg a.toNat := by
  have hlt := a.isLt
  rw [neg32_toNat, Fmt.neg, Fmt.neg, b32_signWeight]
  split
  · have h1 : (a.toNat + 2 ^ 31) / 2 ^ 31 % 2 = 1 := by omega
    have h2 : a.toNat / 2 ^ 31 % 2 = 0 := by omega
    rw [h1, h2]; rfl
  · have h1 : (a.toNat - 2 ^ 31) / 2 ^ 31 % 2 = 0 := by omega
    have h2 : a.toNat / 2 ^ 31 % 2 = 1 := by omega
    rw [h1, h2]; rfl

@[simp] theorem key32_neg32 (a : F32) : key32 (neg32 a) = -key32 a := by
  rw [key32, key32, b32.key_eq, b32.key_eq, neg32_mag, neg32_neg]
  cases b32.neg a.toNat <;> simp

@[simp] theorem units32_neg32 (a : F32) : units32 (neg32 a) = -units32 a := by
  rw [units32, units32, Fmt.signed, Fmt.signed, neg32_mag, neg32_neg]
  cases b32.neg a.toNat <;> simp

@[simp] theorem isFinite32_neg32 (a : F32) : isFinite32 (neg32 a) = isFinite32 a := by
  rw [isFinite32, isFinite32, Fmt.isFinite, Fmt.isFinite, neg32_mag]

@[simp] theorem isNaN32_neg32 (a : F32) : isNaN32 (neg32 a) = isNaN32 a := by
  rw [isNaN32, isNaN32, Fmt.isNaN, Fmt.isNaN, neg32_mag]

/-- `-32` of finite values: the exact difference, rounded once (R15). -/
theorem sub32_key {a b : F32} (ha : isFinite32 a = true) (hb : isFinite32 b = true) :
    key32 (sub32 a b) = b32.roundSigned (units32 a - units32 b) 1 ∧ isNaN32 (sub32 a b) = false := by
  have h := add32_key ha (b := neg32 b) (by rw [isFinite32_neg32, hb])
  rw [units32_neg32, ← Int.sub_eq_add_neg] at h
  exact h

theorem signed_mul (s t : Bool) (a b : Nat) :
    (if (s != t) = true then -((a * b : Nat) : Int) else ((a * b : Nat) : Int)) =
      (if s then -(a : Int) else a) * (if t then -(b : Int) else b) := by
  cases s <;> cases t <;> simp

/-- `*32` of finite values: the exact product, rounded once (R15). -/
theorem mul32_key {a b : F32} (ha : isFinite32 a = true) (hb : isFinite32 b = true) :
    key32 (mul32 a b) = b32.roundSigned (units32 a * units32 b) (2 ^ 149) ∧ isNaN32 (mul32 a b) = false := by
  have h := fill32_ratio .mul a.toNat b.toNat (b32.neg a.toNat != b32.neg b.toNat)
    (b32.unitsOf (b32.mag a.toNat) * b32.unitsOf (b32.mag b.toNat)) (2 ^ b32.unitExp) (Nat.two_pow_pos _)
  rw [signed_mul] at h
  rw [mul32, unpack32_of_finite ha, unpack32_of_finite hb, Fmt.mulExact]
  exact h

/-- `/32` of finite values, by a positive one: the exact quotient, rounded once (R15). -/
theorem div32_key {a b : F32} (ha : isFinite32 a = true) (hb : isFinite32 b = true) (hpos : 0 < units32 b) :
    key32 (div32 a b) = b32.roundSigned (units32 a * 2 ^ 149) (units32 b).natAbs ∧ isNaN32 (div32 a b) = false := by
  have hneg : b32.neg b.toNat = false := by
    cases hn : b32.neg b.toNat
    · rfl
    · rw [units32, Fmt.signed, hn] at hpos; simp at hpos
      omega
  have hne : b32.unitsOf (b32.mag b.toNat) ≠ 0 := by
    rw [← units32_natAbs]; omega
  have h := fill32_ratio .div a.toNat b.toNat (b32.neg a.toNat != b32.neg b.toNat)
    (b32.unitsOf (b32.mag a.toNat) * 2 ^ b32.unitExp) (b32.unitsOf (b32.mag b.toNat)) (by omega)
  rw [div32, unpack32_of_finite ha, unpack32_of_finite hb, Fmt.divExact]
  simp only [if_neg hne]
  rw [units32_natAbs]
  refine ⟨?_, h.2⟩
  rw [h.1, hneg, units32, Fmt.signed, b32_unitExp]
  cases b32.neg a.toNat <;> simp

/-! `abs`. -/

theorem abs32_toNat (a : F32) : (abs32 a).toNat = a.toNat % 2 ^ 31 := by
  have h : (0x7FFFFFFF#32 : F32).toNat = 2 ^ 31 - 1 := by decide
  rw [abs32, BitVec.toNat_and, h, Nat.and_two_pow_sub_one_eq_mod]

theorem abs32_mag (a : F32) : b32.mag (abs32 a).toNat = b32.mag a.toNat := by
  rw [Fmt.mag, Fmt.mag, b32_signWeight, abs32_toNat, Nat.mod_mod]

theorem abs32_neg (a : F32) : b32.neg (abs32 a).toNat = false := by
  rw [Fmt.neg, b32_signWeight, abs32_toNat, beq_eq_false_iff_ne]
  omega

@[simp] theorem key32_abs32 (a : F32) : key32 (abs32 a) = (key32 a).natAbs := by
  rw [key32_natAbs, key32, b32.key_eq, abs32_mag, abs32_neg, if_neg (by simp)]

@[simp] theorem units32_abs32 (a : F32) : units32 (abs32 a) = (units32 a).natAbs := by
  rw [units32_natAbs, units32, Fmt.signed, abs32_mag, abs32_neg, if_neg (by simp)]

@[simp] theorem isFinite32_abs32 (a : F32) : isFinite32 (abs32 a) = isFinite32 a := by
  rw [isFinite32, isFinite32, Fmt.isFinite, Fmt.isFinite, abs32_mag]

@[simp] theorem isNaN32_abs32 (a : F32) : isNaN32 (abs32 a) = isNaN32 a := by
  rw [isNaN32, isNaN32, Fmt.isNaN, Fmt.isNaN, abs32_mag]

/-! The binary64 operations of `IncOf` (R111). The powers of two are written as the units of the formats are. -/

theorem key64_le_iff (a b : F64) : key64 a ≤ key64 b ↔ units64 a ≤ units64 b := b64.key_le_iff _ _

/-- `f64` of a finite value (R15). -/
theorem widen_key {a : F32} (ha : isFinite32 a = true) :
    key64 (widen a) = b64.roundSigned (units32 a * ((2 ^ (b64.unitExp - b32.unitExp) : ℕ) : ℤ)) 1 ∧
      b64.isNaN (widen a).toNat = false := by
  have h := fill64_ratio .widen a.toNat 0 (b32.neg a.toNat)
    (b32.unitsOf (b32.mag a.toNat) * 2 ^ (b64.unitExp - b32.unitExp)) 1 one_pos
  rw [widen, unpack32_of_finite ha, widenExact]
  refine ⟨?_, h.2⟩
  rw [h.1, units32, Fmt.signed]
  generalize (2 ^ (b64.unitExp - b32.unitExp) : ℕ) = n
  cases b32.neg a.toNat <;> simp

/-- `*64` of finite values: the exact product, rounded once (R15). -/
theorem mul64_key {a b : F64} (ha : isFinite64 a = true) (hb : isFinite64 b = true) :
    key64 (mul64 a b) = b64.roundSigned (units64 a * units64 b) (2 ^ b64.unitExp) ∧ b64.isNaN (mul64 a b).toNat = false := by
  have h := fill64_ratio .mul a.toNat b.toNat (b64.neg a.toNat != b64.neg b.toNat)
    (b64.unitsOf (b64.mag a.toNat) * b64.unitsOf (b64.mag b.toNat)) (2 ^ b64.unitExp) (Nat.two_pow_pos _)
  rw [signed_mul] at h
  rw [mul64, unpack64_of_finite ha, unpack64_of_finite hb, Fmt.mulExact]
  exact h

/-- `/64` of finite values, by a positive one: the exact quotient, rounded once (R15). -/
theorem div64_key {a b : F64} (ha : isFinite64 a = true) (hb : isFinite64 b = true) (hpos : 0 < units64 b) :
    key64 (div64 a b) = b64.roundSigned (units64 a * ((2 ^ b64.unitExp : ℕ) : ℤ)) (units64 b).natAbs ∧
      b64.isNaN (div64 a b).toNat = false := by
  have hneg : b64.neg b.toNat = false := by
    cases hn : b64.neg b.toNat
    · rfl
    · rw [units64, Fmt.signed, hn, if_pos rfl] at hpos
      omega
  have hu : units64 b = b64.unitsOf (b64.mag b.toNat) := by rw [units64, Fmt.signed, hneg, if_neg (by simp)]
  have hne : b64.unitsOf (b64.mag b.toNat) ≠ 0 := by omega
  have h := fill64_ratio .div a.toNat b.toNat (b64.neg a.toNat != b64.neg b.toNat)
    (b64.unitsOf (b64.mag a.toNat) * 2 ^ b64.unitExp) (b64.unitsOf (b64.mag b.toNat)) (by omega)
  rw [div64, unpack64_of_finite ha, unpack64_of_finite hb, Fmt.divExact]
  simp only [if_neg hne]
  refine ⟨?_, h.2⟩
  rw [h.1, hneg, hu, Int.natAbs_natCast, units64, Fmt.signed]
  generalize (2 ^ b64.unitExp : ℕ) = n
  cases b64.neg a.toNat <;> simp

/-- `fl32` of a finite binary64 value (R15). -/
theorem narrow_key {a : F64} (ha : isFinite64 a = true) :
    key32 (narrow a) = b32.roundSigned (units64 a) (2 ^ (b64.unitExp - b32.unitExp)) ∧ isNaN32 (narrow a) = false := by
  have h := fill32_ratio .narrow a.toNat 0 (b64.neg a.toNat) (b64.unitsOf (b64.mag a.toNat))
    (2 ^ (b64.unitExp - b32.unitExp)) (Nat.two_pow_pos _)
  rw [narrow, unpack64_of_finite ha, narrowExact]
  exact h

/-- The exact value of a finite encoding, by its units. -/
theorem value32_eq {a : F32} (h : isFinite32 a = true) : value32 a = (units32 a : ℚ) / 2 ^ 149 := by
  rw [value32, unpack32_of_finite h, units32, Fmt.signed, b32_unitExp]
  cases b32.neg a.toNat <;> simp

/-- Every free NaN is a NaN. -/
theorem isNaN32_nanOf32 (x : Word) : isNaN32 (nanOf32 x) = true := by
  rw [isNaN32_iff, b32_infMag, Fmt.mag, b32_signWeight]
  have h0 : (0x7F800000 : Nat) < (nanOf32 x).toNat % 2 ^ 31 ↔ 0x7F800000#32 < (nanOf32 x &&& 0x7FFFFFFF#32) := by
    have h : (0x7FFFFFFF#32 : F32).toNat = 2 ^ 31 - 1 := by decide
    rw [BitVec.lt_def, BitVec.toNat_and, h, Nat.and_two_pow_sub_one_eq_mod]; rfl
  rw [h0]
  unfold nanOf32
  by_cases h : (x ||| 0x7F800000#32) &&& 0x007FFFFF#32 = 0#32
  · simp only [h, if_true]
    have hx : (x ||| 0x7F800000#32 ||| 1#32) &&& 0x7FFFFFFF#32 = 0x7F800001#32 := by
      have hb : ∀ i : Nat, i < 32 → ((x ||| 0x7F800000#32) &&& 0x007FFFFF#32).getLsbD i = false := by
        intro i hi; rw [h]; simp
      apply BitVec.eq_of_getLsbD_eq
      intro i hi
      have h1 := hb i hi
      simp only [BitVec.getLsbD_or, BitVec.getLsbD_and] at h1 ⊢
      interval_cases i <;> simp_all
    rw [hx]; decide
  · simp only [h, if_false]
    have hx : (x ||| 0x7F800000#32) &&& 0x7FFFFFFF#32 = 0x7F800000#32 ||| ((x ||| 0x7F800000#32) &&& 0x007FFFFF#32) := by
      apply BitVec.eq_of_getLsbD_eq
      intro i hi
      simp only [BitVec.getLsbD_or, BitVec.getLsbD_and]
      interval_cases i <;> simp
    rw [hx, BitVec.lt_def, BitVec.toNat_or]
    generalize hy : (x ||| 0x7F800000#32) &&& 0x007FFFFF#32 = y at *
    have hy2 : y.toNat < 2 ^ 23 := by
      rw [← hy, BitVec.toNat_and]; exact Nat.and_lt_two_pow _ (by decide)
    have hy3 : y.toNat ≠ 0 := fun h' => h (BitVec.eq_of_toNat_eq (by simpa using h'))
    have h4 : (0x7F800000#32 : F32).toNat = 255 <<< 23 := by decide
    rw [h4, ← Nat.shiftLeft_add_eq_or_of_lt hy2]
    omega

end Sys2Proof.Machine
end

