-- ==== Sys2Proof/Laws/Sine.lean ====
section
/-! SUPPORT. The computed cosine and sine are within their stated error of the real ones. -/

namespace Sys2Proof.Machine

open Finset

/-- The nested partial sum of the exponential series that `expNested` follows, exactly. -/
noncomputable def expPart (x : ℂ) : Nat → Nat → ℂ
  | 0, _ => 1
  | n + 1, j => 1 + x / j * expPart x n (j + 1)

theorem expPart_eq_sum (x : ℂ) (n j : Nat) :
    expPart x n (j + 1) = ∑ m ∈ range (n + 1), x ^ m / ((j + 1).ascFactorial m : ℂ) := by
  induction n generalizing j with
  | zero => simp [expPart]
  | succ n ih =>
    rw [expPart, ih (j + 1), sum_range_succ' _ (n + 1), add_comm, mul_sum]
    congr 1
    · refine sum_congr rfl fun m _ => ?_
      have h : ((j + 1).ascFactorial (m + 1) : ℂ) = ((j + 1 : ℕ) : ℂ) * ((j + 1 + 1).ascFactorial m : ℂ) := by
        have := Nat.succ_ascFactorial (j + 1) m
        rw [Nat.ascFactorial_succ]
        exact_mod_cast this.symm
      rw [h, pow_succ]
      have h1 : ((j + 1 : ℕ) : ℂ) ≠ 0 := by exact_mod_cast Nat.succ_ne_zero j
      have h2 : ((j + 1 + 1).ascFactorial m : ℂ) ≠ 0 := by
        exact_mod_cast (Nat.ascFactorial_pos _ _).ne'
      field_simp
    · simp

/-- Started at 1, the nested sum is the partial sum of the exponential series. -/
theorem expPart_one (x : ℂ) (n : Nat) : expPart x n 1 = ∑ m ∈ range (n + 1), x ^ m / (m.factorial : ℂ) := by
  rw [show (1 : ℕ) = 0 + 1 from rfl, expPart_eq_sum]
  simp [Nat.one_ascFactorial]

/-- The scale as a real. -/
@[irreducible] noncomputable def sinOne : ℝ := 2 ^ sinScale

theorem sinOne_eq : sinOne = 2 ^ sinScale := by unfold sinOne; rfl

theorem sinOne_pos : 0 < sinOne := by rw [sinOne_eq]; positivity

/-- An integer quotient of reals at the scale is at most one below the exact quotient. -/
theorem floor_div_near (a b : Int) (hb : 0 < b) : |((a / b : Int) : ℝ) - (a : ℝ) / b| ≤ 1 := by
  have hbR : (0 : ℝ) < b := by exact_mod_cast hb
  have h1 : ((a / b : Int) : ℝ) ≤ (a : ℝ) / b := by
    rw [le_div_iff₀ hbR]
    exact_mod_cast Int.ediv_mul_le a hb.ne'
  have h2 : (a : ℝ) / b < ((a / b : Int) : ℝ) + 1 := by
    rw [div_lt_iff₀ hbR]
    exact_mod_cast Int.lt_ediv_add_one_mul_self a hb
  rw [abs_le]
  constructor <;> linarith

/-- The fixed-point nested sum is within two units of the exact one. -/
theorem expNested_near (t : Nat) (ht : (t : ℝ) ≤ sinOne / 16) (n j : Nat) (hj : 0 < j) :
    |((expNested t n j).1 : ℝ) - sinOne * (expPart (Complex.I * ((t : ℝ) / sinOne : ℝ)) n j).re| ≤ 2 ∧
      |((expNested t n j).2 : ℝ) - sinOne * (expPart (Complex.I * ((t : ℝ) / sinOne : ℝ)) n j).im| ≤ 2 := by
  have hS := sinOne_pos
  induction n generalizing j with
  | zero => simp [expNested, expPart, sinOne_eq]
  | succ n ih =>
    obtain ⟨ih1, ih2⟩ := ih (j + 1) (by omega)
    have hjR : (1 : ℝ) ≤ j := by exact_mod_cast hj
    have hjR0 : (0 : ℝ) < j := by linarith
    have hden : (0 : Int) < 2 ^ sinScale * (j : Int) := by positivity
    have ht0 : (0 : ℝ) ≤ t := by positivity
    obtain ⟨q, hq⟩ : ∃ q : ℝ, q = (t : ℝ) / (sinOne * j) := ⟨_, rfl⟩
    have hq0 : 0 ≤ q := by rw [hq]; positivity
    have hq1 : q ≤ 1 / 16 := by
      rw [hq, div_le_iff₀ (by positivity)]
      clear hden ih ih1 ih2
      nlinarith
    have hre : (expPart (Complex.I * ((t : ℝ) / sinOne : ℝ)) (n + 1) j).re =
        1 - q * (expPart (Complex.I * ((t : ℝ) / sinOne : ℝ)) n (j + 1)).im := by
      rw [expPart, hq]
      have : Complex.I * (((t : ℝ) / sinOne : ℝ) : ℂ) / (j : ℂ) = Complex.I * ((((t : ℝ) / (sinOne * j)) : ℝ) : ℂ) := by
        push_cast; field_simp
      rw [this, mul_assoc, Complex.add_re, Complex.one_re, Complex.I_mul_re, Complex.im_ofReal_mul]
      ring
    have him : (expPart (Complex.I * ((t : ℝ) / sinOne : ℝ)) (n + 1) j).im =
        q * (expPart (Complex.I * ((t : ℝ) / sinOne : ℝ)) n (j + 1)).re := by
      rw [expPart, hq]
      have : Complex.I * (((t : ℝ) / sinOne : ℝ) : ℂ) / (j : ℂ) = Complex.I * ((((t : ℝ) / (sinOne * j)) : ℝ) : ℂ) := by
        push_cast; field_simp
      rw [this, mul_assoc, Complex.add_im, Complex.one_im, Complex.I_mul_im, Complex.re_ofReal_mul]
      ring
    have step : ∀ (v : Int) (y : ℝ), |(v : ℝ) - sinOne * y| ≤ 2 →
        |(((t : Int) * v / (2 ^ sinScale * (j : Int)) : Int) : ℝ) - sinOne * (q * y)| ≤ 2 := by
      intro v y hv
      have h := floor_div_near ((t : Int) * v) (2 ^ sinScale * (j : Int)) hden
      have e : ((((t : Int) * v : Int)) : ℝ) / ((2 ^ sinScale * (j : Int) : Int) : ℝ) = q * v := by
        rw [hq]; push_cast; rw [← sinOne_eq]; field_simp
      rw [e] at h
      have h3 : |q * v - sinOne * (q * y)| ≤ 1 / 16 * 2 := by
        rw [show q * v - sinOne * (q * y) = q * (v - sinOne * y) by ring, abs_mul, abs_of_nonneg hq0]
        exact mul_le_mul hq1 hv (abs_nonneg _) (by norm_num)
      have := abs_sub_le (((t : Int) * v / (2 ^ sinScale * (j : Int)) : Int) : ℝ) (q * v) (sinOne * (q * y))
      linarith
    constructor
    · have h := step _ _ ih2
      rw [hre]
      simp only [expNested]
      rw [Int.cast_sub, Int.cast_pow, Int.cast_ofNat, ← sinOne_eq]
      rw [show ∀ a b : ℝ, sinOne - a - sinOne * (1 - b) = -(a - sinOne * b) by intros; ring, abs_neg]
      exact h
    · have h := step _ _ ih1
      rw [him]
      simp only [expNested]
      exact h

/-- The exponential of a small imaginary number is near the partial sum of `sinTerms` terms. -/
theorem expPart_near (y : ℝ) (h0 : 0 ≤ y) (h : y ≤ 1 / 16) :
    ‖Complex.exp (Complex.I * (y : ℂ)) - expPart (Complex.I * (y : ℂ)) sinTerms 1‖ ≤ 1 / 2 ^ 512 := by
  have hn : ‖Complex.I * (y : ℂ)‖ = y := by
    rw [norm_mul, Complex.norm_I, one_mul, Complex.norm_real, Real.norm_of_nonneg h0]
  have hb := Complex.exp_bound (x := Complex.I * (y : ℂ)) (by rw [hn]; linarith) (n := sinTerms + 1) (by simp)
  rw [expPart_one]
  refine hb.trans ?_
  rw [hn]
  have h1 : y ^ (sinTerms + 1) ≤ (1 / 16) ^ (sinTerms + 1) := pow_le_pow_left₀ h0 h _
  have h2 : (((sinTerms + 1).succ : ℝ) * (((sinTerms + 1).factorial : ℝ) * ((sinTerms + 1 : ℕ) : ℝ))⁻¹) ≤ 1 / 2 ^ 270 := by
    have hfac : (2 : ℕ) ^ 271 ≤ (sinTerms + 1).factorial := by decide +kernel
    have hfacR : (2 : ℝ) ^ 271 ≤ ((sinTerms + 1).factorial : ℝ) := by exact_mod_cast hfac
    have e1 : (((sinTerms + 1).succ : ℕ) : ℝ) = 62 := by norm_num [sinTerms]
    have e2 : ((sinTerms + 1 : ℕ) : ℝ) = 61 := by norm_num [sinTerms]
    rw [e1, e2, ← div_eq_mul_inv, div_le_div_iff₀ (by positivity) (by positivity)]
    obtain ⟨c, hc⟩ : ∃ c : ℝ, c = 2 ^ 270 := ⟨_, rfl⟩
    have hc0 : 0 < c := by rw [hc]; positivity
    rw [pow_succ, ← hc] at hfacR
    rw [← hc]
    generalize ((sinTerms + 1).factorial : ℝ) = x at hfacR ⊢
    clear hb h1 hfac e1 e2 hc
    linarith
  calc y ^ (sinTerms + 1) * (((sinTerms + 1).succ : ℝ) * (((sinTerms + 1).factorial : ℝ) * ((sinTerms + 1 : ℕ) : ℝ))⁻¹)
      ≤ (1 / 16) ^ (sinTerms + 1) * (1 / 2 ^ 270) := by gcongr
    _ ≤ 1 / 2 ^ 512 := by
      rw [show (1 / 16 : ℝ) = 1 / 2 ^ 4 by norm_num, div_pow, one_pow, ← pow_mul, one_div_mul_one_div, ← pow_add]
      exact one_div_le_one_div_of_le (by positivity) (pow_le_pow_right₀ (by norm_num) (by norm_num [sinTerms]))

/-- The computed cosine and sine of a small angle. -/
theorem expNested_sound (t : Nat) (ht : (t : ℝ) ≤ sinOne / 16) :
    |((expNested t sinTerms 1).1 : ℝ) - sinOne * Real.cos (t / sinOne)| ≤ sinError 0 ∧
      |((expNested t sinTerms 1).2 : ℝ) - sinOne * Real.sin (t / sinOne)| ≤ sinError 0 := by
  have hS := sinOne_pos
  have hy0 : 0 ≤ (t : ℝ) / sinOne := by positivity
  have hy1 : (t : ℝ) / sinOne ≤ 1 / 16 := by
    rw [div_le_iff₀ hS]; linarith
  have hp := expPart_near _ hy0 hy1
  obtain ⟨n1, n2⟩ := expNested_near t ht sinTerms 1 (by norm_num)
  have scale : sinOne * (1 / 2 ^ 512) = 1 := by
    rw [sinOne_eq, show sinScale = 512 from rfl]
    exact mul_one_div_cancel (by positivity)
  have e8 : ((sinError 0 : ℕ) : ℝ) = 8 := by norm_num [sinError]
  have hre := (Complex.abs_re_le_norm _).trans hp
  have him := (Complex.abs_im_le_norm _).trans hp
  rw [Complex.sub_re, mul_comm, Complex.exp_ofReal_mul_I_re, mul_comm] at hre
  rw [Complex.sub_im, mul_comm, Complex.exp_ofReal_mul_I_im, mul_comm] at him
  have comb : ∀ a c p : ℝ, |a - sinOne * p| ≤ 2 → |c - p| ≤ 1 / 2 ^ 512 → |a - sinOne * c| ≤ 8 := by
    intro a c p h1 h2
    have h3 : |sinOne * p - sinOne * c| ≤ 1 := by
      rw [← mul_sub, abs_mul, abs_of_pos hS, abs_sub_comm]
      calc sinOne * |c - p| ≤ sinOne * (1 / 2 ^ 512) := by gcongr
        _ = 1 := scale
    have := abs_sub_le a (sinOne * p) (sinOne * c)
    linarith
  rw [e8]
  exact ⟨comb _ _ _ n1 hre, comb _ _ _ n2 him⟩

/-- One doubling multiplies the error by at most five and adds one unit. -/
theorem doubleAngle_step (c s : Int) (θ e : ℝ) (he0 : 0 ≤ e) (he : e ≤ sinOne / 2)
    (hc : |(c : ℝ) - sinOne * Real.cos θ| ≤ e) (hs : |(s : ℝ) - sinOne * Real.sin θ| ≤ e) :
    |(((c * c - s * s) / 2 ^ sinScale : Int) : ℝ) - sinOne * Real.cos (2 * θ)| ≤ 5 * e + 1 ∧
      |((2 * c * s / 2 ^ sinScale : Int) : ℝ) - sinOne * Real.sin (2 * θ)| ≤ 5 * e + 1 := by
  have hS := sinOne_pos
  obtain ⟨a, ha⟩ : ∃ a, a = (c : ℝ) - sinOne * Real.cos θ := ⟨_, rfl⟩
  obtain ⟨b, hb⟩ : ∃ b, b = (s : ℝ) - sinOne * Real.sin θ := ⟨_, rfl⟩
  rw [← ha] at hc
  rw [← hb] at hs
  have hcE : (c : ℝ) = sinOne * Real.cos θ + a := by linarith
  have hsE : (s : ℝ) = sinOne * Real.sin θ + b := by linarith
  have hcos := Real.abs_cos_le_one θ
  have hsin := Real.abs_sin_le_one θ
  have hab : e * e ≤ sinOne / 2 * e := mul_le_mul_of_nonneg_right he he0
  have bound : ∀ x y z w : ℝ, |x| ≤ 1 → |y| ≤ 1 → |z| ≤ e → |w| ≤ e →
      |2 * sinOne * (x * z) + 2 * sinOne * (y * w)| ≤ 4 * (sinOne * e) := by
    intro x y z w hx hy hz hw
    have h1 : |x * z| ≤ e := by rw [abs_mul]; nlinarith [abs_nonneg x, abs_nonneg z]
    have h2 : |y * w| ≤ e := by rw [abs_mul]; nlinarith [abs_nonneg y, abs_nonneg w]
    rw [abs_le] at h1 h2 ⊢
    constructor <;> nlinarith
  have small : ∀ z w : ℝ, |z| ≤ e → |w| ≤ e → |2 * (z * w)| ≤ sinOne * e ∧ |z * z - w * w| ≤ sinOne * e := by
    intro z w hz hw
    rw [abs_le] at hz hw
    constructor <;> rw [abs_le] <;> constructor <;> nlinarith [mul_self_nonneg (z - w), mul_self_nonneg (z + w), mul_self_nonneg z, mul_self_nonneg w]
  have hden : (0 : Int) < 2 ^ sinScale := by positivity
  have hcast : (((2 ^ sinScale : Int)) : ℝ) = sinOne := by rw [sinOne_eq]; push_cast; rfl
  have finish : ∀ (n : Int) (y : ℝ), |(n : ℝ) - sinOne * (sinOne * y)| ≤ 5 * (sinOne * e) →
      |((n / 2 ^ sinScale : Int) : ℝ) - sinOne * y| ≤ 5 * e + 1 := by
    intro n y hn
    have h1 := floor_div_near n (2 ^ sinScale) hden
    rw [hcast] at h1
    have h2 : |(n : ℝ) / sinOne - sinOne * y| ≤ 5 * e := by
      have : (n : ℝ) / sinOne - sinOne * y = (n - sinOne * (sinOne * y)) / sinOne := by field_simp
      rw [this, abs_div, abs_of_pos hS, div_le_iff₀ hS]
      linarith
    have := abs_sub_le ((n / 2 ^ sinScale : Int) : ℝ) ((n : ℝ) / sinOne) (sinOne * y)
    linarith
  constructor
  · apply finish
    push_cast
    rw [hcE, hsE, Real.cos_two_mul']
    have e1 : (sinOne * Real.cos θ + a) * (sinOne * Real.cos θ + a) - (sinOne * Real.sin θ + b) * (sinOne * Real.sin θ + b) -
        sinOne * (sinOne * (Real.cos θ ^ 2 - Real.sin θ ^ 2)) =
        (2 * sinOne * (Real.cos θ * a) + 2 * sinOne * (-Real.sin θ * b)) + (a * a - b * b) := by ring
    rw [e1]
    have h1 := bound (Real.cos θ) (-Real.sin θ) a b hcos (by rw [abs_neg]; exact hsin) hc hs
    have h2 := (small a b hc hs).2
    have := abs_add_le (2 * sinOne * (Real.cos θ * a) + 2 * sinOne * (-Real.sin θ * b)) (a * a - b * b)
    linarith
  · apply finish
    push_cast
    rw [hcE, hsE, Real.sin_two_mul]
    have e1 : 2 * (sinOne * Real.cos θ + a) * (sinOne * Real.sin θ + b) - sinOne * (sinOne * (2 * Real.sin θ * Real.cos θ)) =
        (2 * sinOne * (Real.cos θ * b) + 2 * sinOne * (Real.sin θ * a)) + 2 * (a * b) := by ring
    rw [e1]
    have h1 := bound (Real.cos θ) (Real.sin θ) b a hcos hsin hs hc
    have h2 := (small a b hc hs).1
    have := abs_add_le (2 * sinOne * (Real.cos θ * b) + 2 * sinOne * (Real.sin θ * a)) (2 * (a * b))
    linarith

theorem sinError_pos (k : Nat) : 0 ≤ ((sinError k : ℕ) : ℝ) := by positivity

theorem sinError_mono {a b : Nat} (h : a ≤ b) : sinError a ≤ sinError b :=
  monotone_nat_of_le_succ (fun n => by rw [sinError]; omega) h

/-- Doubling `k` times. -/
theorem doubleAngle_sound (z : Int × Int) (θ : ℝ) (k : Nat) (hk : ((sinError k : ℕ) : ℝ) ≤ sinOne / 2)
    (h1 : |(z.1 : ℝ) - sinOne * Real.cos θ| ≤ sinError 0) (h2 : |(z.2 : ℝ) - sinOne * Real.sin θ| ≤ sinError 0) :
    |((doubleAngle k z).1 : ℝ) - sinOne * Real.cos (2 ^ k * θ)| ≤ sinError k ∧
      |((doubleAngle k z).2 : ℝ) - sinOne * Real.sin (2 ^ k * θ)| ≤ sinError k := by
  induction k with
  | zero => simpa [doubleAngle] using ⟨h1, h2⟩
  | succ k ih =>
    have hle : ((sinError k : ℕ) : ℝ) ≤ ((sinError (k + 1) : ℕ) : ℝ) := by
      exact_mod_cast sinError_mono (Nat.le_succ k)
    obtain ⟨i1, i2⟩ := ih (hle.trans hk)
    have h := doubleAngle_step _ _ _ _ (sinError_pos k) (hle.trans hk) i1 i2
    have e : ((sinError (k + 1) : ℕ) : ℝ) = 5 * ((sinError k : ℕ) : ℝ) + 1 := by rw [sinError]; push_cast; ring
    rw [e, pow_succ, mul_comm (2 ^ k) 2, mul_assoc]
    exact h

theorem log2_lt_of_lt {n k : Nat} (hk : 0 < k) (h : n < 2 ^ k) : Nat.log2 n < k := by
  rcases Nat.eq_zero_or_pos n with h0 | h0
  · subst h0; simpa using hk
  · exact (Nat.log2_lt h0.ne').mpr h

/-- The computed cosine and sine of a number of units, within the stated error. -/
theorem cosSin_sound (units : Nat) (h : units < 2 ^ 277) :
    |((cosSin units).1 : ℝ) - sinOne * Real.cos (units / 2 ^ 149)| ≤ sinError (sinHalvings units) ∧
      |((cosSin units).2 : ℝ) - sinOne * Real.sin (units / 2 ^ 149)| ≤ sinError (sinHalvings units) := by
  obtain ⟨k, hk⟩ : ∃ k, k = sinHalvings units := ⟨_, rfl⟩
  have hk' : k = Nat.log2 units + 5 - 149 := hk
  have hlog : Nat.log2 units < 277 := log2_lt_of_lt (by norm_num) h
  have hk132 : k ≤ 132 := by omega
  obtain ⟨t, ht⟩ : ∃ t, t = units * 2 ^ (sinScale - b32.unitExp - k) := ⟨_, rfl⟩
  have hexp : sinScale - b32.unitExp - k = 363 - k := by
    have : sinScale - b32.unitExp = 363 := rfl
    rw [this]
  have htR : (t : ℝ) * 2 ^ (149 + k) = units * sinOne := by
    rw [ht, hexp, sinOne_eq, show sinScale = (363 - k) + (149 + k) by rw [show sinScale = 512 from rfl]; omega, pow_add]
    push_cast
    ring
  have hangle : (2 : ℝ) ^ k * (t / sinOne) = units / 2 ^ 149 := by
    have hS := sinOne_pos
    rw [pow_add] at htR
    field_simp
    linarith
  have hsmall : (t : ℝ) ≤ sinOne / 16 := by
    have hlt : units < 2 ^ (149 + k - 4) :=
      lt_of_lt_of_le (Nat.lt_log2_self (n := units)) (Nat.pow_le_pow_right (by norm_num) (by omega))
    have hltR : (units : ℝ) < 2 ^ (149 + k - 4) := by exact_mod_cast hlt
    have hp : (2 : ℝ) ^ (149 + k) = 16 * 2 ^ (149 + k - 4) := by
      rw [show (16 : ℝ) = 2 ^ 4 by norm_num, ← pow_add]; congr 1; omega
    have hpos : (0 : ℝ) < 2 ^ (149 + k - 4) := by positivity
    rw [hp] at htR
    generalize (2 : ℝ) ^ (149 + k - 4) = x at htR hltR hpos
    have hS := sinOne_pos
    rw [le_div_iff₀ (by norm_num)]
    refine le_of_mul_le_mul_right ?_ hpos
    calc (t : ℝ) * 16 * x = units * sinOne := by rw [← htR]; ring
      _ ≤ x * sinOne := mul_le_mul_of_nonneg_right hltR.le hS.le
      _ = sinOne * x := mul_comm _ _
  obtain ⟨n1, n2⟩ := expNested_sound t hsmall
  have herr : ((sinError k : ℕ) : ℝ) ≤ sinOne / 2 := by
    have h1 : sinError k ≤ sinError 132 := sinError_mono hk132
    have h2 : sinError 132 ≤ 2 ^ 511 := by decide +kernel
    have h3 : ((sinError k : ℕ) : ℝ) ≤ 2 ^ 511 := by exact_mod_cast h1.trans h2
    have h4 : sinOne / 2 = 2 ^ 511 := by
      rw [sinOne_eq, show sinScale = 511 + 1 from rfl, pow_succ, mul_div_assoc, div_self (by norm_num), mul_one]
    rw [h4]; exact h3
  have hd := doubleAngle_sound _ _ k herr n1 n2
  rw [hangle] at hd
  rw [cosSin, ← hk, ← ht]
  exact hd

end Sys2Proof.Machine
end

