-- ==== Sys2Proof/Machine/Assembler.lean ====
section
/-! DEFINITION. The assembler of R101 and its pseudo-instructions (R102): a text to the packets it spells, and those
packets put on the ports in the text's order. It may spell packets that the decoder rejects, as `SET_WAVE #2` does [12]. -/

namespace Sys2Proof.Machine

/-! Characters. -/

/-- The pieces of a text between the characters `c`. -/
def splitChar (c : Char) : List Char → List (List Char)
  | [] => [[]]
  | x :: xs =>
    match splitChar c xs with
    | [] => [[x]]
    | p :: ps => if x = c then [] :: p :: ps else (x :: p) :: ps

/-- A text without the blanks at its ends. -/
def trimBlanks (cs : List Char) : List Char :=
  ((cs.dropWhile (· = ' ')).reverse.dropWhile (· = ' ')).reverse

/-- The value of a digit: its place among the digits of its base. -/
def digitIn (digits : String) (c : Char) : Option Nat := digits.toList.idxOf? c

/-- The value of a decimal digit. -/
def decDigit : Char → Option Nat := digitIn "0123456789"

/-- The value of a hexadecimal digit, in capitals as R101's patterns have them, or in small letters. -/
def hexDigit (c : Char) : Option Nat := (digitIn "0123456789ABCDEF" c).or (digitIn "0123456789abcdef" c)

/-- The number a list of digits spells. -/
def digitsValue (base : Nat) (digit : Char → Option Nat) (cs : List Char) : Option Nat :=
  (cs.mapM digit).map fun ds => ds.foldl (fun n d => base * n + d) 0

/-- A decimal natural number. -/
def decNat (cs : List Char) : Option Nat := if cs = [] then none else digitsValue 10 decDigit cs

/-- A raw bit pattern of exactly `n` hexadecimal digits after `0x`. -/
def rawBits (n : Nat) : List Char → Option Nat
  | '0' :: 'x' :: cs => if cs.length = n then digitsValue 16 hexDigit cs else none
  | _ => none

/-- A decimal mantissa: its digits as a natural number, and how many stand after the point. -/
def decMantissa (cs : List Char) : Option (Nat × Nat) :=
  match splitChar '.' cs with
  | [a] => (decNat a).map fun n => (n, 0)
  | [a, b] => (decNat (a ++ b)).map fun n => (n, b.length)
  | _ => none

/-- A decimal exponent: a power of ten, and the power of ten it is divided by. -/
def decExponent : List Char → Option (Nat × Nat)
  | '-' :: cs => (decNat cs).map fun n => (0, n)
  | cs => (decNat cs).map fun n => (n, 0)

/-- An unsigned decimal number as a fraction. -/
def decFraction (cs : List Char) : Option (Nat × Nat) :=
  match splitChar 'e' cs with
  | [m] => (decMantissa m).map fun r => (r.1, 10 ^ r.2)
  | [m, e] =>
    match decMantissa m, decExponent e with
    | some r, some x => some (r.1 * 10 ^ x.1, 10 ^ (r.2 + x.2))
    | _, _ => none
  | _ => none

/-- The encoding, in a format, of a decimal number (`fl32` or `fl64` of its value) or of a raw bit pattern (R101). -/
def number (f : Fmt) (cs : List Char) : Option Nat :=
  match rawBits ((1 + f.expBits + f.fracBits) / 4) cs with
  | some n => some n
  | none =>
    match cs with
    | '-' :: ds => (decFraction ds).map fun r => f.signWeight + f.roundMag (r.1 * 2 ^ f.unitExp) r.2
    | ds => (decFraction ds).map fun r => f.roundMag (r.1 * 2 ^ f.unitExp) r.2

/-- A binary32 operand. -/
def number32 (cs : List Char) : Option F32 := (number b32 cs).map (BitVec.ofNat 32)

/-- A binary64 operand. -/
def number64 (cs : List Char) : Option F64 := (number b64 cs).map (BitVec.ofNat 64)

/-- An unsigned integer operand below `bound`. -/
def natBelow (bound : Nat) (cs : List Char) : Option Nat :=
  match (rawBits 8 cs).or (decNat cs) with
  | some n => if n < bound then some n else none
  | none => none

/-- A target operand (R101). -/
def targetOperand (cs : List Char) : Option Target :=
  if cs = "SINE".toList then some .sine
  else if cs = "TRI".toList then some .tri
  else if cs = "BOTH".toList then some .both
  else none

/-- A waveform operand: a name, or a raw code of 0 to 3 (R101). -/
def waveOperand (cs : List Char) : Option (BitVec 2) :=
  if cs = "SINE".toList then some (waveCode .sine)
  else if cs = "TRI".toList then some (waveCode .tri)
  else match cs with
    | '#' :: ds => (natBelow 4 ds).map (BitVec.ofNat 2)
    | _ => none

/-- One element of a sample list: a number, or a number and its count in `s x n` (R101). -/
def sampleElement (cs : List Char) : Option (List F32) :=
  match (splitChar ' ' (trimBlanks cs)).filter (· ≠ []) with
  | [s] => (number32 s).map fun x => [x]
  | [s, x, n] =>
    if x = ['x'] then
      match number32 s, decNat n with
      | some v, some k => some (List.replicate k v)
      | _, _ => none
    else none
  | _ => none

/-- The elements of a sample list, in order. -/
def sampleElements : List (List Char) → Option (List F32)
  | [] => some []
  | e :: es =>
    match sampleElement e, sampleElements es with
    | some xs, some ys => some (xs ++ ys)
    | _, _ => none

/-- The text between a `[` and the `]` that ends a line. -/
def bracketed (cs : List Char) : Option (List Char) :=
  match trimBlanks cs with
  | '[' :: ds =>
    match ds.reverse with
    | ']' :: es => some es.reverse
    | _ => none
  | _ => none

/-- A sample list (R101). -/
def sampleList (cs : List Char) : Option (List F32) :=
  match bracketed cs with
  | some ds => if trimBlanks ds = [] then some [] else sampleElements (splitChar ',' ds)
  | none => none

/-! Lines. -/

/-- A line's mnemonic and the text after it. -/
def splitMnemonic (cs : List Char) : List Char × List Char :=
  (cs.takeWhile (· ≠ ' '), trimBlanks (cs.dropWhile (· ≠ ' ')))

/-- The comma-separated operands of a line. -/
def operandTexts (cs : List Char) : List (List Char) := if cs = [] then [] else (splitChar ',' cs).map trimBlanks

/-- The packet of a SET_FREQ line. -/
def asmSetFreq (force : Bool) : List (List Char) → Option (List Word)
  | [t, f] =>
    match targetOperand t, number32 f with
    | some tgt, some x => some (encode (.setFreq tgt force x))
    | _, _ => none
  | _ => none

/-- The packet of a PREPARE line. -/
def asmPrepare : List (List Char) → Option (List Word)
  | [r, m] =>
    match number64 r, natBelow (2 ^ 32) m with
    | some fs, some mb => some (encode (.prepare fs (BitVec.ofNat 32 mb)))
    | _, _ => none
  | _ => none

/-- The packet of a PROCESS line: the number of samples must be the one its counts ask for. -/
def asmProcess (cs : List Char) : Option (List Word) :=
  match splitChar ',' cs with
  | c :: k :: rest =>
    match natBelow 4096 (trimBlanks c), natBelow 65536 (trimBlanks k), sampleList (List.intercalate [','] rest) with
    | some nch, some nfr, some xs =>
      if xs.length = nch * nfr then some (encode (.process (BitVec.ofNat 12 nch) (BitVec.ofNat 16 nfr) xs)) else none
    | _, _, _ => none
  | _ => none

/-- The packets of a mnemonic and its operand text (R101, R102). -/
def asmPackets (mnemonic operands : List Char) : Option (List (List Word)) :=
  let ops := operandTexts operands
  if mnemonic = "NOP".toList then (if ops = [] then some [encode .nop] else none)
  else if mnemonic = "PREPARE".toList then (asmPrepare ops).map fun p => [p]
  else if mnemonic = "SET_FREQ.I".toList ∨ mnemonic = "SETF".toList then (asmSetFreq true ops).map fun p => [p]
  else if mnemonic = "SET_FREQ.D".toList then (asmSetFreq false ops).map fun p => [p]
  else if mnemonic = "RESET".toList then (if ops = [] then some [encode .reset] else none)
  else if mnemonic = "SET_WAVE".toList then
    match ops with
    | [w] => (waveOperand w).map fun c => [[formatW c]]
    | _ => none
  else if mnemonic = "PROCESS".toList then (asmProcess operands).map fun p => [p]
  else if mnemonic = "EMPTY".toList then (if ops = [] then some [encode (.process 0 0 [])] else none)
  else if mnemonic = "RESTART".toList then (asmPrepare ops).map fun p => [encode .reset, p]
  else none

/-- The port of a line and the text after its prefix; the default is port A (R101). -/
def splitPort : List Char → Port × List Char
  | 'A' :: ':' :: cs => (.a, trimBlanks cs)
  | 'C' :: ':' :: cs => (.c, trimBlanks cs)
  | cs => (.a, cs)

/-- The packets of one line, each with its port; a line of blanks or of a comment alone has none. -/
def asmLine (cs : List Char) : Option (List (Port × List Word)) :=
  let text := trimBlanks (cs.takeWhile (· ≠ ';'))
  if text = [] then some []
  else
    let line := splitPort text
    let parts := splitMnemonic line.2
    (asmPackets parts.1 parts.2).map fun ps => ps.map fun p => (line.1, p)

/-- The packets of some lines, in order. -/
def asmLines : List (List Char) → Option (List (Port × List Word))
  | [] => some []
  | l :: ls =>
    match asmLine l, asmLines ls with
    | some ps, some qs => some (ps ++ qs)
    | _, _ => none

/-- The packets of a text, one line a packet (R101). -/
def assemble (text : String) : Option (List (Port × List Word)) := asmLines (splitChar '\n' text.toList)

/-- The words a list of packets puts on one port. -/
def wordsOn (p : Port) (ps : List (Port × List Word)) : List Word := (ps.filter (·.1 = p)).flatMap (·.2)

/-- The packets delivered on their ports, to be applied in the list's order (R65, R67). -/
def deliverAll (s : State) (ps : List (Port × List Word)) : State :=
  (deliver (deliver s .a (wordsOn .a ps)) .c (wordsOn .c ps)).setGrants (s.grants ++ ps.map (·.1))

end Sys2Proof.Machine
end

