-- ==== Sys2Proof/Tests/Slice0.lean ====
section
/-! SUPPORT. The tests of the model, with expected results from 30_encoding.md R103 and 95_test_vectors.md, and for every
statement with hypotheses a concrete state and operands that meet them. -/

set_option Elab.async false

namespace Sys2Proof.Machine.Tests

/-! Helpers. -/

/-- Whether an outcome is a next state of which `q` holds. -/
def nextIs {σ φ ρ : Type} (r : Host.Outcome σ φ ρ) (q : σ → Bool) : Bool :=
  match r with
  | .next t => q t
  | .fault _ => false
  | .refused _ => false

/-- A next state with a property, found by evaluation. -/
theorem next_with {σ φ ρ : Type} {r : Host.Outcome σ φ ρ} {q : σ → Prop} [DecidablePred q]
    (h : nextIs r (fun t => decide (q t)) = true) : ∃ t, r = .next t ∧ q t := by
  cases r with
  | next t => exact ⟨t, rfl, of_decide_eq_true h⟩
  | fault _ => cases h
  | refused _ => cases h

/-- The Oscillator of the vectors' start "prepared": 5 Hz at 48 kHz. -/
def osc48 : Oscillator := ⟨0x00000000#32, 0x40A00000#32, 0x3A2B92A6#32, 0x40A00000#32, false⟩

/-- The start "prepared" of 95_test_vectors.md section 2.6. -/
def ready : State :=
  { State.reset with osc := ⟨osc48, osc48⟩, fs := 0x40E7700000000000#64, maxBlock := 512#32, prepared := true }

/-- `ready` with a deferred frequency of the sine Oscillator. -/
def deferred (f : F32) : State := { ready with osc := ⟨osc48.request f, osc48⟩ }

/-- `ready` with both phases rewritten. -/
def atPhase (p : F32) : State := { ready with osc := ⟨{ osc48 with phase := p }, { osc48 with phase := p }⟩ }

/-- The phases after one frame. -/
def at1 : State := atPhase 0x3A2B92A6#32

/-- The phases after three frames. -/
def at3 : State := atPhase 0x3B00ADFC#32

/-- A faulted block. -/
def faulted : State := { State.reset with fault := true, faultCause := .notPrepared }

/-- Words waiting on both ports. -/
def waitingOn (as cs : List Word) (ps : List Port) : State :=
  { ready with portA := as, portC := cs, grants := ps }

/-- 1.0. -/
def one : Word := 0x3F800000#32

/-- The samples of vector E-P1. -/
def ep1 : List F32 := [0x3F800000#32, 0xBF000000#32, 0x3E800000#32, 0x40000000#32, 0x00000000#32, 0x80000000#32]

/-! WellFormed: the one check refuses an ill-formed term, on either side of the right length. -/

theorem test_wellFormed_refuses_short : Instr.wellFormed (.process 2#12 3#16 [one, one, one, one, one]) = false := by decide

theorem test_wellFormed_refuses_long : Instr.wellFormed (.process 0#12 3#16 [one]) = false := by decide

theorem test_wellFormed_accepts : Instr.wellFormed (.process 2#12 3#16 ep1) = true := by decide

/-! Decoding: words written out from the fields of R88 to R94, for every constructor. -/

theorem test_decode_nop : decode .c [0b0000_0000000000000000000000000000#32] = .instr .nop [] := by decide

theorem test_decode_prepare :
    decode .a [0b0001_0000000000000000000000000000#32, 0x89ABCDEF#32, 0x01234567#32, 7#32, 9#32] =
      .instr (.prepare 0x0123456789ABCDEF#64 7#32) [9#32] := by decide

theorem test_decode_setFreq :
    decode .a [0b0010_0000000000000000000000000_01_1#32, one] = .instr (.setFreq .tri true one) [] ∧
      decode .a [0b0010_0000000000000000000000000_10_0#32, one] = .instr (.setFreq .both false one) [] ∧
      decode .a [0b0010_0000000000000000000000000_00_1#32, one] = .instr (.setFreq .sine true one) [] ∧
      decode .a [0b0010_0000000000000000000000000_11_0#32, one] = .bad .reservedField [] := by decide

theorem test_decode_reset : decode .a [0b0011_0000000000000000000000000000#32, one] = .instr .reset [one] := by decide

theorem test_decode_setWave :
    decode .c [0b0100_00000000000000000000000000_01#32] = .instr (.setWave .tri) [] ∧
      decode .a [0b0100_00000000000000000000000000_00#32] = .instr (.setWave .sine) [] ∧
      decode .c [0b0100_00000000000000000000000000_10#32] = .bad .badWaveform [] ∧
      decode .a [0b0100_00000000000000000000000001_10#32] = .bad .reservedField [] := by decide

theorem test_decode_process :
    decode .a [0b0101_000000000001_0000000000000010#32, 7#32, 8#32, 9#32] = .instr (.process 1#12 2#16 [7#32, 8#32]) [9#32] ∧
      decode .c [0b0101_000000000001_0000000000000010#32, 7#32, 8#32, 9#32] = .bad .illegalOpcode [9#32] ∧
      decode .a [0b0101_000000000001_0000000000000010#32, 7#32] = .cutShort := by decide

theorem test_encode_process : encode (.process 2#12 3#16 ep1) = 0x50020003#32 :: ep1 := by decide

/-! The Oscillator's functions: 95_test_vectors.md sections 2.1 to 2.5. -/

theorem test_incOf :
    incOf 0x40A00000#32 0x40E5888000000000#64 = 0x3A3ABEF7#32 ∧ incOf 0x40A00000#32 0x40BF400000000000#64 = 0x3B80ADFD#32 ∧
      incOf 0x46BB8000#32 0x40E7700000000000#64 = 0x40490FDB#32 ∧
      incOf 0x473B7FFF#32 0x40E7700000000000#64 = 0x40C90FDA#32 ∧
      incOf 0x3F800000#32 0x0000000000000001#64 = 0x7F800000#32 ∧
      incOf 0x80000000#32 0x40E7700000000000#64 = 0x80000000#32 := by decide +kernel

theorem test_advance :
    advance 0x40490FDA#32 0x3A2B92A6#32 = 0xC0490523#32 ∧ advance 0xC0490FDB#32 0x40C90FDA#32 = 0x40490FD9#32 ∧
      advance 0x00000000#32 0x40490FDB#32 = 0xC0490FDB#32 ∧ advance 0xBF800000#32 0x3F800000#32 = 0x00000000#32 ∧
      advance 0x40490FDA#32 0x34000000#32 = 0x40490FDA#32 ∧ advance 0x80000000#32 0x00000000#32 = 0x00000000#32 := by
  decide +kernel

theorem test_tri32 :
    tri32 0x3A2B92A6#32 = 0xBF7FE4B1#32 ∧ tri32 0xBF800000#32 = 0xBEBA0CFA#32 ∧ tri32 0xC0400000#32 = 0x3F68EC8A#32 ∧
      tri32 0x40490FDA#32 = 0x3F7FFFFE#32 := by decide +kernel

theorem test_sin32 :
    sin32 0x3A2B92A6#32 = 0x3A2B92A5#32 ∧ sin32 0xBF800000#32 = 0xBF576AA4#32 ∧ sin32 0x3FC90FDB#32 = 0x3F800000#32 ∧
      sin32 0x40490FDA#32 = 0x34222169#32 ∧ sin32 0xC0490FDB#32 = 0x33BBBD2E#32 := by decide +kernel

theorem test_modMul :
    modMul 0x3ECCCCCD#32 0xBF7FFFFF#32 = 0x3F800000#32 ∧ modMul 0x3ECCCCCD#32 0x80000000#32 = 0x3F4CCCCD#32 ∧
      modMul 0x3ECCCCCD#32 0x3A2B92A5#32 = 0x3F4CC439#32 ∧ modMul 0x3ECCCCCD#32 0x3F7FFFFF#32 = 0x3F19999A#32 := by
  decide +kernel

theorem test_sampleOut :
    sampleOut 0 0x7F7FFFFF#32 0x3F19999A#32 = 0x7F199999#32 ∧ sampleOut 0 0x00800000#32 0x3F19999A#32 = 0x004CCCCD#32 ∧
      sampleOut 0 0x00000003#32 0x3F4CCCCD#32 = 0x00000002#32 ∧ sampleOut 0 0x80000001#32 0x3F19999A#32 = 0x80000001#32 ∧
      sampleOut 0 0xBE800000#32 0x3F19999A#32 = 0xBE19999A#32 := by decide +kernel

/-! The instructions: 95_test_vectors.md sections 2.6 to 2.11, one step each. -/

/-- T-SW6. -/
theorem test_nop : nextIs (step (deliver State.reset .c [0x00000000#32])) (· = State.reset) = true := by decide +kernel

/-- T-PR1. -/
theorem test_prepare :
    nextIs (step (deliver State.reset .a [0x10000000#32, 0x00000000#32, 0x40E77000#32, 0x00000200#32])) (· = ready) = true := by
  decide +kernel

/-- T-PR3. -/
theorem test_prepare_badInc :
    nextIs (exec (.prepare 0x3FF0000000000000#64 0#32) State.reset) (· = State.reset.withFault .badInc) = true := by
  decide +kernel

/-- T-SF2. -/
theorem test_setFreq :
    nextIs (exec (.setFreq .both true 0x41200000#32) ready) (fun t => t.osc.sine = t.osc.tri ∧
      t.osc.tri = ⟨0x00000000#32, 0x41200000#32, 0x3AAB92A6#32, 0x40A00000#32, false⟩) = true := by decide +kernel

/-- T-SF3: the deferred form touches neither the frequency in use nor the increment. -/
theorem test_setFreq_deferred :
    nextIs (exec (.setFreq .tri false 0x40000000#32) ready) (· = { ready with
      osc := ⟨osc48, ⟨0x00000000#32, 0x40A00000#32, 0x3A2B92A6#32, 0x40000000#32, true⟩⟩ }) = true := by decide +kernel

/-- T-RS1. -/
theorem test_reset :
    nextIs (exec .reset { at3 with pend := .tri }) (· = { ready with pend := .tri }) = true := by decide +kernel

/-- T-SW1. -/
theorem test_setWave :
    nextIs (step (deliver State.reset .c [0x40000001#32])) (· = { State.reset with pend := .tri }) = true := by decide +kernel

/-- E-P1. -/
theorem test_process :
    nextIs (exec (.process 2#12 3#16 ep1) ready) (fun t =>
      t.out = [0x3F4CC439#32, 0xBECCC439#32, 0x3E4CBBA4#32, 0x3FCCBBA4#32, 0x00000000#32, 0x80000000#32] ∧
      t.osc.sine.phase = 0x3B00ADFC#32 ∧ t.osc.tri.phase = 0x3B00ADFC#32) = true := by decide +kernel

/-- The last block of T-EMPTY: the triangle adopted, from where its phase stood. -/
theorem test_process_adopts :
    nextIs (exec (.process 1#12 1#16 [one]) { at1 with pend := .tri }) (fun t =>
      t.out = [0x3F7FF514#32] ∧ t.cur = .tri ∧ t.osc.sine.phase = 0x3AAB92A6#32) = true := by decide +kernel

/-- P2b, frame 0 of block 2: with ADVANCE_ALL = false the sine Oscillator holds. -/
theorem test_process_holds :
    nextIs (processWith { params with advanceAll := false } 1#12 1#16 [one] { ready with pend := .tri })
      (fun t => t.out = [0x3F7FFA8A#32] ∧ t.osc.sine.phase = 0x00000000#32 ∧ t.osc.tri.phase = 0x3A2B92A6#32) = true := by
  decide +kernel

/-- T-FP2: the opcode is checked before the block. -/
theorem test_fault_priority :
    nextIs (step (deliver State.reset .c [0x50000000#32])) (fun t => statusFault t = 1#1 ∧ statusCause t = 1#3) = true := by
  decide +kernel

/-- T-FP4: nothing is applied to a faulted block. -/
theorem test_fault_absorbs : step (deliver faulted .a [0x30000000#32]) = .fault (.absorbed .notPrepared) := rfl

/-! Runs: the response words of R81 are there whether or not host A has taken them. -/

/-- E-P1 as a run, its words taken. -/
theorem test_run_observes_taken :
    nextIs ((⟨ready, []⟩ : Run).events [.deliver .a (0x50020003#32 :: ep1), .apply, .take]) (fun r =>
      r.state.out = [] ∧ r.ended = true ∧
      r.observe.response = [0x3F4CC439#32, 0xBECCC439#32, 0x3E4CBBA4#32, 0x3FCCBBA4#32, 0x00000000#32, 0x80000000#32]) = true := by
  decide +kernel

/-! The assembler: the lines of R101 with the words 95_test_vectors.md gives them. -/

theorem test_assemble_setFreq : asmLine "A: SET_FREQ.D SINE, 10.0 ; slow".toList = some [(.a, [0x20000000#32, 0x41200000#32])] := by
  decide +kernel

theorem test_assemble_setWave : asmLine "C: SET_WAVE #2".toList = some [(.c, [0x40000002#32])] := by decide +kernel

theorem test_assemble_restart :
    asmLine "RESTART 48000.0, 512".toList =
      some [(.a, [0x30000000#32]), (.a, [0x10000000#32, 0x00000000#32, 0x40E77000#32, 0x00000200#32])] := by decide +kernel

theorem test_assemble_process :
    asmLine "PROCESS 1, 3, [1.0 x 2, -0.5]".toList = some [(.a, [0x50010003#32, one, one, 0xBF000000#32])] := by decide +kernel

/-! Witnesses: what each statement assumes is met, clause by clause. -/

theorem running_ready : Running ready := ⟨rfl, by decide +kernel⟩

theorem running_reset : Running State.reset := ⟨rfl, by decide +kernel⟩

theorem oscInv_ready : OscInv true 0x40E7700000000000#64 osc48 :=
  ⟨by decide +kernel, by decide +kernel, by decide +kernel, fun _ => by decide +kernel⟩

theorem inv_ready : Inv ready :=
  ⟨oscInv_ready, oscInv_ready, fun _ => by decide +kernel, by decide +kernel, by decide⟩

theorem blockRuns_ready : BlockRuns ready 2#12 3#16 ep1 :=
  ⟨running_ready, rfl, by decide, by decide, by decide, by intro w; cases w <;> decide +kernel⟩

/-- A block whose sine Oscillator adopts 10 Hz. -/
theorem blockRuns_deferred : BlockRuns (deferred 0x41200000#32) 1#12 1#16 [one] :=
  ⟨⟨rfl, by decide +kernel⟩, rfl, by decide, by decide, by decide, by intro w; cases w <;> decide +kernel⟩

/-- The ends of the legal depths and frequencies. -/
theorem witness_ResetMeetsInvariant :
    depthOK 0x00000000#32 = true ∧ depthOK 0x3F800000#32 = true ∧ freqOK 0x80000000#32 = true ∧ freqOK 0x7F7FFFFF#32 = true := by
  decide +kernel

theorem witness_DecodeOfEncode :
    Instr.WellFormed (.process 2#12 3#16 ep1) ∧ Instr.WellFormed (.process 0#12 65535#16 []) ∧ Instr.WellFormed .nop ∧
      Instr.WellFormed (.setWave .tri) := by decide

theorem witness_EncodeOfDecode :
    decode .a [0x20000005#32, one, one] = .instr (.setFreq .both true one) [one] ∧
      decode .c [0x40000001#32, one] = .instr (.setWave .tri) [one] := by decide

/-- A word of every opcode group, and the three answers of the decoder. -/
theorem witness_PacketLengthsByOpcode :
    (0x0FFFFFFF#32).toNat / 2 ^ 28 = 0 ∧ (0x1FFFFFFF#32).toNat / 2 ^ 28 = 1 ∧ (0x2FFFFFFF#32).toNat / 2 ^ 28 = 2 ∧
      (0x3FFFFFFF#32).toNat / 2 ^ 28 = 3 ∧ (0x4FFFFFFF#32).toNat / 2 ^ 28 = 4 ∧ (0x5FFFFFFF#32).toNat / 2 ^ 28 = 5 ∧
      6 ≤ (0x60000000#32).toNat / 2 ^ 28 ∧ decode .a [0x10000000#32, one, one] = .cutShort ∧
      decode .a [0x20000000#32, one, one] = .instr (.setFreq .sine false one) [one] ∧
      decode .c [0x20000000#32, one, one] = .bad .illegalOpcode [one] := by decide

/-- Both ends of the reserved opcodes, and the opcodes next to those port C accepts. -/
theorem witness_IllegalOpcodesRejected :
    6 ≤ (0x60000000#32).toNat / 2 ^ 28 ∧ 6 ≤ (0xFFFFFFFF#32).toNat / 2 ^ 28 ∧
      ((0x10000000#32).toNat / 2 ^ 28 ≠ 0 ∧ (0x10000000#32).toNat / 2 ^ 28 ≠ 4 ∧
        packetLength 0x10000000#32 ≤ [0x10000000#32, one, one, one].length) ∧
      ((0x50010001#32).toNat / 2 ^ 28 ≠ 0 ∧ (0x50010001#32).toNat / 2 ^ 28 ≠ 4 ∧
        packetLength 0x50010001#32 ≤ [0x50010001#32, one].length) := by decide

/-- The lowest and the highest reserved bit of each format, TGT = 3, and a word of each allowed opcode on port C. -/
theorem witness_ReservedFieldsRejected :
    (packetLength 0x08000000#32 ≤ 1 ∧ (0x08000000#32).toNat / 2 ^ 28 = 0 ∧ (0x08000000#32).toNat % 2 ^ 28 ≠ 0) ∧
      (packetLength 0x10000001#32 ≤ 4 ∧ (0x10000001#32).toNat / 2 ^ 28 = 1 ∧ (0x10000001#32).toNat % 2 ^ 28 ≠ 0) ∧
      (packetLength 0x30000001#32 ≤ 1 ∧ (0x30000001#32).toNat / 2 ^ 28 = 3 ∧ (0x30000001#32).toNat % 2 ^ 28 ≠ 0) ∧
      (packetLength 0x20000008#32 ≤ 2 ∧ (0x20000008#32).toNat / 2 ^ 28 = 2 ∧ (0x20000008#32).toNat % 2 ^ 28 / 2 ^ 3 ≠ 0) ∧
      (packetLength 0x28000000#32 ≤ 2 ∧ (0x28000000#32).toNat / 2 ^ 28 = 2 ∧ (0x28000000#32).toNat % 2 ^ 28 / 2 ^ 3 ≠ 0) ∧
      ((0x20000006#32).toNat / 2 ^ 28 = 2 ∧ (0x20000006#32).toNat / 2 % 4 = 3) ∧
      ((0x40000004#32).toNat / 2 ^ 28 = 4 ∧ (0x40000004#32).toNat % 2 ^ 28 / 2 ^ 2 ≠ 0) ∧
      ((0x48000003#32).toNat / 2 ^ 28 = 4 ∧ (0x48000003#32).toNat % 2 ^ 28 / 2 ^ 2 ≠ 0) := by decide

/-- A rejected packet at the front of each port. -/
theorem witness_Rejects :
    Running ready ∧ arbitrate (waitingOn [0x60000000#32] [] []) = some (.a, waitingOn [0x60000000#32] [] []) ∧
      (waitingOn [0x60000000#32] [] []).queue .a = [0x60000000#32] ∧
      arbitrate (waitingOn [one] [0x60000000#32] [.c]) = some (.c, waitingOn [one] [0x60000000#32] []) ∧
      (waitingOn [one] [0x60000000#32] []).queue .c = [0x60000000#32] := ⟨running_ready, rfl, rfl, rfl, rfl⟩

/-- An instruction, a packet that faults at decoding, and one cut short, each at the front of the port that is served. -/
theorem witness_StepAppliesNextPacket :
    Running (waitingOn [0x30000000#32] [] []) ∧
      arbitrate (waitingOn [0x30000000#32] [] []) = some (.a, waitingOn [0x30000000#32] [] []) ∧
      decode .a [0x30000000#32] = .instr .reset [] ∧
      arbitrate (waitingOn [] [0x40000002#32] []) = some (.c, waitingOn [] [0x40000002#32] []) ∧
      decode .c [0x40000002#32] = .bad .badWaveform [] ∧
      arbitrate (waitingOn [0x50010002#32, one] [] []) = some (.a, waitingOn [0x50010002#32, one] [] []) ∧
      decode .a [0x50010002#32, one] = .cutShort :=
  ⟨⟨rfl, by decide +kernel⟩, rfl, by decide, rfl, by decide, rfl, by decide⟩

/-- Nothing, one port, the other, and both with and without an interleaving given. -/
theorem witness_PortsServedInAnyInterleaving :
    ((waitingOn [] [] []).portA = [] ∧ (waitingOn [] [] []).portC = []) ∧
      ((waitingOn [one] [] []).portA = [one] ∧ (waitingOn [one] [] []).portC = []) ∧
      ((waitingOn [] [one] []).portA = [] ∧ (waitingOn [] [one] []).portC = [one]) ∧
      ((waitingOn [one] [one] [.c]).grants = [.c] ∧ (waitingOn [one] [one] []).grants = []) := ⟨⟨rfl, rfl⟩, ⟨rfl, rfl⟩, ⟨rfl, rfl⟩, rfl, rfl⟩

theorem witness_WaitingBlockHoldsItsState : Running ready ∧ ready.portA = [] ∧ ready.portC = [] := ⟨running_ready, rfl, rfl⟩

theorem witness_FaultedBlockTakesNoStep : faulted.fault = true := rfl

/-- The depth just above 1.0, a negative one and a NaN. -/
theorem witness_IllegalDepthRefused :
    State.reset.fault = false ∧ (le32 0x00000000#32 0x3F800001#32 && le32 0x3F800001#32 0x3F800000#32) = false ∧
      (le32 0x00000000#32 0x80000001#32 && le32 0x80000001#32 0x3F800000#32) = false ∧
      (le32 0x00000000#32 0x7FC00000#32 && le32 0x7FC00000#32 0x3F800000#32) = false := by decide +kernel

theorem witness_PlacedPacketRunsNext :
    Running ready ∧ decodeTableWord 32 0x40000001 = some (.setWave .tri) ∧
      decodeTableWord 64 0x3F80000020000005 = some (.setFreq .both true one) ∧
      decodeTableWord 32 0x50010002 = some (.process 1#12 2#16 [0#32, 0#32]) := ⟨running_ready, by decide, by decide, by decide⟩

theorem witness_PortsAreFirstInFirstOut :
    ∃ t, step (waitingOn [0x30000000#32] [0x40000001#32] [.c]) = .next t ∧
      t.portA = [0x30000000#32] ∧ t.portC = [] := next_with (by decide +kernel)

theorem witness_DeliveredPacketsAreApplied :
    (0 < (waitingOn [0x30000000#32] [0x40000001#32] [.a]).waiting ∧
        ∃ t, step (waitingOn [0x30000000#32] [0x40000001#32] [.a]) = .next t ∧ t.waiting = 1) ∧
      ∃ t : State, Host.Core.run Sys2Proof.core (waitingOn [0x30000000#32] [0x40000001#32] [.a]).waiting
        (waitingOn [0x30000000#32] [0x40000001#32] [.a]) = .next t ∧ t.pend = .tri :=
  ⟨⟨by decide, next_with (by decide +kernel)⟩, ⟨{ ready with pend := .tri }, by rfl, rfl⟩⟩

theorem witness_PortCWritesOnlyPend :
    arbitrate (waitingOn [] [0x40000001#32] []) = some (.c, waitingOn [] [0x40000001#32] []) ∧
      ∃ t, step (waitingOn [] [0x40000001#32] []) = .next t ∧ t.fault = false := ⟨rfl, next_with (by decide +kernel)⟩

theorem witness_FaultsArePrecise :
    (∃ t, exec (.process 1#12 1#16 [one]) State.reset = .next t ∧ t.fault = true) ∧
      ∃ t, step (waitingOn [0x20000007#32, one] [] []) = .next t ∧ t.fault = true :=
  ⟨next_with (by decide +kernel), next_with (by decide +kernel)⟩

/-- An instruction whose preconditions hold and one whose do not. -/
theorem witness_LegalInputsNeverFault :
    Instr.WellFormed (.process 1#12 1#16 [one]) ∧ Running ready ∧ Running State.reset ∧
      Preconditions ready (.process 1#12 1#16 [one]) ∧ ¬Preconditions State.reset (.process 1#12 1#16 [one]) :=
  ⟨by decide, running_ready, running_reset, ⟨rfl, fun _ _ => ⟨by decide, by decide⟩⟩, fun h => Bool.noConfusion h.1⟩

theorem witness_NopChangesNothing :
    Running ready ∧ (0x00000001#32).toNat / 2 ^ 28 = 0 ∧ (0x00000001#32).toNat % 2 ^ 28 ≠ 0 :=
  ⟨running_ready, by decide, by decide⟩

/-- A bad rate, a rate of 1 Hz with an increment beyond the period, and 48 kHz. -/
theorem witness_PrepareWritesRateAndIncrements :
    Running State.reset ∧ rateOK 0x8000000000000000#64 = false ∧
      (rateOK 0x3FF0000000000000#64 = true ∧ incOK (incOf (State.reset.osc.get .sine).freq 0x3FF0000000000000#64) = false) ∧
      (rateOK 0x40E7700000000000#64 = true ∧ ∀ w, incOK (incOf (State.reset.osc.get w).freq 0x40E7700000000000#64) = true) ∧
      ((0x10000000#32).toNat / 2 ^ 28 = 1 ∧ (0x10000000#32).toNat % 2 ^ 28 = 0) ∧
      ((0x18000000#32).toNat / 2 ^ 28 = 1 ∧ (0x18000000#32).toNat % 2 ^ 28 ≠ 0) :=
  ⟨running_reset, by decide +kernel, by decide +kernel, ⟨by decide +kernel, by intro w; cases w <;> decide +kernel⟩,
    by decide, by decide⟩

/-- Both zeros, a negative rate, an infinity and a NaN; and the smallest positive rate, where 5 Hz overflows. -/
theorem witness_IllegalRatesRejected :
    Running State.reset ∧ rateOK 0x0000000000000000#64 = false ∧ rateOK 0x8000000000000000#64 = false ∧
      rateOK 0xC0E7700000000000#64 = false ∧ rateOK 0x7FF0000000000000#64 = false ∧ rateOK 0x7FF8000000000000#64 = false ∧
      (rateOK 0x0000000000000001#64 = true ∧
        ∃ w, isFinite32 (incOf (State.reset.osc.get w).freq 0x0000000000000001#64) = false) :=
  ⟨running_reset, by decide +kernel, by decide +kernel, by decide +kernel, by decide +kernel, by decide +kernel, by decide +kernel,
    .sine, by decide +kernel⟩

theorem witness_ResetClearsPhases :
    Running State.reset ∧ Running ready ∧ ((0x30000000#32).toNat / 2 ^ 28 = 3 ∧ (0x30000000#32).toNat % 2 ^ 28 = 0) ∧
      ((0x38000000#32).toNat / 2 ^ 28 = 3 ∧ (0x38000000#32).toNat % 2 ^ 28 ≠ 0) :=
  ⟨running_reset, running_ready, by decide, by decide⟩

/-- The five ranges of the low bits of a SET_WAVE word, at their ends. -/
theorem witness_SetWaveWritesPend :
    Running ready ∧ ((0x40000000#32).toNat / 2 ^ 28 = 4 ∧ (0x40000000#32).toNat % 2 ^ 28 = 0) ∧
      ((0x40000001#32).toNat / 2 ^ 28 = 4 ∧ (0x40000001#32).toNat % 2 ^ 28 = 1) ∧
      ((0x40000003#32).toNat / 2 ^ 28 = 4 ∧ (0x40000003#32).toNat % 2 ^ 28 = 3) ∧
      ((0x40000004#32).toNat / 2 ^ 28 = 4 ∧ 4 ≤ (0x40000004#32).toNat % 2 ^ 28) ∧
      ((0x4FFFFFFF#32).toNat / 2 ^ 28 = 4 ∧ 4 ≤ (0x4FFFFFFF#32).toNat % 2 ^ 28) :=
  ⟨running_ready, by decide, by decide, by decide, by decide, by decide⟩

theorem witness_LastSetWaveIsAdopted :
    (∀ i ∈ [Instr.nop, .process 0#12 1#16 []], ∀ v, i ≠ .setWave v) ∧ (1#12 : BitVec 12) ≠ 0 ∧ (1#16 : BitVec 16) ≠ 0 ∧
      ∃ t, execAll ([.setWave .sine] ++ .setWave .tri :: [.nop, .process 0#12 1#16 []] ++ [.process 1#12 1#16 [one]]) ready =
        .next t ∧ t.fault = false :=
  ⟨by simp, by decide, by decide, next_with (by decide +kernel)⟩

/-- An infinity, a NaN, a negative frequency and the smallest of them. -/
theorem witness_IllegalFrequenciesRejected :
    Running ready ∧ freqOK 0x7F800000#32 = false ∧ freqOK 0x7FC00000#32 = false ∧ freqOK 0xBF800000#32 = false ∧
      freqOK 0x80000001#32 = false :=
  ⟨running_ready, by decide +kernel, by decide +kernel, by decide +kernel, by decide +kernel⟩

/-- Prepared with the first illegal and the last legal frequency, and not prepared; -0.0 is legal; targets hit and missed. -/
theorem witness_SetFreqImmediateTakesEffect :
    (Running ready ∧ freqOK 0x473B8000#32 = true ∧ ready.prepared = true ∧ incOK (incOf 0x473B8000#32 ready.fs) = false) ∧
      (freqOK 0x473B7FFF#32 = true ∧ incOK (incOf 0x473B7FFF#32 ready.fs) = true) ∧
      (freqOK 0x80000000#32 = true ∧ incOK (incOf 0x80000000#32 ready.fs) = true) ∧
      (Running State.reset ∧ State.reset.prepared = false) ∧ Hits .both .tri ∧ Hits .tri .tri ∧ ¬Hits .tri .sine :=
  ⟨⟨running_ready, by decide +kernel, rfl, by decide +kernel⟩, by decide +kernel, by decide +kernel, ⟨running_reset, rfl⟩,
    .inl rfl, .inr (.inr ⟨rfl, rfl⟩), by rintro (h | h | h) <;> simp_all⟩

theorem witness_SetFreqDeferredIsRecorded :
    Running State.reset ∧ freqOK 0x473B8000#32 = true ∧ Hits .sine .sine ∧ ¬Hits .sine .tri :=
  ⟨running_reset, by decide +kernel, .inr (.inl ⟨rfl, rfl⟩), by rintro (h | h | h) <;> simp_all⟩

theorem witness_DeferredFrequencyIsAdopted :
    (1#12 : BitVec 12) ≠ 0 ∧ (2#16 : BitVec 16) ≠ 0 ∧ Hits .both .tri ∧
      ∃ t, execAll [.setFreq .both false 0x41200000#32, .process 1#12 2#16 [one, one]] ready = .next t ∧ t.fault = false :=
  ⟨by decide, by decide, .inl rfl, next_with (by decide +kernel)⟩

/-- The two frequencies on either side of the bound. -/
theorem witness_LargestLegalFrequencyAt48kHz : freqOK 0x473B7FFF#32 = true ∧ freqOK 0x473B8000#32 = true := by decide +kernel

/-- Both ends of the phase interval and both zeros. -/
theorem witness_ZeroIncrementFreezesPhase :
    phaseOK 0xC0490FDB#32 = true ∧ phaseOK 0x40490FDA#32 = true ∧ phaseOK 0x80000000#32 = true ∧
      phaseOK 0x00000000#32 = true := by decide +kernel

theorem witness_ProcessNeedsPrepare : Running State.reset ∧ State.reset.prepared = false := ⟨running_reset, rfl⟩

/-- No channel with frames, and channels with no frame. -/
theorem witness_EmptyBlockDoesNothing :
    Running ready ∧ ready.prepared = true ∧ ((0#12 : BitVec 12) = 0 ∨ (512#16 : BitVec 16) = 0) ∧
      ((3#12 : BitVec 12) = 0 ∨ (0#16 : BitVec 16) = 0) ∧
      ∃ t, execAll [.process 1#12 1#16 [one]] { ready with pend := .tri } = .next t ∧ t.cur = .tri :=
  ⟨running_ready, rfl, by decide, by decide, next_with (by decide +kernel)⟩

theorem witness_IllegalDeferredFrequencyFaults :
    Running (deferred 0x473B8000#32) ∧ (deferred 0x473B8000#32).prepared = true ∧ (1#12 : BitVec 12) ≠ 0 ∧
      (1#16 : BitVec 16) ≠ 0 ∧
      ∃ w, ((deferred 0x473B8000#32).osc.get w).freqPend = true ∧
        incOK (incOf ((deferred 0x473B8000#32).osc.get w).freqTgt (deferred 0x473B8000#32).fs) = false :=
  ⟨⟨rfl, by decide +kernel⟩, rfl, by decide, by decide, .sine, rfl, by decide +kernel⟩

/-- A block with and one without an adoption, and the first and last index of a sample. -/
theorem witness_ProcessModulatesEveryFrame :
    BlockRuns ready 2#12 3#16 ep1 ∧ BlockRuns (deferred 0x41200000#32) 1#12 1#16 [one] ∧
      0 < (3#16 : BitVec 16).toNat ∧ 0 < (2#12 : BitVec 12).toNat ∧ ep1[0 * 2 + 0]? = some one ∧
      2 < (3#16 : BitVec 16).toNat ∧ 1 < (2#12 : BitVec 12).toNat ∧ ep1[2 * 2 + 1]? = some 0x80000000#32 :=
  ⟨blockRuns_ready, blockRuns_deferred, by decide, by decide, by decide, by decide, by decide, by decide⟩

/-- Two channels of one frame with the same sample. -/
theorem witness_ChannelsShareTheMultiplier :
    BlockRuns ready 2#12 1#16 [one, one] ∧ (∃ t, exec (.process 2#12 1#16 [one, one]) ready = .next t ∧ t.fault = false) ∧
      isNaN32 (mul32 one 0x3F4CC439#32) = false :=
  ⟨⟨running_ready, rfl, by decide, by decide, by decide, by intro w; cases w <;> decide +kernel⟩, next_with (by decide +kernel),
    by decide +kernel⟩

theorem witness_UnselectedOscillatorHolds :
    ({ params with advanceAll := false } : Params).advanceAll = false ∧ (1#12 : BitVec 12) ≠ 0 ∧ (1#16 : BitVec 16) ≠ 0 ∧
      (∃ t, processWith { params with advanceAll := false } 1#12 1#16 [one] ready = .next t ∧ t.fault = false) ∧
      (Wave.sine = ready.pend ∧ Wave.tri ≠ ready.pend) :=
  ⟨rfl, by decide, by decide, next_with (by decide +kernel), by decide⟩

theorem witness_SwitchingKeepsBothPhasesRunning :
    (∀ i ∈ [Instr.setWave .tri, .process 1#12 2#16 [one, one]], (∃ w, i = .setWave w) ∨ ∃ nch nfr xs, i = .process nch nfr xs) ∧
      (∀ w, (ready.osc.get w).freqPend = false) ∧
      ∃ t, execAll [.setWave .tri, .process 1#12 2#16 [one, one]] ready = .next t ∧ t.fault = false :=
  ⟨by simp, by intro w; cases w <;> rfl, next_with (by decide +kernel)⟩

/-- The ends of the finite values, and a divisor that is not zero. -/
theorem witness_ArithmeticRoundsToNearestEven :
    isFinite32 0x7F7FFFFF#32 = true ∧ isFinite32 0x80000001#32 = true ∧ value32 0x80000001#32 ≠ 0 := by
  refine ⟨by decide +kernel, by decide +kernel, ?_⟩
  decide +kernel

/-- The ends of the phases and of the increments; the first sum wraps. -/
theorem witness_AdvanceKeepsPhaseInterval :
    phaseOK 0x40490FDA#32 = true ∧ phaseOK 0xC0490FDB#32 = true ∧ incOK 0x40C90FDA#32 = true ∧ incOK 0x80000000#32 = true ∧
      le32 pi32 (add32 0x40490FDA#32 0x40C90FDA#32) = true := by decide +kernel

theorem witness_TriangleShape :
    phaseOK 0xC0490FDB#32 = true ∧ phaseOK 0x40490FDA#32 = true ∧ le32 (abs32 0x40490FDA#32) (abs32 0xC0490FDB#32) = true := by
  decide +kernel

/-- A sine that meets law L1 without more ado, beside the block's own, and a state of the invariant. -/
theorem witness_ShapesStayInRange : SineBounded (fun _ => 0x00000000#32) ∧ Inv ready :=
  have h : le32 (neg32 one32) 0x00000000#32 = true ∧ le32 0x00000000#32 one32 = true := by decide +kernel
  ⟨fun _ _ _ => h, inv_ready⟩

/-- Both ends of the closed phase interval. -/
theorem witness_ComputedSineIsNearTheSine :
    (le32 negPi32 0xC0490FDB#32 = true ∧ le32 0xC0490FDB#32 pi32 = true) ∧
      le32 negPi32 0x40490FDB#32 = true ∧ le32 0x40490FDB#32 pi32 = true := by decide +kernel

/-- The lowest phase of the closed interval and the smallest nonzero value are settled. -/
theorem witness_ComputedSineIsCorrectlyRounded :
    isFinite32 0xC0490FDB#32 = true ∧ isFinite32 0x33BBBD2E#32 = true ∧
      sinDecided (b32.unitsOf (b32.mag (0xC0490FDB#32).toNat)) = true ∧ sinDecided (b32.unitsOf (b32.mag (0x00000001#32).toNat)) = true := by
  decide +kernel

/-- The ends of the LFO values, and the ends of the depths with the default one. -/
theorem witness_MultiplierRange :
    depthOK 0x00000000#32 = true ∧ depthOK 0x3F800000#32 = true ∧ depthOK 0x3ECCCCCD#32 = true ∧
      (le32 0xBF800000#32 0xBF800000#32 = true ∧ le32 0xBF800000#32 0x3F800000#32 = true) ∧
      le32 0xBF800000#32 0x3F800000#32 = true ∧ le32 0x3F800000#32 0x3F800000#32 = true := by decide +kernel

/-- The smallest and the largest sample, under the ends of the multipliers. -/
theorem witness_SamplesNeverAmplifiedNorSilenced :
    isFinite32 0x00000001#32 = true ∧ value32 0x00000001#32 ≠ 0 ∧ isFinite32 0xFF7FFFFF#32 = true ∧
      le32 0x00000000#32 0x80000000#32 = true ∧ le32 0x3F19999A#32 0x3F19999A#32 = true ∧ le32 0x3F800000#32 0x3F800000#32 = true := by
  decide +kernel

/-- The ends of the positive multipliers; a NaN and no NaN. -/
theorem witness_SpecialSamples :
    lt32 0x00000000#32 0x00000001#32 = true ∧ le32 0x00000001#32 0x3F800000#32 = true ∧
      lt32 0x00000000#32 0x3F800000#32 = true ∧ le32 0x3F800000#32 0x3F800000#32 = true ∧
      isNaN32 0x7F800001#32 = true ∧ isNaN32 0x7F800000#32 = false := by decide +kernel

/-- An instance with another sine than the default, which meets the laws with the tolerance it states. -/
theorem paramsLegal_flat :
    ParamsLegal { params with advanceAll := false, sin32 := fun _ => 0x00000000#32, sinTol := 1 } := by
  have h : le32 (neg32 one32) 0x00000000#32 = true ∧ le32 0x00000000#32 one32 = true := by decide +kernel
  have hv : value32 0x00000000#32 = 0 := by decide +kernel
  refine ⟨by decide +kernel, by decide +kernel, .inr ⟨fun _ _ _ => h, fun x _ _ => ?_⟩⟩
  rw [hv, Rat.cast_zero, zero_sub, abs_neg, Rat.cast_one]
  exact Real.abs_sin_le_one _

theorem witness_BlocksAttenuateWithinDepth :
    ParamsLegal { params with advanceAll := false, sin32 := fun _ => 0x00000000#32, sinTol := 1 } ∧ Inv ready ∧
      BlockRuns ready 2#12 3#16 ep1 := ⟨paramsLegal_flat, inv_ready, blockRuns_ready⟩

theorem witness_StepKeepsInvariant : Inv ready ∧ ∃ t, step ready = .next t ∧ t.prepared = true :=
  ⟨inv_ready, next_with (by decide +kernel)⟩

theorem witness_OnlyResetAndFramesWritePhases :
    (∃ t, exec (.setFreq .both true 0x41200000#32) ready = .next t ∧ t.fault = false) ∧
      Instr.setFreq .both true 0x41200000#32 ≠ .reset ∧
      ∀ nch nfr xs, Instr.setFreq .both true 0x41200000#32 ≠ .process nch nfr xs :=
  ⟨next_with (by decide +kernel), by simp, by simp⟩

/-- NOP meets the premise of every clause. -/
theorem witness_RegistersHaveTheirWritersOnly :
    exec .nop ready = .next ready ∧ (∀ fs mb, Instr.nop ≠ .prepare fs mb) ∧ (∀ w, Instr.nop ≠ .setWave w) ∧
      (∀ nch nfr xs, Instr.nop ≠ .process nch nfr xs) ∧ ∀ tgt force f, Instr.nop ≠ .setFreq tgt force f :=
  ⟨rfl, by simp, by simp, by simp, by simp⟩

theorem witness_MaxBlockIsReadByNothing :
    ∃ t, exec (.process 1#12 1#16 [one]) ready = .next t ∧ t.maxBlock = 512#32 := next_with (by decide +kernel)

theorem witness_RepeatedPacketsEqualOne :
    (∀ nch nfr xs, Instr.prepare 0x40E7700000000000#64 7#32 ≠ .process nch nfr xs) ∧
      ∃ t, exec (.prepare 0x40E7700000000000#64 7#32) State.reset = .next t ∧ t.fault = false :=
  ⟨by simp, next_with (by decide +kernel)⟩

/-- A block that has run and a fresh one. -/
theorem witness_RestartReproducesFreshRun :
    Running State.reset ∧ Running ready ∧ ready.cur = State.reset.cur ∧ ready.pend = State.reset.pend ∧
      ready.depth = State.reset.depth ∧ ready.faultCause = State.reset.faultCause ∧ ready.freeCount = State.reset.freeCount ∧
      (∀ w, (ready.osc.get w).freq = (State.reset.osc.get w).freq ∧ (ready.osc.get w).freqTgt = (State.reset.osc.get w).freqTgt ∧
        (ready.osc.get w).freqPend = (State.reset.osc.get w).freqPend) ∧
      ∃ t, execAll [.reset, .prepare 0x40E7700000000000#64 7#32, .process 1#12 1#16 [one]] State.reset = .next t ∧ t.fault = false :=
  ⟨running_reset, running_ready, rfl, rfl, rfl, rfl, rfl, by intro w; cases w <;> exact ⟨rfl, rfl, rfl⟩,
    next_with (by decide +kernel)⟩

/-- A run that ends with everything applied, and one that ends faulted with words left. -/
theorem witness_FinishedRunHasEnded :
    (∃ t, (⟨waitingOn [0x30000000#32] [0x40000001#32] [.a], []⟩ : Run).finish = .next t ∧ t.state.pend = .tri) ∧
      ∃ t, (⟨waitingOn [0x60000000#32, 0x30000000#32] [] [], []⟩ : Run).finish = .next t ∧
        t.state.fault = true ∧ t.state.portA = [0x30000000#32] :=
  ⟨next_with (by decide +kernel), next_with (by decide +kernel)⟩

/-- Each kind of event, and words that are taken. -/
theorem witness_ObservationIsOfWholeRun :
    (∃ t, Run.start.event (.deliver .c [0x40000001#32]) = .next t ∧ t.state.portC = [0x40000001#32]) ∧
      (∃ t, Run.start.event (.interleave [.c]) = .next t ∧ t.state.grants = [.c]) ∧
      (∃ t, (⟨{ ready with out := [one] }, []⟩ : Run).event .take = .next t ∧ t.taken = [one]) ∧
      (∃ t, Run.start.event .apply = .next t ∧ t = Run.start) ∧
      ∃ t, (⟨ready, []⟩ : Run).events [.deliver .a [0x50010001#32, one], .apply, .take, .apply] = .next t ∧
        t.taken = [0x3F4CC439#32] :=
  ⟨next_with (by decide +kernel), next_with (by decide +kernel), next_with (by decide +kernel), next_with (by decide +kernel),
    next_with (by decide +kernel)⟩

end Sys2Proof.Machine.Tests
end

section
/-! Runs of packets: what `execAll` does at the head of a list and at its cut. -/

namespace Sys2Proof.Machine

theorem execAll_nil_next {s t : State} : execAll [] s = .next t ↔ s = t := next_inj

theorem execAll_cons_next {i : Instr} {is : List Instr} {s t : State} :
    execAll (i :: is) s = .next t ↔ ∃ u, exec i s = .next u ∧ execAll is u = .next t := by
  rw [execAll]
  cases exec i s with
  | next u => exact ⟨fun h => ⟨u, rfl, h⟩, fun ⟨_, hv, h⟩ => next_inj.mp hv ▸ h⟩
  | fault r => simp
  | refused r => simp

theorem execAll_append_next {is js : List Instr} {s t : State} :
    execAll (is ++ js) s = .next t ↔ ∃ u, execAll is s = .next u ∧ execAll js u = .next t := by
  induction is generalizing s with
  | nil => simp [execAll_nil_next]
  | cons i is ih =>
    simp only [List.cons_append, execAll_cons_next, ih]
    constructor
    · rintro ⟨u, hi, v, his, hjs⟩
      exact ⟨v, ⟨u, hi, his⟩, hjs⟩
    · rintro ⟨v, ⟨u, hi, his⟩, hjs⟩
      exact ⟨u, hi, v, his, hjs⟩

theorem execAll_singleton_next {i : Instr} {s t : State} : execAll [i] s = .next t ↔ exec i s = .next t := by
  simp [execAll_cons_next, execAll_nil_next]

end Sys2Proof.Machine
end

section
/-! PEND and CUR: who writes the one (R50, R144), and what a block puts in the other (R146). -/

namespace Sys2Proof.Machine

theorem emptyBlock_eq_false {nch : BitVec 12} {nfr : BitVec 16} : emptyBlock nch nfr = false ↔ nch ≠ 0 ∧ nfr ≠ 0 := by
  simp [emptyBlock, BitVec.toNat_eq]

/-- PEND is written by SET_WAVE alone. -/
theorem exec_keeps_pend {i : Instr} {s t : State} (hi : ∀ v, i ≠ .setWave v) (h : exec i s = .next t) :
    t.pend = s.pend := by
  cases i with
  | nop =>
    obtain ⟨-, rfl⟩ := execNop_next.mp h
    rfl
  | prepare fs maxBlock =>
    obtain ⟨-, ⟨-, rfl⟩ | ⟨-, -, rfl⟩ | ⟨-, -, -, rfl⟩⟩ := execPrepare_next h <;> simp
  | setFreq tgt force f =>
    obtain ⟨-, ⟨-, rfl⟩ | ⟨-, -, -, -, rfl⟩ | ⟨-, -, -, rfl⟩ | ⟨-, -, rfl⟩⟩ := execSetFreq_next h <;> simp
  | reset =>
    obtain ⟨-, rfl⟩ := execReset_next.mp h
    rw [State.setOsc_pend]
  | setWave w => exact absurd rfl (hi w)
  | process nch nfr samples =>
    obtain ⟨-, ⟨-, rfl⟩ | ⟨-, -, rfl⟩ | ⟨-, -, -, rfl⟩ | ⟨-, -, -, rfl⟩⟩ := processWith_next h
    · rw [State.withFault_pend]
    · rfl
    · rw [State.withFault_pend]
    · rw [applyFrames_adopted]

theorem execAll_keeps_pend {is : List Instr} {s t : State} (his : ∀ i ∈ is, ∀ v, i ≠ .setWave v)
    (h : execAll is s = .next t) : t.pend = s.pend := by
  induction is generalizing s with
  | nil => rw [execAll_nil_next.mp h]
  | cons i is ih =>
    obtain ⟨hi, his⟩ := List.forall_mem_cons.mp his
    obtain ⟨u, hu, ht⟩ := execAll_cons_next.mp h
    rw [ih his ht, exec_keeps_pend hi hu]

/-- A non-empty block that raises no fault leaves CUR at what PEND held when it began. -/
theorem exec_process_adopts_pend {nch : BitVec 12} {nfr : BitVec 16} {xs : List F32} {s t : State} (hc : nch ≠ 0)
    (hf : nfr ≠ 0) (h : exec (.process nch nfr xs) s = .next t) (ht : t.fault = false) : t.cur = s.pend := by
  obtain ⟨-, ⟨-, rfl⟩ | ⟨-, hempty, -⟩ | ⟨-, -, -, rfl⟩ | ⟨-, -, -, rfl⟩⟩ := processWith_next h
  · simp at ht
  · simp [emptyBlock_eq_false.mpr ⟨hc, hf⟩] at hempty
  · simp at ht
  · rw [applyFrames_adopted]

/-- Settles O28: SET_WAVE puts its waveform in PEND, no packet after it writes PEND, and the block copies PEND to CUR. -/
theorem lastSetWaveIsAdopted : Obligations.LastSetWaveIsAdopted := by
  unfold Obligations.LastSetWaveIsAdopted
  intro s t before after w nch nfr xs hafter hc hf hrun ht
  obtain ⟨s₃, hpackets, hblock⟩ := execAll_append_next.mp hrun
  obtain ⟨s₁, -, hwave⟩ := execAll_append_next.mp hpackets
  obtain ⟨s₂, hset, hrest⟩ := execAll_cons_next.mp hwave
  obtain ⟨-, rfl⟩ := execSetWave_next.mp hset
  calc t.cur
    _ = s₃.pend := exec_process_adopts_pend hc hf (execAll_singleton_next.mp hblock) ht
    _ = (s₁.setPend w).pend := execAll_keeps_pend hafter hrest
    _ = w := State.setPend_pend s₁ w

end Sys2Proof.Machine
end

section
/-! What the decoder answers: a packet cut short (R62), and a decoding fault by the field it is raised for (R96 to R98). -/

namespace Sys2Proof

theorem decode_eq_cutShort {port : Port} {w : Word} {ws : List Word} :
    decode port (w :: ws) = .cutShort ↔ ws.length < operandCount w := by
  rw [decode]
  split
  · simp [*]
  · cases decodeFault port w <;> simp [*]

/-- A packet with all its operand words whose command word fails a check. -/
theorem decode_of_some {port : Port} {w : Word} {ws : List Word} {c : Cause} (h : operandCount w ≤ ws.length)
    (hd : decodeFault port w = some c) : decode port (w :: ws) = .bad c (ws.drop (operandCount w)) := by
  rw [decode, if_neg (by omega), hd]

theorem packetLength_eq (w : Word) : packetLength w = operandCount w + 1 := Nat.add_comm ..

theorem packetLength_sub_one (w : Word) : packetLength w - 1 = operandCount w := Nat.add_sub_cancel_left ..

theorem packetLength_le_cons {w v : Word} {ws : List Word} :
    packetLength w ≤ (v :: ws).length ↔ operandCount w ≤ ws.length := by
  rw [packetLength_eq, List.length_cons, Nat.add_le_add_iff_right]

theorem operandCount_of_six_le {w : Word} (h : 6 ≤ opcOf w) : operandCount w = 0 :=
  operandCount_other (by omega) (by omega) (by omega)

theorem operandCount_four {w : Word} (h : opcOf w = 4) : operandCount w = 0 :=
  operandCount_other (by omega) (by omega) (by omega)

theorem opcodeIllegal_iff {port : Port} {w : Word} :
    opcodeIllegal port w = true ↔ 6 ≤ opcOf w ∨ port = .c ∧ opcOf w ≠ 0 ∧ opcOf w ≠ 4 := by
  simp [opcodeIllegal, allowedOnC]

/-- NOP, PREPARE and RESET are of format Z, all of whose bits below OPC are reserved (R88, R89). -/
theorem reservedViolated_formatZ {w : Word} (h : opcOf w = 0 ∨ opcOf w = 1 ∨ opcOf w = 3) :
    reservedViolated w = decide (w.toNat % 2 ^ 28 ≠ 0) := by
  have bits := reserved_eq w 0 28 rfl
  rw [pow_zero, Nat.div_one] at bits
  obtain h | h | h := h <;> simpa only [reservedViolated, h] using bits

/-- SET_FREQ reserves bits 27 down to 3 and the TGT value 3 (R90, R91). -/
theorem reservedViolated_formatF {w : Word} (h : opcOf w = 2) :
    reservedViolated w = decide (w.toNat % 2 ^ 28 / 2 ^ 3 ≠ 0 ∨ w.toNat / 2 % 4 = 3) := by
  have bits := reserved_eq w 3 25 rfl
  simp only [reservedViolated, h, tgtOf_eq, Bool.decide_or]
  rw [bits]
  rfl

/-- SET_WAVE reserves bits 27 down to 2 (R93). -/
theorem reservedViolated_formatW {w : Word} (h : opcOf w = 4) :
    reservedViolated w = decide (w.toNat % 2 ^ 28 / 2 ^ 2 ≠ 0) := by
  simpa only [reservedViolated, h] using reserved_eq w 2 26 rfl

theorem waveIllegal_iff {w : Word} : waveIllegal w = true ↔ opcOf w = 4 ∧ 2 ≤ w.toNat % 4 := by
  simp [waveIllegal, wfOf_eq]

/-! The checks of R100, in their order. -/

theorem decodeFault_illegalOpcode {port : Port} {w : Word} (h : opcodeIllegal port w = true) :
    decodeFault port w = some .illegalOpcode := if_pos h

theorem decodeFault_reservedField {port : Port} {w : Word} (ho : ¬opcodeIllegal port w = true)
    (hr : reservedViolated w = true) : decodeFault port w = some .reservedField := by
  rw [decodeFault, if_neg ho, if_pos hr]

theorem decodeFault_badWaveform {port : Port} {w : Word} (ho : ¬opcodeIllegal port w = true)
    (hr : ¬reservedViolated w = true) (hw : waveIllegal w = true) : decodeFault port w = some .badWaveform := by
  rw [decodeFault, if_neg ho, if_neg hr, if_pos hw]

end Sys2Proof
end

section
/-! Packets rejected at decoding (R96 to R98): the step that serves one raises the decoder's fault. -/

namespace Sys2Proof.Machine

/-- A running block that serves a packet the decoder faults raises that fault, the packet's words consumed. -/
theorem step_of_bad {s s1 : State} {p : Port} {c : Cause} {rest : List Word} (hr : Running s)
    (harb : arbitrate s = some (p, s1)) (hd : decode p (s1.queue p) = .bad c rest) :
    step s = .next ((s1.setQueue p rest).withFault c) := by
  have hf : fetch s = .bad c (s1.setQueue p rest) := by simp only [fetch, harb, hd]
  rw [step, live_of_running hr, hf]
  rfl

/-- A whole packet whose command word fails a check of R100 is rejected with its cause. -/
theorem rejects_of_decodeFault {port : Port} {w : Word} {ws : List Word} {c : Cause} (h : operandCount w ≤ ws.length)
    (hd : decodeFault port w = some c) : Rejects port (w :: ws) c (ws.drop (operandCount w)) :=
  have hbad := decode_of_some h hd
  ⟨hbad, fun _ _ hr harb hq => step_of_bad hr harb (hq ▸ hbad)⟩

/-- A packet of one word whose command word fails a check of R100. -/
theorem rejects_of_decodeFault_zero {port : Port} {w : Word} {ws : List Word} {c : Cause} (h : operandCount w = 0)
    (hd : decodeFault port w = some c) : Rejects port (w :: ws) c ws := by
  have hrej := rejects_of_decodeFault (h ▸ Nat.zero_le ws.length) hd
  rwa [h, List.drop_zero] at hrej

/-- SET_WAVE with the reserved bits 0 and WF at 2 or 3, on both ports. -/
theorem rejects_badWaveform {w : Word} {ws : List Word} (port : Port) (ho : opcOf w = 4)
    (hw : w.toNat % 2 ^ 28 = 2 ∨ w.toNat % 2 ^ 28 = 3) : Rejects port (w :: ws) .badWaveform ws := by
  refine rejects_of_decodeFault_zero (operandCount_four ho) (decodeFault_badWaveform ?_ ?_ ?_)
  · rw [opcodeIllegal_iff]
    omega
  · rw [reservedViolated_formatW ho, decide_eq_true_eq]
    omega
  · rw [waveIllegal_iff]
    omega

/-- Settles O7: the lengths are the operand counts of each opcode, and each answer of the decoder counts its words. -/
theorem packetLengthsByOpcode : Obligations.PacketLengthsByOpcode := by
  unfold Obligations.PacketLengthsByOpcode
  constructor
  · intro w
    simp only [← opcOf_eq, packetLength]
    refine ⟨fun h => ?_, fun h => ?_, fun h => ?_, fun h => ?_, fun h => ?_, fun h => ?_, fun h => ?_⟩
    · rw [operandCount_other (by omega) (by omega) (by omega)]
    · rw [operandCount_one h]
    · rw [operandCount_two h]
    · rw [operandCount_other (by omega) (by omega) (by omega)]
    · rw [operandCount_four h]
    · rw [operandCount_five h, nchOf_eq, nfrOf_eq]
    · rw [operandCount_of_six_le h]
  · intro port w ws rest
    rw [packetLength_eq, List.length_cons]
    refine ⟨?_, fun i h => ?_, fun c h => ?_⟩
    · rw [decode_eq_cutShort, Nat.add_lt_add_iff_right]
    · obtain ⟨hws, hlen, -, -⟩ := decode_instr h
      have hsum := congrArg List.length hws
      rw [List.length_append, List.length_take_of_le hlen] at hsum
      omega
    · obtain ⟨rfl, hlen, -⟩ := decode_bad h
      rw [List.length_drop]
      omega

/-- Settles O9: a word whose opcode the port accepts fails the reserved fields' check of its format. -/
theorem reservedFieldsRejected : Obligations.ReservedFieldsRejected := by
  unfold Obligations.ReservedFieldsRejected
  intro port w ws hlen hport hbits
  rw [packetLength_le_cons] at hlen
  rw [packetLength_sub_one]
  simp only [← opcOf_eq] at hport hbits
  refine rejects_of_decodeFault hlen (decodeFault_reservedField ?_ ?_)
  · rw [opcodeIllegal_iff]
    rintro (hopc | ⟨hc, hnop, hwave⟩)
    · omega
    · exact (hport hc).elim hnop hwave
  · obtain ⟨ho, hz⟩ | ⟨ho, hf⟩ | ⟨ho, hw⟩ := hbits
    · rw [reservedViolated_formatZ ho, decide_eq_true hz]
    · rw [reservedViolated_formatF ho, decide_eq_true hf]
    · rw [reservedViolated_formatW ho, decide_eq_true hw]

/-- Settles O8: the opcode is the first check of R100, and the reserved opcodes have no operand words. -/
theorem illegalOpcodesRejected : Obligations.IllegalOpcodesRejected := by
  unfold Obligations.IllegalOpcodesRejected
  intro w ws
  simp only [← opcOf_eq, packetLength_le_cons, packetLength_sub_one]
  constructor
  · intro h port
    exact rejects_of_decodeFault_zero (operandCount_of_six_le h) (decodeFault_illegalOpcode (opcodeIllegal_iff.mpr (.inl h)))
  · intro hnop hwave hlen
    exact rejects_of_decodeFault hlen (decodeFault_illegalOpcode (opcodeIllegal_iff.mpr (.inr ⟨rfl, hnop, hwave⟩)))

/-- Settles O10: both words are a SET_WAVE with no reserved bit set and WF at 2 or 3. -/
theorem badWaveformRejected : Obligations.BadWaveformRejected := by
  unfold Obligations.BadWaveformRejected
  intro port ws
  exact ⟨rejects_badWaveform port (by decide) (.inl (by decide)), rejects_badWaveform port (by decide) (.inr (by decide))⟩

end Sys2Proof.Machine
end

section
/-! The legal frequencies by their encodings (R117), and what SET_FREQ does with any other (R179). -/

namespace Sys2Proof.Machine

theorem key32_zero32 : key32 zero32 = 0 := rfl

/-- At or above either zero. -/
theorem le32_zero32_iff {a : F32} : le32 zero32 a = true ↔ isNaN32 a = false ∧ 0 ≤ key32 a := by
  rw [le32_iff, key32_zero32]
  exact and_iff_right rfl

/-- A key is not negative exactly when the sign bit is clear or the encoding is that of -0.0. -/
theorem key32_nonneg_iff {a : F32} : 0 ≤ key32 a ↔ a.toNat < 2 ^ 31 ∨ a = 0x80000000#32 := by
  have ha := a.isLt
  rw [key32, Fmt.key_eq, Fmt.mag, Fmt.neg, b32_signWeight, BitVec.toNat_eq, BitVec.toNat_ofNat]
  split
  next hneg =>
    rw [beq_iff_eq] at hneg
    omega
  next hpos =>
    rw [beq_iff_eq] at hpos
    omega

theorem freqOK_iff {f : F32} : freqOK f = true ↔ f.toNat < 0x7F800000 ∨ f = 0x80000000#32 := by
  have hfin : isFinite32 f = true ↔ f.toNat % 2 ^ 31 < 0x7F800000 := isFinite32_iff f
  rw [freqOK, Bool.and_eq_true, le32_zero32_iff, key32_nonneg_iff, hfin]
  constructor
  · rintro ⟨hmag, -, hsign | hzero⟩
    · exact .inl (Nat.mod_eq_of_lt hsign ▸ hmag)
    · exact .inr hzero
  · rintro (hlt | rfl)
    · have hmag : f.toNat % 2 ^ 31 < 0x7F800000 := by omega
      exact ⟨hmag, isNaN32_of_isFinite32 (hfin.mpr hmag), .inl (by omega)⟩
    · decide

theorem execSetFreq_badFreq {s : State} {tgt : Target} {force : Bool} {f : F32} (hr : Running s) (hf : freqOK f = false) :
    execSetFreq tgt force f s = .next (s.withFault .badFreq) := by
  rw [execSetFreq, live_of_running hr, hf]
  rfl

/-- Settles O29: the encodings by sign and magnitude, and the frequency is the first check of SET_FREQ. -/
theorem illegalFrequenciesRejected : Obligations.IllegalFrequenciesRejected := by
  unfold Obligations.IllegalFrequenciesRejected
  exact ⟨fun _ => freqOK_iff, fun _ _ _ _ hr hf => execSetFreq_badFreq hr hf⟩

end Sys2Proof.Machine
end

section
/-! Sterbenz's lemma: a difference of two finite values of one sign, neither more than twice the other, is exact. -/

namespace Sys2Proof.Machine

/-- A format represents every significand of at most one bit more than the fraction, under any shift. -/
theorem Fmt.exists_unitsOf_eq (f : Fmt) (s q : Nat) (hq : q ≤ 2 ^ (f.fracBits + 1)) : ∃ k, f.unitsOf k = q * 2 ^ s := by
  induction s generalizing q with
  | zero => exact ⟨_, f.unitsOf_split 0 q hq (.inl rfl)⟩
  | succ s ih =>
    obtain hnorm | hsmall := Nat.le_total (2 ^ f.fracBits) q
    · exact ⟨_, f.unitsOf_split (s + 1) q hq (.inr hnorm)⟩
    · obtain ⟨k, hk⟩ := ih (q * 2) (by rw [pow_succ]; omega)
      exact ⟨k, by rw [hk, pow_succ', mul_assoc]⟩

/-- The unit in the last place of an encoding divides every larger encoding's units. -/
theorem Fmt.exists_common_shift (f : Fmt) {m n : Nat} (h : m ≤ n) :
    ∃ s q r, q ≤ 2 ^ (f.fracBits + 1) ∧ f.unitsOf m = q * 2 ^ s ∧ f.unitsOf n = r * 2 ^ s := by
  obtain ⟨s, q, rfl, hq, hs⟩ := f.exists_split m
  obtain ⟨t, r, rfl, hr, ht⟩ := f.exists_split n
  have hst : s ≤ t := by
    by_contra! hlt
    have hmul : (t + 1) * 2 ^ f.fracBits ≤ s * 2 ^ f.fracBits := Nat.mul_le_mul_right _ hlt
    rw [pow_succ] at hr
    rw [Nat.add_one_mul] at hmul
    omega
  refine ⟨s, q, r * 2 ^ (t - s), by omega, f.unitsOf_split s q (by omega) hs, ?_⟩
  rw [f.unitsOf_split t r (by omega) ht, mul_assoc, ← pow_add, Nat.sub_add_cancel hst]

/-- The difference of an encoding and one at most twice it is represented, by an encoding that is no larger. -/
theorem Fmt.exists_unitsOf_sub (f : Fmt) {m n : Nat} (h : m ≤ n) (h2 : f.unitsOf n ≤ 2 * f.unitsOf m) :
    ∃ k ≤ m, f.unitsOf k = f.unitsOf n - f.unitsOf m := by
  obtain ⟨s, q, r, hq, hm, hn⟩ := f.exists_common_shift h
  have hr : r ≤ 2 * q := by
    rw [hm, hn, ← mul_assoc] at h2
    exact Nat.le_of_mul_le_mul_right h2 (Nat.two_pow_pos s)
  obtain ⟨k, hk⟩ := f.exists_unitsOf_eq s (r - q) (by omega)
  rw [Nat.sub_mul, ← hm, ← hn] at hk
  exact ⟨k, f.unitsOf_strictMono.le_iff_le.mp (by omega), hk⟩

/-- A result that is the rounding of a number that a finite encoding represents is that number. -/
theorem units32_of_key_eq_roundSigned {c : F32} {n : Int} {k : Nat} (hc : key32 c = b32.roundSigned n 1)
    (hn : n.natAbs = b32.unitsOf k) (hk : k < b32.infMag) : isFinite32 c = true ∧ units32 c = n := by
  have hround : b32.roundMag n.natAbs 1 = k := by
    have h := b32.roundMag_exact b32_frac k 1 one_pos
    rwa [mul_one, min_eq_right hk.le, ← hn] at h
  have hmag : b32.mag c.toNat = k := by rw [← key32_natAbs, hc, Fmt.roundSigned_natAbs, hround]
  have habs : (units32 c).natAbs = n.natAbs := by rw [units32_natAbs, hmag, hn]
  have hsign : units32 c < 0 ↔ key32 c < 0 := by
    rw [← key32_zero32, key32_lt_iff]
    rfl
  refine ⟨(isFinite32_iff c).mpr (hmag ▸ hk), ?_⟩
  rw [Fmt.roundSigned, hround] at hc
  obtain hneg | hpos := lt_or_ge n 0
  · have hne : k ≠ 0 := by
      rintro rfl
      rw [Fmt.unitsOf_zero] at hn
      omega
    rw [if_pos hneg] at hc
    omega
  · rw [if_neg hpos.not_gt] at hc
    omega

/-- Sterbenz's lemma: `-32` is exact on values neither of which is more than twice the other (so neither is negative). -/
theorem sub32_exact {a b : F32} (ha : isFinite32 a = true) (hb : isFinite32 b = true)
    (hab : units32 a ≤ 2 * units32 b) (hba : units32 b ≤ 2 * units32 a) :
    isFinite32 (sub32 a b) = true ∧ units32 (sub32 a b) = units32 a - units32 b := by
  have ua := units32_natAbs a
  have ub := units32_natAbs b
  have ma := (isFinite32_iff a).mp ha
  have mb := (isFinite32_iff b).mp hb
  obtain ⟨k, hk, hu⟩ : ∃ k < b32.infMag, (units32 a - units32 b).natAbs = b32.unitsOf k := by
    obtain hle | hle := Nat.le_total (b32.mag b.toNat) (b32.mag a.toNat)
    all_goals
      have hmono := b32.unitsOf_strictMono.monotone hle
      obtain ⟨k, hk, hu⟩ := b32.exists_unitsOf_sub hle (by omega)
      exact ⟨k, by omega, by omega⟩
  exact units32_of_key_eq_roundSigned (sub32_key ha hb).1 hu hk

end Sys2Proof.Machine
end

section
/-! The phase interval (R32) and the phase advance (R112): rounding keeps the sum below three times PI32, and the wrap's
subtraction is exact (R121). -/

namespace Sys2Proof.Machine

/-- `fl32(3 * PI32)`, the greatest sum of a phase and an increment (R121). -/
def threePi32 : F32 := 0x4116CBE4#32

theorem isFinite32_pi32 : isFinite32 pi32 = true := by decide

theorem isFinite32_twoPi32 : isFinite32 twoPi32 = true := by decide

theorem isFinite32_threePi32 : isFinite32 threePi32 = true := by decide

theorem negPi32_eq : negPi32 = neg32 pi32 := by decide

theorem units32_pi32_pos : 0 < units32 pi32 := by decide +kernel

theorem units32_twoPi32 : units32 twoPi32 = 2 * units32 pi32 := by decide +kernel

theorem roundSigned_three_pi : b32.roundSigned (3 * units32 pi32) 1 = key32 threePi32 := by decide +kernel

theorem units32_threePi32_bounds : units32 pi32 ≤ units32 threePi32 ∧ units32 threePi32 < 3 * units32 pi32 := by
  decide +kernel

theorem units32_le_of_le32 {a b : F32} (h : le32 a b = true) : units32 a ≤ units32 b :=
  (key32_le_iff a b).mp ((le32_iff a b).mp h).2.2

/-- What is no larger than a finite value is finite. -/
theorem isFinite32_of_natAbs_units_le {a b : F32} (hb : isFinite32 b = true)
    (h : (units32 a).natAbs ≤ (units32 b).natAbs) : isFinite32 a = true := by
  rw [units32_natAbs, units32_natAbs, b32.unitsOf_strictMono.le_iff_le] at h
  rw [isFinite32_iff] at hb ⊢
  omega

/-- The phase interval, in units. -/
theorem phaseOK_iff {p : F32} :
    phaseOK p = true ↔ isNaN32 p = false ∧ -units32 pi32 ≤ units32 p ∧ units32 p < units32 pi32 := by
  have hpi := isNaN32_of_isFinite32 isFinite32_pi32
  rw [phaseOK, Bool.and_eq_true, le32_iff, lt32_iff, negPi32_eq, isNaN32_neg32, key32_le_iff, key32_lt_iff, units32_neg32]
  tauto

theorem isFinite32_of_phaseOK {p : F32} (h : phaseOK p = true) : isFinite32 p = true := by
  obtain ⟨-, hlow, hhigh⟩ := phaseOK_iff.mp h
  exact isFinite32_of_natAbs_units_le isFinite32_pi32 (by omega)

/-- The legal increments, in units. -/
theorem incOK_bounds {n : F32} (h : incOK n = true) :
    isFinite32 n = true ∧ 0 ≤ units32 n ∧ units32 n < 2 * units32 pi32 := by
  rw [incOK, Bool.and_eq_true, Bool.and_eq_true, le32_iff, lt32_iff, key32_le_iff, key32_lt_iff, units32_twoPi32] at h
  obtain ⟨⟨hfin, -, -, hlow⟩, -, -, hhigh⟩ := h
  exact ⟨hfin, hlow, hhigh⟩

/-- Rounding keeps the sum of a phase and an increment in `[-PI32, 3 * PI32)`, since `fl32(3 * PI32)` is below the exact
`3 * PI32`. -/
theorem add32_phase_inc {p inc : F32} (hp : phaseOK p = true) (hi : incOK inc = true) :
    isFinite32 (add32 p inc) = true ∧ -units32 pi32 ≤ units32 (add32 p inc) ∧
      units32 (add32 p inc) < 3 * units32 pi32 := by
  obtain ⟨-, hplow, hphigh⟩ := phaseOK_iff.mp hp
  obtain ⟨hifin, hilow, hihigh⟩ := incOK_bounds hi
  obtain ⟨hkey, -⟩ := add32_key (isFinite32_of_phaseOK hp) hifin
  obtain ⟨hpi, hthree⟩ := units32_threePi32_bounds
  have hlow : key32 (neg32 pi32) ≤ key32 (add32 p inc) := by
    rw [hkey, ← roundSigned_units32 (neg32 pi32) rfl 1 one_pos, units32_neg32]
    exact b32.roundSigned_mono b32_frac one_pos one_pos (by omega)
  have hhigh : key32 (add32 p inc) ≤ key32 threePi32 := by
    rw [hkey, ← roundSigned_three_pi]
    exact b32.roundSigned_mono b32_frac one_pos one_pos (by omega)
  rw [key32_le_iff, units32_neg32] at hlow
  rw [key32_le_iff] at hhigh
  exact ⟨isFinite32_of_natAbs_units_le isFinite32_threePi32 (by omega), hlow, hhigh.trans_lt hthree⟩

/-- The subtraction of the wrap is exact: a sum that has reached PI32 lies between half of TWO_PI32 and twice it. -/
theorem sub32_twoPi32_exact {s : F32} (hs : isFinite32 s = true) (hwrap : le32 pi32 s = true)
    (hhigh : units32 s < 3 * units32 pi32) :
    isFinite32 (sub32 s twoPi32) = true ∧ units32 (sub32 s twoPi32) = units32 s - units32 twoPi32 := by
  have hpos := units32_pi32_pos
  have htwo := units32_twoPi32
  have hge := units32_le_of_le32 hwrap
  exact sub32_exact hs isFinite32_twoPi32 (by omega) (by omega)

/-- The wrap brings a sum of `[-PI32, 3 * PI32)` into the phase interval. -/
theorem phaseOK_wrapPhase {s : F32} (hs : isFinite32 s = true) (hlow : -units32 pi32 ≤ units32 s)
    (hhigh : units32 s < 3 * units32 pi32) : phaseOK (wrapPhase s) = true := by
  have htwo := units32_twoPi32
  rw [wrapPhase, phaseOK_iff]
  split
  next hwrap =>
    obtain ⟨hfin, hunits⟩ := sub32_twoPi32_exact hs hwrap hhigh
    have hge := units32_le_of_le32 hwrap
    exact ⟨isNaN32_of_isFinite32 hfin, by omega, by omega⟩
  next hkeep =>
    have hnan := isNaN32_of_isFinite32 hs
    rw [le32_iff, key32_le_iff] at hkeep
    exact ⟨hnan, hlow, not_le.mp fun hge => hkeep ⟨isNaN32_of_isFinite32 isFinite32_pi32, hnan, hge⟩⟩

/-- Settles O43: the rounded sum stays below three times PI32, and Sterbenz's lemma makes the wrap's subtraction exact. -/
theorem advanceKeepsPhaseInterval : Obligations.AdvanceKeepsPhaseInterval := by
  unfold Obligations.AdvanceKeepsPhaseInterval
  intro p inc hp hi
  obtain ⟨hs, hlow, hhigh⟩ := add32_phase_inc hp hi
  refine ⟨phaseOK_wrapPhase hs hlow hhigh, fun hwrap => ?_⟩
  obtain ⟨hfin, hunits⟩ := sub32_twoPi32_exact hs hwrap hhigh
  rw [value32_eq hfin, value32_eq hs, value32_eq isFinite32_twoPi32, hunits, Int.cast_sub, sub_div]

end Sys2Proof.Machine
end

section
/-! What each instruction does in a running block, one equation per case: the converses of the inversion lemmas of
Laws/Exec.lean. -/

namespace Sys2Proof.Machine

section Prepare

variable {s : State} {fs : F64} {mb : Word}

/-- PREPARE's check of both increments (R142), by Oscillator. -/
theorem prepareOK_both_iff :
    (s.osc.sine.prepareOK fs && s.osc.tri.prepareOK fs) = true ↔ ∀ w, incOK (incOf (s.osc.get w).freq fs) = true := by
  rw [Bool.and_eq_true]
  constructor
  · rintro ⟨hsine, htri⟩ (_ | _)
    · exact hsine
    · exact htri
  · intro h
    exact ⟨h .sine, h .tri⟩

theorem execPrepare_badRate (hr : Running s) (hfs : rateOK fs = false) :
    execPrepare fs mb s = .next (s.withFault .badRate) := by
  rw [execPrepare, live_of_running hr, hfs]
  rfl

theorem execPrepare_badInc (hr : Running s) (hfs : rateOK fs = true)
    (hinc : (s.osc.sine.prepareOK fs && s.osc.tri.prepareOK fs) = false) :
    execPrepare fs mb s = .next (s.withFault .badInc) := by
  rw [execPrepare, live_of_running hr, hfs, hinc]
  rfl

theorem execPrepare_writes (hr : Running s) (hfs : rateOK fs = true)
    (hinc : (s.osc.sine.prepareOK fs && s.osc.tri.prepareOK fs) = true) :
    execPrepare fs mb s = .next ((s.setOsc (s.osc.map fun _ o => o.prepare fs)).setRate fs mb) := by
  rw [execPrepare, live_of_running hr, hfs, hinc]
  rfl

end Prepare

section SetFreq

variable {s : State} {tgt : Target} {f : F32}

theorem execSetFreq_badInc (hr : Running s) (hf : freqOK f = true) (hp : s.prepared = true)
    (hinc : incOK (incOf f s.fs) = false) : execSetFreq tgt true f s = .next (s.withFault .badInc) := by
  rw [execSetFreq, live_of_running hr, hf, hp, hinc]
  rfl

theorem execSetFreq_immediate (hr : Running s) (hf : freqOK f = true)
    (hinc : s.prepared = true → incOK (incOf f s.fs) = true) :
    execSetFreq tgt true f s = .next (s.setOsc (s.osc.atTargets tgt (forceFreq s.prepared s.fs f))) := by
  have hcheck : (s.prepared && !incOK (incOf f s.fs)) = false := by
    cases hp : s.prepared with
    | false => rfl
    | true => rw [hinc hp]; rfl
  rw [execSetFreq, live_of_running hr, hf, hcheck]
  rfl

theorem execSetFreq_deferred (hr : Running s) (hf : freqOK f = true) :
    execSetFreq tgt false f s = .next (s.setOsc (s.osc.atTargets tgt fun o => o.request f)) := by
  rw [execSetFreq, live_of_running hr, hf]
  rfl

end SetFreq

section Process

variable {p : Params} {nch : BitVec 12} {nfr : BitVec 16} {xs : List F32} {s : State}

theorem processWith_notPrepared (hr : Running s) (hp : s.prepared = false) :
    processWith p nch nfr xs s = .next (s.withFault .notPrepared) := by
  rw [processWith, live_of_running hr, hp]
  rfl

theorem processWith_empty (hr : Running s) (hp : s.prepared = true) (hempty : emptyBlock nch nfr = true) :
    processWith p nch nfr xs s = .next s := by
  rw [processWith, live_of_running hr, hp, hempty]
  rfl

theorem processWith_badInc (hr : Running s) (hp : s.prepared = true) (hempty : emptyBlock nch nfr = false)
    (hadopt : adoptFreqOK s = false) : processWith p nch nfr xs s = .next (s.withFault .badInc) := by
  rw [processWith, live_of_running hr, hp, hempty, hadopt]
  rfl

theorem processWith_frames (hr : Running s) (hp : s.prepared = true) (hempty : emptyBlock nch nfr = false)
    (hadopt : adoptFreqOK s = true) :
    processWith p nch nfr xs s = .next (applyFrames p nch nfr xs (adoptWave (adoptFreq s))) := by
  rw [processWith, live_of_running hr, hp, hempty, hadopt]
  rfl

end Process

end Sys2Proof.Machine
end

section
/-! The empty block (R21, R155), and that an adoption in one could not be seen: with another waveform in CUR every packet
does the same to everything but CUR. -/

namespace Sys2Proof.Machine

theorem emptyBlock_eq_true {nch : BitVec 12} {nfr : BitVec 16} : emptyBlock nch nfr = true ↔ nch = 0 ∨ nfr = 0 := by
  simp [emptyBlock, BitVec.toNat_eq]

/-- Nothing a packet does depends on CUR but CUR itself: a block with frames first copies PEND to it. -/
theorem exec_setCur {i : Instr} {s t : State} (v : Wave) (h : exec i s = .next t) :
    ∃ w, exec i (s.setCur v) = .next (t.setCur w) := by
  cases i with
  | nop =>
    obtain ⟨hr, rfl⟩ := execNop_next.mp h
    exact ⟨v, execNop_next.mpr ⟨hr, rfl⟩⟩
  | prepare fs maxBlock =>
    obtain ⟨hr, ⟨hfs, rfl⟩ | ⟨hfs, hinc, rfl⟩ | ⟨hfs, hsine, htri, rfl⟩⟩ := execPrepare_next h
    · exact ⟨v, execPrepare_badRate hr hfs⟩
    · exact ⟨v, execPrepare_badInc hr hfs hinc⟩
    · exact ⟨v, execPrepare_writes hr hfs (Bool.and_eq_true_iff.mpr ⟨hsine, htri⟩)⟩
  | setFreq tgt force f =>
    obtain ⟨hr, ⟨hf, rfl⟩ | ⟨hf, rfl, hp, hinc, rfl⟩ | ⟨hf, rfl, hinc, rfl⟩ | ⟨hf, rfl, rfl⟩⟩ := execSetFreq_next h
    · exact ⟨v, execSetFreq_badFreq hr hf⟩
    · exact ⟨v, execSetFreq_badInc hr hf hp hinc⟩
    · exact ⟨v, execSetFreq_immediate hr hf hinc⟩
    · exact ⟨v, execSetFreq_deferred hr hf⟩
  | reset =>
    obtain ⟨hr, rfl⟩ := execReset_next.mp h
    exact ⟨v, execReset_next.mpr ⟨hr, rfl⟩⟩
  | setWave wf =>
    obtain ⟨hr, rfl⟩ := execSetWave_next.mp h
    exact ⟨v, execSetWave_next.mpr ⟨hr, rfl⟩⟩
  | process nch nfr xs =>
    obtain ⟨hr, ⟨hp, rfl⟩ | ⟨hp, hempty, rfl⟩ | ⟨hp, hempty, hadopt, rfl⟩ | ⟨hp, hempty, hadopt, rfl⟩⟩ :=
      processWith_next h
    · exact ⟨v, processWith_notPrepared hr hp⟩
    · exact ⟨v, processWith_empty hr hp hempty⟩
    · exact ⟨v, processWith_badInc hr hp hempty hadopt⟩
    · refine ⟨s.pend, (processWith_frames (s := s.setCur v) hr hp hempty hadopt).trans ?_⟩
      rw [applyFrames_adopted, applyFrames_adopted]
      rfl

theorem execAll_setCur {is : List Instr} {s t : State} (v : Wave) (h : execAll is s = .next t) :
    ∃ w, execAll is (s.setCur v) = .next (t.setCur w) := by
  induction is generalizing s v with
  | nil => exact ⟨v, execAll_nil_next.mpr (congrArg (State.setCur · v) (execAll_nil_next.mp h))⟩
  | cons i is ih =>
    obtain ⟨u, hi, his⟩ := execAll_cons_next.mp h
    obtain ⟨w, hi'⟩ := exec_setCur v hi
    obtain ⟨w', his'⟩ := ih w his
    exact ⟨w', execAll_cons_next.mpr ⟨_, hi', his'⟩⟩

/-- Settles O36: the empty block ends before the adoptions, and no packet's outcome but CUR depends on CUR. -/
theorem emptyBlockDoesNothing : Obligations.EmptyBlockDoesNothing := by
  unfold Obligations.EmptyBlockDoesNothing
  intro s nch nfr xs hr hp hempty
  have hexec : exec (.process nch nfr xs) s = .next s := processWith_empty hr hp (emptyBlock_eq_true.mpr hempty)
  refine ⟨hexec, fun is => by rw [execAll, hexec], fun is t hrun => ?_⟩
  obtain ⟨w, hrun'⟩ := execAll_setCur s.pend hrun
  exact ⟨t.setCur w, hrun', rfl⟩

end Sys2Proof.Machine
end

section
/-! A block that runs its frames: its writes (R145), and the phases for either ADVANCE_ALL (R157, R158). -/

namespace Sys2Proof.Machine

/-- A non-empty block that raises no fault has run its frames. -/
theorem processWith_ran {p : Params} {nch : BitVec 12} {nfr : BitVec 16} {xs : List F32} {s t : State} (hc : nch ≠ 0)
    (hf : nfr ≠ 0) (h : processWith p nch nfr xs s = .next t) (ht : t.fault = false) :
    t = applyFrames p nch nfr xs (adoptWave (adoptFreq s)) := by
  obtain ⟨-, ⟨-, rfl⟩ | ⟨-, hempty, -⟩ | ⟨-, -, -, rfl⟩ | ⟨-, -, -, hrun⟩⟩ := processWith_next h
  · cases ht
  · simp [emptyBlock_eq_false.mpr ⟨hc, hf⟩] at hempty
  · cases ht
  · exact hrun

/-- The phases after a block: the selected Oscillator, and with ADVANCE_ALL the other too, has advanced once a frame. -/
theorem applyFrames_phase (p : Params) (nch : BitVec 12) (nfr : BitVec 16) (xs : List F32) (s : State) (w : Wave) :
    ((applyFrames p nch nfr xs (adoptWave (adoptFreq s))).osc.get w).phase =
      if w = s.pend ∨ p.advanceAll = true then phaseAfter (blockInc s w) nfr.toNat (s.osc.get w).phase
      else (s.osc.get w).phase := by
  simp only [applyFrames_adopted, runFrames_bank, adopt_get]
  split <;> rfl

/-- Settles O40: the frames step the selected Oscillator alone when ADVANCE_ALL is false. -/
theorem unselectedOscillatorHolds : Obligations.UnselectedOscillatorHolds := by
  unfold Obligations.UnselectedOscillatorHolds
  intro p s t nch nfr xs hadv hc hf hrun ht
  obtain rfl := processWith_ran hc hf hrun ht
  refine ⟨by rw [applyFrames_adopted], fun w => ⟨fun hw => ?_, fun hw => ?_⟩⟩
  · rw [applyFrames_phase, if_pos (.inl hw)]
  · rw [applyFrames_phase, if_neg (by simp [hw, hadv])]

end Sys2Proof.Machine
end

section
/-! Packets of formats Z and W with no reserved bit set: what the decoder reads (R88, R89, R93, R100). -/

namespace Sys2Proof

variable {port : Port} {w : Word} {ws : List Word}

theorem decodeFault_eq_none (ho : ¬opcodeIllegal port w = true) (hr : ¬reservedViolated w = true)
    (hw : ¬waveIllegal w = true) : decodeFault port w = none := by
  rw [decodeFault, if_neg ho, if_neg hr, if_neg hw]

/-- NOP, PREPARE and RESET with no reserved bit set, on a port that accepts them, fail no check. -/
theorem decodeFault_formatZ (ho : opcOf w = 0 ∨ opcOf w = 1 ∨ opcOf w = 3) (hport : port = .c → opcOf w = 0)
    (hz : w.toNat % 2 ^ 28 = 0) : decodeFault port w = none := by
  refine decodeFault_eq_none ?_ ?_ ?_
  · rw [opcodeIllegal_iff]
    rintro (hopc | ⟨hc, hnop, -⟩)
    · omega
    · exact hnop (hport hc)
  · rw [reservedViolated_formatZ ho, decide_eq_true_eq]
    exact not_not.mpr hz
  · rw [waveIllegal_iff]
    omega

/-- SET_WAVE with no reserved bit set and WF at 0 or 1 fails no check, on either port. -/
theorem decodeFault_formatW (ho : opcOf w = 4) (hw : w.toNat % 2 ^ 28 < 2) : decodeFault port w = none := by
  refine decodeFault_eq_none ?_ ?_ ?_
  · rw [opcodeIllegal_iff]
    omega
  · rw [reservedViolated_formatW ho, decide_eq_true_eq]
    omega
  · rw [waveIllegal_iff]
    omega

/-- A packet of one word that fails no check. -/
theorem decode_of_none_zero (h : operandCount w = 0) (hd : decodeFault port w = none) :
    decode port (w :: ws) = .instr (instrOf w []) ws := by
  rw [decode_of_none (h ▸ Nat.zero_le ws.length) hd, h, List.take_zero, List.drop_zero]

theorem decode_nop (ho : opcOf w = 0) (hz : w.toNat % 2 ^ 28 = 0) : decode port (w :: ws) = .instr .nop ws := by
  rw [decode_of_none_zero (operandCount_other (by omega) (by omega) (by omega))
    (decodeFault_formatZ (.inl ho) (fun _ => ho) hz)]
  simp only [instrOf, ho]

theorem decode_prepare {lo hi mb : Word} (ho : opcOf w = 1) (hz : w.toNat % 2 ^ 28 = 0) :
    decode .a (w :: lo :: hi :: mb :: ws) = .instr (.prepare (joinWords lo hi) mb) ws := by
  have hn := operandCount_one ho
  rw [decode_of_none (by simp [hn]) (decodeFault_formatZ (port := .a) (.inr (.inl ho)) nofun hz), hn]
  simp only [instrOf, ho]
  rfl

theorem decode_reset (ho : opcOf w = 3) (hz : w.toNat % 2 ^ 28 = 0) : decode .a (w :: ws) = .instr .reset ws := by
  rw [decode_of_none_zero (operandCount_other (by omega) (by omega) (by omega))
    (decodeFault_formatZ (port := .a) (.inr (.inr ho)) nofun hz)]
  simp only [instrOf, ho]

theorem decode_setWave (ho : opcOf w = 4) (hw : w.toNat % 2 ^ 28 < 2) :
    decode port (w :: ws) = .instr (.setWave (waveOf (w.toNat % 2 ^ 28))) ws := by
  have hwf : wfOf w = w.toNat % 2 ^ 28 := by rw [wfOf_eq]; omega
  rw [decode_of_none_zero (operandCount_four ho) (decodeFault_formatW ho hw)]
  simp only [instrOf, ho, hwf]

end Sys2Proof
end

section
/-! NOP, PREPARE, RESET and SET_WAVE: what each does (R141 to R144), and how its packet decodes or is rejected. -/

namespace Sys2Proof.Machine

section Rejected

variable (port : Port) {w : Word} {ws : List Word}

/-- NOP, PREPARE and RESET with a reserved bit set, on a port that accepts them. -/
theorem rejects_reservedField_formatZ (ho : opcOf w = 0 ∨ opcOf w = 1 ∨ opcOf w = 3)
    (hport : port = .c → opcOf w = 0) (hlen : operandCount w ≤ ws.length) (hz : w.toNat % 2 ^ 28 ≠ 0) :
    Rejects port (w :: ws) .reservedField (ws.drop (operandCount w)) := by
  rw [opcOf_eq] at ho hport
  rw [← packetLength_sub_one]
  exact reservedFieldsRejected port w ws (packetLength_le_cons.mpr hlen) (fun hc => .inl (hport hc)) (.inl ⟨ho, hz⟩)

/-- SET_WAVE with a reserved bit set, on either port. -/
theorem rejects_reservedField_formatW (ho : opcOf w = 4) (hw : 4 ≤ w.toNat % 2 ^ 28) :
    Rejects port (w :: ws) .reservedField ws := by
  have hn := operandCount_four ho
  have hlen : packetLength w ≤ (w :: ws).length := packetLength_le_cons.mpr (hn ▸ Nat.zero_le _)
  rw [opcOf_eq] at ho
  have hrej := reservedFieldsRejected port w ws hlen (fun _ => .inr ho) (.inr (.inr ⟨ho, by omega⟩))
  rwa [packetLength_sub_one, hn, List.drop_zero] at hrej

/-- Every opcode but NOP and SET_WAVE, on port C. -/
theorem rejects_illegalOpcode_portC (hnop : opcOf w ≠ 0) (hwave : opcOf w ≠ 4) (hlen : operandCount w ≤ ws.length) :
    Rejects .c (w :: ws) .illegalOpcode (ws.drop (operandCount w)) := by
  rw [opcOf_eq] at hnop hwave
  rw [← packetLength_sub_one]
  exact (illegalOpcodesRejected w ws).2 hnop hwave (packetLength_le_cons.mpr hlen)

end Rejected

/-- Settles O23: NOP passes its check on both ports and does nothing; any of its 28 low bits is reserved. -/
theorem nopChangesNothing : Obligations.NopChangesNothing := by
  unfold Obligations.NopChangesNothing
  refine ⟨fun s hr => execNop_next.mpr ⟨hr, rfl⟩, fun port ws => ⟨decode_nop (by decide) (by decide), ?_⟩⟩
  intro w ho hz
  rw [← opcOf_eq] at ho
  have hn : operandCount w = 0 := operandCount_other (by omega) (by omega) (by omega)
  have hrej := rejects_reservedField_formatZ port (.inl ho) (fun _ => ho) (hn ▸ Nat.zero_le ws.length) hz
  rwa [hn, List.drop_zero] at hrej

/-- Settles O24: the rate's check, then both increments', then the writes; three operand words, the rate's low half
first. -/
theorem prepareWritesRateAndIncrements : Obligations.PrepareWritesRateAndIncrements := by
  unfold Obligations.PrepareWritesRateAndIncrements
  refine ⟨fun s fs mb hr => ⟨execPrepare_badRate hr, ?_, ?_⟩, fun w lo hi mb ws ho => ?_⟩
  · rintro hfs ⟨w, hw⟩
    refine execPrepare_badInc hr hfs (Bool.eq_false_iff.mpr fun hinc => ?_)
    simp [prepareOK_both_iff.mp hinc w] at hw
  · exact fun hfs hinc => execPrepare_writes hr hfs (prepareOK_both_iff.mpr hinc)
  · rw [← opcOf_eq] at ho
    have hn := operandCount_one ho
    have hlen : operandCount w ≤ (lo :: hi :: mb :: ws).length := by simp [hn]
    have hdrop : (lo :: hi :: mb :: ws).drop (operandCount w) = ws := by rw [hn]; rfl
    refine ⟨?_, decode_prepare ho, fun hz => ?_⟩
    · have hrej := rejects_illegalOpcode_portC (by omega) (by omega) hlen
      rwa [hdrop] at hrej
    · have hrej := rejects_reservedField_formatZ .a (.inr (.inl ho)) nofun hlen hz
      rwa [hdrop] at hrej

/-- Settles O26: RESET clears both phases and reads nothing; port A alone accepts it. -/
theorem resetClearsPhases : Obligations.ResetClearsPhases := by
  unfold Obligations.ResetClearsPhases
  refine ⟨fun s hr => execReset_next.mpr ⟨hr, rfl⟩, fun w ws ho => ?_⟩
  rw [← opcOf_eq] at ho
  have hn : operandCount w = 0 := operandCount_other (by omega) (by omega) (by omega)
  have hlen : operandCount w ≤ ws.length := hn ▸ Nat.zero_le ws.length
  refine ⟨?_, decode_reset ho, fun hz => ?_⟩
  · have hrej := rejects_illegalOpcode_portC (by omega) (by omega) hlen
    rwa [hn, List.drop_zero] at hrej
  · have hrej := rejects_reservedField_formatZ .a (.inr (.inr ho)) nofun hlen hz
    rwa [hn, List.drop_zero] at hrej

/-- Settles O27: SET_WAVE writes PEND; of its 28 low bits the two of WF are the waveform and the rest is reserved. -/
theorem setWaveWritesPend : Obligations.SetWaveWritesPend := by
  unfold Obligations.SetWaveWritesPend
  refine ⟨fun s w hr => execSetWave_next.mpr ⟨hr, rfl⟩, fun port w ws ho => ?_⟩
  rw [← opcOf_eq] at ho
  refine ⟨fun hw => ?_, fun hw => ?_, rejects_badWaveform port ho, rejects_reservedField_formatW port ho⟩
  · rw [decode_setWave ho (by omega), hw]
    rfl
  · rw [decode_setWave ho (by omega), hw]
    rfl

end Sys2Proof.Machine
end

section
/-! Precise faults (R176, R177): the cause a decoding fault names, and that an instruction or a step which ends faulted did
nothing but take the fault, the step after consuming the packet's words. -/

namespace Sys2Proof

/-- No check of R100 raises the code NONE. -/
theorem decodeFault_ne_none (port : Port) (w : Word) : decodeFault port w ≠ some .none := by
  rw [decodeFault]
  split_ifs <;> nofun

end Sys2Proof

namespace Sys2Proof.Machine

theorem fetch_bad_ne_none {s s1 : State} {c : Cause} (h : fetch s = .bad c s1) : c ≠ .none := by
  obtain ⟨p, -, -, rest, hne, hdec, -⟩ := fetch_bad h
  obtain ⟨w, ws, hq⟩ := List.exists_cons_of_ne_nil hne
  rw [hq] at hdec
  obtain ⟨-, -, hfault⟩ := decode_bad hdec
  rintro rfl
  exact decodeFault_ne_none p w hfault

/-- An instruction leaves FAULT at 0, or takes a fault with a cause and does nothing else. -/
theorem exec_fault_cases {i : Instr} {s t : State} (h : exec i s = .next t) :
    t.fault = false ∨ ∃ c, c ≠ .none ∧ t = s.withFault c := by
  cases i with
  | nop =>
    obtain ⟨⟨hs, -⟩, rfl⟩ := execNop_next.mp h
    exact .inl hs
  | prepare fs maxBlock =>
    obtain ⟨⟨hs, -⟩, ⟨-, rfl⟩ | ⟨-, -, rfl⟩ | ⟨-, -, -, rfl⟩⟩ := execPrepare_next h
    · exact .inr ⟨.badRate, nofun, rfl⟩
    · exact .inr ⟨.badInc, nofun, rfl⟩
    · exact .inl hs
  | setFreq tgt force f =>
    obtain ⟨⟨hs, -⟩, ⟨-, rfl⟩ | ⟨-, -, -, -, rfl⟩ | ⟨-, -, -, rfl⟩ | ⟨-, -, rfl⟩⟩ := execSetFreq_next h
    · exact .inr ⟨.badFreq, nofun, rfl⟩
    · exact .inr ⟨.badInc, nofun, rfl⟩
    · exact .inl hs
    · exact .inl hs
  | reset =>
    obtain ⟨⟨hs, -⟩, rfl⟩ := execReset_next.mp h
    exact .inl hs
  | setWave w =>
    obtain ⟨⟨hs, -⟩, rfl⟩ := execSetWave_next.mp h
    exact .inl hs
  | process nch nfr samples =>
    obtain ⟨⟨hs, -⟩, ⟨-, rfl⟩ | ⟨-, -, rfl⟩ | ⟨-, -, -, rfl⟩ | ⟨-, -, -, rfl⟩⟩ := processWith_next h
    · exact .inr ⟨.notPrepared, nofun, rfl⟩
    · exact .inl hs
    · exact .inr ⟨.badInc, nofun, rfl⟩
    · rw [applyFrames_adopted]
      exact .inl hs

/-- An instruction that ends faulted has taken a fault and done nothing else. -/
theorem exec_withFault {i : Instr} {s t : State} (h : exec i s = .next t) (ht : t.fault = true) :
    ∃ c, c ≠ .none ∧ t = s.withFault c :=
  (exec_fault_cases h).resolve_left (by simp [ht])

/-- A step that ends faulted has consumed a packet and taken a fault, and done nothing else. -/
theorem step_withFault {s t : State} (h : step s = .next t) (ht : t.fault = true) :
    ∃ p gs n ws c, c ≠ .none ∧ t = (State.setQueue { s with grants := gs, freeCount := n } p ws).withFault c := by
  obtain ⟨⟨hs, -⟩, ⟨-, rfl⟩ | ⟨c, s1, hbad, rfl⟩ | ⟨i, s1, hrun, hexec⟩⟩ := step_cases h
  · simp [hs] at ht
  · obtain ⟨p, gs, n, ws, -, -, rfl⟩ := fetch_bad hbad
    exact ⟨p, gs, n, ws, c, fetch_bad_ne_none hbad, rfl⟩
  · obtain ⟨p, gs, n, ws, -, -, rfl⟩ := fetch_run hrun
    obtain ⟨c, hc, rfl⟩ := exec_withFault hexec ht
    exact ⟨p, gs, n, ws, c, hc, rfl⟩

/-- Settles O21: what ends faulted has taken a fault and, in a step, consumed the packet's words, which are no register. -/
theorem faultsArePrecise : Obligations.FaultsArePrecise := by
  unfold Obligations.FaultsArePrecise
  refine ⟨fun i s t h ht => ?_, fun s t h ht => ?_⟩
  · obtain ⟨c, hc, rfl⟩ := exec_withFault h ht
    exact ⟨rfl, hc⟩
  · obtain ⟨p, gs, n, ws, c, hc, rfl⟩ := step_withFault h ht
    simp [hc]

end Sys2Proof.Machine
end

section
/-! The legal sample rates by their encodings (R178), and what PREPARE does with a rate whose increment overflows. -/

namespace Sys2Proof.Machine

theorem key64_zero64 : key64 zero64 = 0 := rfl

/-- A key is positive exactly when the sign bit is clear and the encoding is not that of +0.0. -/
theorem key64_pos_iff {a : F64} : 0 < key64 a ↔ 0 < a.toNat ∧ a.toNat < 2 ^ 63 := by
  have ha := a.isLt
  rw [key64, Fmt.key_eq, Fmt.mag, Fmt.neg, b64_signWeight]
  split
  next hneg =>
    rw [beq_iff_eq] at hneg
    omega
  next hpos =>
    rw [beq_iff_eq] at hpos
    omega

theorem isNaN64_of_isFinite64 {a : F64} (h : isFinite64 a = true) : b64.isNaN a.toNat = false := by
  rw [isFinite64_iff] at h
  simpa [Fmt.isNaN] using h.le

theorem rateOK_iff {fs : F64} : rateOK fs = true ↔ 0 < fs.toNat ∧ fs.toNat < 0x7FF0000000000000 := by
  have hfin : isFinite64 fs = true ↔ fs.toNat % 2 ^ 63 < 0x7FF0000000000000 := isFinite64_iff fs
  rw [rateOK, Bool.and_eq_true, lt64_iff, key64_zero64, key64_pos_iff]
  constructor
  · rintro ⟨hmag, -, -, hpos, hsign⟩
    exact ⟨hpos, Nat.mod_eq_of_lt hsign ▸ hfin.mp hmag⟩
  · rintro ⟨hpos, hlt⟩
    have hmag : isFinite64 fs = true := hfin.mpr (by omega)
    exact ⟨hmag, rfl, isNaN64_of_isFinite64 hmag, hpos, by omega⟩

theorem incOK_of_not_finite {n : F32} (h : isFinite32 n = false) : incOK n = false := by
  rw [incOK, h]
  rfl

/-- Settles O25: the encodings by sign and magnitude; PREPARE checks its rate first, and an increment that overflows is no
legal one. -/
theorem illegalRatesRejected : Obligations.IllegalRatesRejected := by
  unfold Obligations.IllegalRatesRejected
  refine ⟨fun _ => rateOK_iff, fun s fs mb hr => ?_⟩
  obtain ⟨hbadRate, hbadInc, -⟩ := prepareWritesRateAndIncrements.1 s fs mb hr
  exact ⟨hbadRate, fun hfs ⟨w, hw⟩ => hbadInc hfs ⟨w, incOK_of_not_finite hw⟩⟩

end Sys2Proof.Machine
end

section
/-! PROCESS in a block that is not prepared (R175). -/

namespace Sys2Proof.Machine

/-- Settles O35: whether the block is prepared is the first check of PROCESS, before the packet's counts are read. -/
theorem processNeedsPrepare : Obligations.ProcessNeedsPrepare := by
  unfold Obligations.ProcessNeedsPrepare
  exact fun _ _ _ _ hr hp => processWith_notPrepared hr hp

end Sys2Proof.Machine
end

section
/-! Decoding an encoding, and encoding what was decoded (R85 to R100): the fields of a command word determine it. -/

namespace Sys2Proof

/-! From an instruction to its words and back. -/

theorem operandCount_commandWord {i : Instr} (h : i.WellFormed) :
    operandCount (commandWord i) = (operandWords i).length := by
  have hlen : (encode i).length = packetLength (commandWord i) := by
    cases i with
    | nop => exact Laws.EncodeLength.nop h
    | prepare fs maxBlock => exact Laws.EncodeLength.prepare fs maxBlock h
    | setFreq tgt force f => exact Laws.EncodeLength.setFreq tgt force f h
    | reset => exact Laws.EncodeLength.reset h
    | setWave wf => exact Laws.EncodeLength.setWave wf h
    | process nch nfr samples => exact Laws.EncodeLength.process nch nfr samples h
  rw [packetLength_eq, encode, List.length_cons] at hlen
  omega

theorem instrOf_commandWord (i : Instr) : instrOf (commandWord i) (operandWords i) = i := by
  cases i with
  | nop => rfl
  | prepare fs maxBlock =>
    have ho : opcOf (formatZ 1) = 1 := opcOf_formatZ 1
    simp only [commandWord, instrOf, ho]
    exact congrArg (Instr.prepare · maxBlock) (joinWords_halves fs)
  | setFreq tgt force f =>
    simp only [commandWord, instrOf, opcOf_formatF, tgtOf_formatF, forceOf_formatF]
    cases tgt <;> rfl
  | reset => rfl
  | setWave wf => cases wf <;> rfl
  | process nch nfr samples =>
    simp only [commandWord, instrOf, opcOf_formatP, nchOf_formatP, nfrOf_formatP, operandWords]

/-- Format P reserves nothing (R94), and port A accepts its opcode. -/
theorem decodeFault_formatP (c : BitVec 12) (k : BitVec 16) : decodeFault .a (formatP c k) = none := by
  have ho := opcOf_formatP c k
  refine decodeFault_eq_none ?_ ?_ ?_
  · rw [opcodeIllegal_iff, ho]
    decide
  · simp only [reservedViolated, ho]
    decide
  · rw [waveIllegal_iff, ho]
    omega

theorem decodeFault_commandWord (i : Instr) : decodeFault .a (commandWord i) = none := by
  cases i with
  | nop => rfl
  | prepare fs maxBlock => exact (by decide : decodeFault .a (formatZ 1) = none)
  | setFreq tgt force f =>
    show decodeFault .a (formatF (targetCode tgt) force) = none
    cases tgt <;> cases force <;> decide
  | reset => rfl
  | setWave wf => cases wf <;> rfl
  | process nch nfr samples => exact decodeFault_formatP nch nfr

/-- A well-formed instruction decodes from its words on every port that accepts its command word. -/
theorem decode_encode_append {port : Port} {i : Instr} (hi : i.WellFormed)
    (hport : decodeFault port (commandWord i) = none) (rest : List Word) : decode port (encode i ++ rest) = .instr i rest := by
  have hn := operandCount_commandWord hi
  rw [encode, List.cons_append, decode_of_none (by simp [hn]) hport, hn, List.take_left, List.drop_left,
    instrOf_commandWord]

/-- Settles O5: no command word of an encoding fails a check, and each field is read back. -/
theorem decodeOfEncode : Obligations.DecodeOfEncode := by
  unfold Obligations.DecodeOfEncode
  intro i rest hi
  refine ⟨decode_encode_append hi (decodeFault_commandWord i) rest, ?_⟩
  rintro (rfl | ⟨w, rfl⟩)
  · exact decode_encode_append hi rfl rest
  · exact decode_encode_append hi (by cases w <;> rfl) rest

/-! From words to an instruction and back. -/

theorem formatZ_toNat (o : BitVec 4) : (formatZ o).toNat = o.toNat * 2 ^ 28 := by revert o; decide

theorem formatF_toNat (t : BitVec 2) (b : Bool) : (formatF t b).toNat = 2 * 2 ^ 28 + t.toNat * 2 + b.toNat := by
  revert t b; decide

theorem formatW_toNat (w : BitVec 2) : (formatW w).toNat = 4 * 2 ^ 28 + w.toNat := by revert w; decide

theorem targetCode_targetOf {n : Nat} (h : n < 3) : (targetCode (targetOf n)).toNat = n := by
  interval_cases n <;> rfl

theorem waveCode_waveOf {n : Nat} (h : n < 2) : (waveCode (waveOf n)).toNat = n := by
  interval_cases n <;> rfl

theorem forceOf_toNat (w : Word) : (forceOf w).toNat = w.toNat % 2 := by
  rw [forceOf, BitVec.getLsbD, Nat.testBit_zero]
  obtain h | h := Nat.mod_two_eq_zero_or_one w.toNat <;> simp [h]

/-- The three checks of R100 that a packet which decodes has passed. -/
theorem decodeFault_none {port : Port} {w : Word} (h : decodeFault port w = none) :
    ¬opcodeIllegal port w = true ∧ ¬reservedViolated w = true ∧ ¬waveIllegal w = true := by
  rw [decodeFault] at h
  split_ifs at h with h1 h2 h3
  exact ⟨h1, h2, h3⟩

theorem joinWords_lo (lo hi : Word) : (joinWords lo hi).extractLsb' 0 32 = lo := by
  have hlo := lo.isLt
  apply BitVec.eq_of_toNat_eq
  rw [BitVec.extractLsb'_toNat, joinWords_toNat, Nat.shiftRight_zero]
  omega

theorem joinWords_hi (lo hi : Word) : (joinWords lo hi).extractLsb' 32 32 = hi := by
  have hlo := lo.isLt
  have hhi := hi.isLt
  apply BitVec.eq_of_toNat_eq
  rw [BitVec.extractLsb'_toNat, joinWords_toNat, Nat.shiftRight_eq_div_pow]
  omega

/-! What a word that fails no check is, opcode by opcode. -/

section Fields

variable {port : Port} {w : Word}

theorem eq_formatZ {o : BitVec 4} (ho : opcOf w = o.toNat) (hz : w.toNat % 2 ^ 28 = 0) : formatZ o = w := by
  rw [opcOf_eq] at ho
  apply BitVec.eq_of_toNat_eq
  rw [formatZ_toNat]
  omega

theorem eq_formatF (ho : opcOf w = 2) (hf : ¬(w.toNat % 2 ^ 28 / 2 ^ 3 ≠ 0 ∨ w.toNat / 2 % 4 = 3)) :
    formatF (targetCode (targetOf (tgtOf w))) (forceOf w) = w := by
  rw [opcOf_eq] at ho
  have htgt := tgtOf_eq w
  apply BitVec.eq_of_toNat_eq
  rw [formatF_toNat, targetCode_targetOf (by omega), forceOf_toNat]
  omega

theorem eq_formatW (ho : opcOf w = 4) (hr : w.toNat % 2 ^ 28 / 2 ^ 2 = 0) (hw : w.toNat % 4 < 2) :
    formatW (waveCode (waveOf (wfOf w))) = w := by
  rw [opcOf_eq] at ho
  apply BitVec.eq_of_toNat_eq
  rw [formatW_toNat, wfOf_eq, waveCode_waveOf hw]
  omega

theorem eq_formatP (ho : opcOf w = 5) : formatP (nchOf w) (nfrOf w) = w := by
  rw [opcOf_eq] at ho
  apply BitVec.eq_of_toNat_eq
  rw [formatP_toNat, nchOf_eq, nfrOf_eq]
  omega

/-- A packet that decodes is well-formed, and its words are the encoding of what it decodes to. -/
theorem encode_instrOf {ws : List Word} (h : decodeFault port w = none) (hlen : ws.length = operandCount w) :
    (instrOf w ws).WellFormed ∧ encode (instrOf w ws) = w :: ws := by
  obtain ⟨hopc, hres, hwave⟩ := decodeFault_none h
  rw [opcodeIllegal_iff] at hopc
  rw [waveIllegal_iff] at hwave
  obtain ho | ho | ho | ho | ho | ho :
      opcOf w = 0 ∨ opcOf w = 1 ∨ opcOf w = 2 ∨ opcOf w = 3 ∨ opcOf w = 4 ∨ opcOf w = 5 := by omega
  · rw [reservedViolated_formatZ (.inl ho), decide_eq_true_eq, not_not] at hres
    rw [operandCount_other (by omega) (by omega) (by omega), List.length_eq_zero_iff] at hlen
    simp only [instrOf, ho]
    exact ⟨rfl, congrArg₂ List.cons (eq_formatZ ho hres) hlen.symm⟩
  · rw [reservedViolated_formatZ (.inr (.inl ho)), decide_eq_true_eq, not_not] at hres
    rw [operandCount_one ho] at hlen
    obtain ⟨lo, hi, mb, rfl⟩ := List.length_eq_three.mp hlen
    simp only [instrOf, ho]
    refine ⟨rfl, congrArg₂ List.cons (eq_formatZ ho hres) ?_⟩
    exact congrArg₂ (fun x y => [x, y, mb]) (joinWords_lo lo hi) (joinWords_hi lo hi)
  · rw [reservedViolated_formatF ho, decide_eq_true_eq] at hres
    rw [operandCount_two ho] at hlen
    obtain ⟨f, rfl⟩ := List.length_eq_one_iff.mp hlen
    simp only [instrOf, ho]
    exact ⟨rfl, congrArg (List.cons · [f]) (eq_formatF ho hres)⟩
  · rw [reservedViolated_formatZ (.inr (.inr ho)), decide_eq_true_eq, not_not] at hres
    rw [operandCount_other (by omega) (by omega) (by omega), List.length_eq_zero_iff] at hlen
    simp only [instrOf, ho]
    exact ⟨rfl, congrArg₂ List.cons (eq_formatZ ho hres) hlen.symm⟩
  · rw [reservedViolated_formatW ho, decide_eq_true_eq, not_not] at hres
    rw [operandCount_four ho, List.length_eq_zero_iff] at hlen
    simp only [instrOf, ho]
    exact ⟨rfl, congrArg₂ List.cons (eq_formatW ho hres (by omega)) hlen.symm⟩
  · rw [operandCount_five ho] at hlen
    simp only [instrOf, ho]
    exact ⟨beq_iff_eq.mpr hlen, congrArg (List.cons · ws) (eq_formatP ho)⟩

/-- A word that port C accepts carries NOP or SET_WAVE (R72). -/
theorem instrOf_portC (ws : List Word) (h : decodeFault .c w = none) :
    instrOf w ws = .nop ∨ ∃ v, instrOf w ws = .setWave v := by
  obtain ⟨hopc, -, -⟩ := decodeFault_none h
  rw [opcodeIllegal_iff] at hopc
  obtain ho | ho : opcOf w = 0 ∨ opcOf w = 4 := by
    by_contra! hne
    exact hopc (.inr ⟨rfl, hne⟩)
  · exact .inl (by simp only [instrOf, ho])
  · exact .inr ⟨waveOf (wfOf w), by simp only [instrOf, ho]⟩

end Fields

/-- Settles O6: the checks leave no bit of the command word free that a field does not hold. -/
theorem encodeOfDecode : Obligations.EncodeOfDecode := by
  unfold Obligations.EncodeOfDecode
  intro port ws rest i h
  cases ws with
  | nil => cases h
  | cons w ws =>
    obtain ⟨hws, hlen, rfl, hnone⟩ := decode_instr h
    obtain ⟨hwf, henc⟩ := encode_instrOf hnone (List.length_take_of_le hlen)
    refine ⟨hwf, ?_, ?_⟩
    · rw [henc, List.cons_append, ← hws]
    · rintro rfl
      exact instrOf_portC _ hnone

/-- Port A reads back a PROCESS packet, its words written out. -/
theorem decode_process {w : Word} {nch : BitVec 12} {nfr : BitVec 16} {xs : List F32} (hw : w = formatP nch nfr)
    (hlen : xs.length = nch.toNat * nfr.toNat) : decode .a (w :: xs) = .instr (.process nch nfr xs) [] := by
  have h := (decodeOfEncode (.process nch nfr xs) [] (beq_iff_eq.mpr hlen)).1
  rw [List.append_nil] at h
  rw [hw]
  exact h

/-- Settles O4: the PROCESS packets with any samples are encodings; every other example is read by evaluation. -/
theorem encodingExamplesDecode : Obligations.EncodingExamplesDecode := by
  unfold Obligations.EncodingExamplesDecode
  refine ⟨by decide, by decide, by decide, by decide, by decide, by decide, by decide, by decide, by decide, by decide,
    by decide, by decide, ?_, ?_, by decide, by decide, by decide, by decide⟩
  · exact decode_process (by decide) List.length_replicate
  · exact fun a b c d e f => decode_process (by decide) rfl
end Sys2Proof
end

section
/-! The invariant of R47: power-on reset meets it, and each packet, so each step, keeps it. -/

namespace Sys2Proof.Machine

/-! The invariant, by Oscillator. -/

theorem Inv.osc {s : State} (h : Inv s) (w : Wave) : OscInv s.prepared s.fs (s.osc.get w) := by
  cases w
  · exact h.sine
  · exact h.tri

/-- Rewriting the Oscillators keeps the invariant when each is still as R47 says. -/
theorem Inv.setOsc {s : State} (h : Inv s) {b : Bank} (hb : ∀ w, OscInv s.prepared s.fs (b.get w)) : Inv (s.setOsc b) :=
  ⟨hb .sine, hb .tri, h.rate, h.depth, h.cause⟩

/-- Taking a fault keeps the invariant when it names a cause (R44). -/
theorem Inv.withFault {s : State} (h : Inv s) {c : Cause} (hc : c ≠ .none) : Inv (s.withFault c) :=
  ⟨h.sine, h.tri, h.rate, h.depth, by simp [hc]⟩

/-- The invariant speaks of registers alone, so consuming a packet keeps it. -/
theorem Inv.consume {s : State} (h : Inv s) (gs : List Port) (n : Nat) (p : Port) (ws : List Word) :
    Inv (State.setQueue { s with grants := gs, freeCount := n } p ws) := by
  cases p <;> exact ⟨h.sine, h.tri, h.rate, h.depth, h.cause⟩

theorem phaseOK_zero32 : phaseOK zero32 = true := by decide

/-! The Oscillators' writes. -/

section Oscillators

variable {prepared : Bool} {fs : F64} {o : Oscillator}

/-- A new rate whose increment is legal (R119). -/
theorem OscInv.prepare (h : OscInv prepared fs o) {fs' : F64} (hinc : o.prepareOK fs' = true) :
    OscInv true fs' (o.prepare fs') :=
  ⟨h.phase, h.freq, h.freqTgt, fun _ => ⟨rfl, hinc⟩⟩

theorem OscInv.clearPhase (h : OscInv prepared fs o) : OscInv prepared fs o.clearPhase :=
  ⟨phaseOK_zero32, h.freq, h.freqTgt, h.inc⟩

theorem OscInv.request (h : OscInv prepared fs o) {f : F32} (hf : freqOK f = true) : OscInv prepared fs (o.request f) :=
  ⟨h.phase, h.freq, hf, h.inc⟩

theorem OscInv.forceFreq (h : OscInv prepared fs o) {f : F32} (hf : freqOK f = true)
    (hinc : prepared = true → incOK (incOf f fs) = true) : OscInv prepared fs (forceFreq prepared fs f o) := by
  cases prepared with
  | false => exact ⟨h.phase, hf, h.freqTgt, nofun⟩
  | true => exact ⟨h.phase, hf, h.freqTgt, fun _ => ⟨rfl, hinc rfl⟩⟩

theorem phaseOK_phaseAfter {ph inc : F32} (hph : phaseOK ph = true) (hinc : incOK inc = true) (n : Nat) :
    phaseOK (phaseAfter inc n ph) = true := by
  induction n generalizing ph with
  | zero => exact hph
  | succ n ih => exact ih (advanceKeepsPhaseInterval ph inc hph hinc).1

/-- Phase advances of a prepared block (R121). -/
theorem OscInv.stepMany (h : OscInv true fs o) (k : Nat) : OscInv true fs (stepMany k o) :=
  ⟨phaseOK_phaseAfter h.phase (h.inc rfl).2 k, h.freq, h.freqTgt, h.inc⟩

end Oscillators

/-- A write of SET_FREQ, to each Oscillator. -/
theorem Bank.get_atTargets (tgt : Target) (g : Oscillator → Oscillator) (b : Bank) (w : Wave) :
    (b.atTargets tgt g).get w = if addresses tgt w then g (b.get w) else b.get w := Bank.get_map _ b w

/-- The checks of `AdoptFreq` (R124), by Oscillator. -/
theorem adoptFreqOK_iff {s : State} : adoptFreqOK s = true ↔
    ∀ w, (s.osc.get w).freqPend = true → incOK (incOf (s.osc.get w).freqTgt s.fs) = true := by
  have hosc (w : Wave) : (s.osc.get w).adoptOK s.fs = true ↔
      ((s.osc.get w).freqPend = true → incOK (incOf (s.osc.get w).freqTgt s.fs) = true) := by
    cases h : (s.osc.get w).freqPend <;> simp [Oscillator.adoptOK, h]
  rw [adoptFreqOK, Bool.and_eq_true]
  constructor
  · rintro ⟨hsine, htri⟩ (_ | _)
    · exact (hosc .sine).mp hsine
    · exact (hosc .tri).mp htri
  · exact fun h => ⟨(hosc .sine).mpr (h .sine), (hosc .tri).mpr (h .tri)⟩

/-- The Oscillator a block's frames start from (R124). -/
theorem Inv.adopted {s : State} (h : Inv s) (hp : s.prepared = true) (hadopt : adoptFreqOK s = true) (w : Wave) :
    OscInv true s.fs ((s.osc.map fun _ o => o.adopt s.fs).get w) := by
  obtain ⟨hphase, hfreq, htgt, hinc⟩ := h.osc w
  rw [adopt_get]
  cases hpend : (s.osc.get w).freqPend with
  | false =>
    simp only [blockFreq, blockInc, hpend]
    exact ⟨hphase, hfreq, htgt, fun _ => hinc hp⟩
  | true =>
    simp only [blockFreq, blockInc, hpend]
    exact ⟨hphase, htgt, htgt, fun _ => ⟨rfl, adoptFreqOK_iff.mp hadopt w hpend⟩⟩

/-- A block's frames (R145), for every value of the parameters. -/
theorem Inv.applyFrames {s : State} (h : Inv s) (hp : s.prepared = true) (hadopt : adoptFreqOK s = true) (p : Params)
    (nch : BitVec 12) (nfr : BitVec 16) (xs : List F32) :
    Inv (applyFrames p nch nfr xs (adoptWave (adoptFreq s))) := by
  have hosc (w : Wave) : OscInv s.prepared s.fs ((runFrames p s.pend s.depth nch.toNat nfr.toNat s.freeCount xs
      (s.osc.map fun _ o => o.adopt s.fs)).2.get w) := by
    rw [runFrames_bank, hp]
    split
    · exact (h.adopted hp hadopt w).stepMany nfr.toNat
    · exact h.adopted hp hadopt w
  rw [applyFrames_adopted]
  exact ⟨hosc .sine, hosc .tri, h.rate, h.depth, h.cause⟩

/-- PROCESS keeps the invariant, for every value of the parameters. -/
theorem processWith_keeps_inv {p : Params} {nch : BitVec 12} {nfr : BitVec 16} {xs : List F32} {s t : State} (h : Inv s)
    (ht : processWith p nch nfr xs s = .next t) : Inv t := by
  obtain ⟨-, ⟨-, rfl⟩ | ⟨-, -, rfl⟩ | ⟨-, -, -, rfl⟩ | ⟨hp, -, hadopt, rfl⟩⟩ := processWith_next ht
  · exact h.withFault nofun
  · exact h
  · exact h.withFault nofun
  · exact h.applyFrames hp hadopt p nch nfr xs

/-- Every instruction keeps the invariant. -/
theorem exec_keeps_inv {i : Instr} {s t : State} (h : Inv s) (ht : exec i s = .next t) : Inv t := by
  cases i with
  | nop =>
    obtain ⟨-, rfl⟩ := execNop_next.mp ht
    exact h
  | prepare fs maxBlock =>
    obtain ⟨-, ⟨-, rfl⟩ | ⟨-, -, rfl⟩ | ⟨hfs, hsine, htri, rfl⟩⟩ := execPrepare_next ht
    · exact h.withFault nofun
    · exact h.withFault nofun
    · exact ⟨h.sine.prepare hsine, h.tri.prepare htri, fun _ => hfs, h.depth, h.cause⟩
  | setFreq tgt force f =>
    obtain ⟨-, ⟨-, rfl⟩ | ⟨-, -, -, -, rfl⟩ | ⟨hf, -, hinc, rfl⟩ | ⟨hf, -, rfl⟩⟩ := execSetFreq_next ht
    · exact h.withFault nofun
    · exact h.withFault nofun
    · refine h.setOsc fun w => ?_
      rw [Bank.get_atTargets]
      split
      · exact (h.osc w).forceFreq hf hinc
      · exact h.osc w
    · refine h.setOsc fun w => ?_
      rw [Bank.get_atTargets]
      split
      · exact (h.osc w).request hf
      · exact h.osc w
  | reset =>
    obtain ⟨-, rfl⟩ := execReset_next.mp ht
    exact ⟨h.sine.clearPhase, h.tri.clearPhase, h.rate, h.depth, h.cause⟩
  | setWave wf =>
    obtain ⟨-, rfl⟩ := execSetWave_next.mp ht
    exact ⟨h.sine, h.tri, h.rate, h.depth, h.cause⟩
  | process nch nfr samples => exact processWith_keeps_inv h ht

/-- Settles O52: a step waits, takes a decoding fault or runs an instruction, after consuming words, which are no
register. -/
theorem stepKeepsInvariant : Obligations.StepKeepsInvariant := by
  unfold Obligations.StepKeepsInvariant
  intro s t h ht
  obtain ⟨-, ⟨-, rfl⟩ | ⟨c, s1, hbad, rfl⟩ | ⟨i, s1, hrun, hexec⟩⟩ := step_cases ht
  · exact h
  · have hc := fetch_bad_ne_none hbad
    obtain ⟨p, gs, n, ws, -, -, rfl⟩ := fetch_bad hbad
    exact (h.consume gs n p ws).withFault hc
  · obtain ⟨p, gs, n, ws, -, -, rfl⟩ := fetch_run hrun
    exact exec_keeps_inv (h.consume gs n p ws) hexec

/-! Power-on reset. -/

theorem inv_resetWith {p : Params} (hd : depthOK p.depth = true) (hf : freqOK p.defaultFreq = true) :
    Inv (State.resetWith p) :=
  have hosc : OscInv false 0x0000000000000000#64 (Oscillator.powerOn p.defaultFreq) := ⟨phaseOK_zero32, hf, hf, nofun⟩
  ⟨hosc, hosc, nofun, hd, by simp [State.resetWith]⟩

/-- Settles O1: the fields of `State.resetWith`. -/
theorem powerOnSetsEveryRegister : Obligations.PowerOnSetsEveryRegister := by
  unfold Obligations.PowerOnSetsEveryRegister
  refine fun p => ⟨fun w => ?_, rfl, rfl, rfl, rfl, rfl, rfl, rfl⟩
  cases w <;> rfl

/-- Settles O2: `params` holds the defaults, and both checks evaluate. -/
theorem resetTakesDefaultParameters : Obligations.ResetTakesDefaultParameters := by
  unfold Obligations.ResetTakesDefaultParameters
  refine ⟨rfl, rfl, fun w => ?_, rfl, rfl, by decide, by decide⟩
  cases w <;> rfl

/-- Settles O3: a legal DEFAULT_FREQ is in FREQ and FREQ_TGT, the phases are 0, and the block is not prepared. -/
theorem resetMeetsInvariant : Obligations.ResetMeetsInvariant := by
  unfold Obligations.ResetMeetsInvariant
  exact ⟨inv_resetWith (by decide) (by decide), fun _ => inv_resetWith⟩

end Sys2Proof.Machine
end

section
/-! Every instruction in one equation: the fault it raises, if its preconditions fail (R170), and otherwise the state it
writes. What an instruction keeps (R50), repeats (R79) and depends on (R38, R159) are facts about these two. -/

namespace Sys2Proof.Machine

/-- The fault an instruction raises in a running block, the first of its checks that fails (R142, R123, R145). -/
def faultOf : Instr → State → Option Cause
  | .nop, _ => none
  | .prepare fs _, s =>
    if !rateOK fs then some .badRate
    else if !(s.osc.sine.prepareOK fs && s.osc.tri.prepareOK fs) then some .badInc else none
  | .setFreq _ force f, s =>
    if !freqOK f then some .badFreq
    else if force then if s.prepared && !incOK (incOf f s.fs) then some .badInc else none
    else none
  | .reset, _ => none
  | .setWave _, _ => none
  | .process nch nfr _, s =>
    if !s.prepared then some .notPrepared
    else if emptyBlock nch nfr then none
    else if !adoptFreqOK s then some .badInc else none

/-- What SET_FREQ does to an Oscillator it addresses (R123). -/
def freqWrite (force : Bool) (f : F32) (s : State) : Oscillator → Oscillator :=
  if force then forceFreq s.prepared s.fs f else fun o => o.request f

/-- The state an instruction leaves when it raises no fault. -/
def written : Instr → State → State
  | .nop, s => s
  | .prepare fs mb, s => (s.setOsc (s.osc.map fun _ o => o.prepare fs)).setRate fs mb
  | .setFreq tgt force f, s => s.setOsc (s.osc.atTargets tgt (freqWrite force f s))
  | .reset, s => s.setOsc (s.osc.map fun _ o => o.clearPhase)
  | .setWave wf, s => s.setPend wf
  | .process nch nfr xs, s =>
    if emptyBlock nch nfr then s else applyFrames params nch nfr xs (adoptWave (adoptFreq s))

/-- The state an instruction leaves in a running block. -/
def applied (i : Instr) (s : State) : State := (faultOf i s).elim (written i s) s.withFault

theorem applied_of_fault {i : Instr} {s : State} {c : Cause} (h : faultOf i s = some c) :
    applied i s = s.withFault c := by
  rw [applied, h, Option.elim_some]

theorem applied_of_no_fault {i : Instr} {s : State} (h : faultOf i s = none) : applied i s = written i s := by
  rw [applied, h, Option.elim_none]

theorem exec_of_running {s : State} (hr : Running s) (i : Instr) : exec i s = .next (applied i s) := by
  cases i with
  | nop => exact execNop_next.mpr ⟨hr, rfl⟩
  | prepare fs mb =>
    show execPrepare fs mb s = _
    rw [execPrepare, live_of_running hr, applied, faultOf]
    split_ifs <;> rfl
  | setFreq tgt force f =>
    show execSetFreq tgt force f s = _
    rw [execSetFreq, live_of_running hr, applied, faultOf, written, freqWrite]
    split_ifs <;> rfl
  | reset => exact execReset_next.mpr ⟨hr, rfl⟩
  | setWave wf => exact execSetWave_next.mpr ⟨hr, rfl⟩
  | process nch nfr xs =>
    show processWith params nch nfr xs s = _
    rw [processWith, live_of_running hr, applied, faultOf, written]
    split_ifs <;> rfl

/-- An instruction answers a next state in a running block alone. -/
theorem running_of_exec {i : Instr} {s t : State} (h : exec i s = .next t) : Running s := by
  cases i with
  | nop => exact (execNop_next.mp h).1
  | prepare fs mb => exact (execPrepare_next h).1
  | setFreq tgt force f => exact (execSetFreq_next h).1
  | reset => exact (execReset_next.mp h).1
  | setWave wf => exact (execSetWave_next.mp h).1
  | process nch nfr xs => exact (processWith_next h).1

theorem exec_next {i : Instr} {s t : State} : exec i s = .next t ↔ Running s ∧ t = applied i s := by
  constructor
  · intro h
    have hr := running_of_exec h
    rw [exec_of_running hr, next_inj] at h
    exact ⟨hr, h.symm⟩
  · rintro ⟨hr, rfl⟩
    exact exec_of_running hr i

/-- An instruction that answers a next state has taken a fault or has written, and nothing else. -/
theorem exec_cases {i : Instr} {s t : State} (h : exec i s = .next t) :
    Running s ∧ ((∃ c, faultOf i s = some c ∧ t = s.withFault c) ∨ (faultOf i s = none ∧ t = written i s)) := by
  obtain ⟨hr, rfl⟩ := exec_next.mp h
  refine ⟨hr, ?_⟩
  cases hf : faultOf i s with
  | none => exact .inr ⟨rfl, applied_of_no_fault hf⟩
  | some c => exact .inl ⟨c, rfl, applied_of_fault hf⟩

/-! When an instruction faults (R170). -/

theorem faultOf_eq_none_iff {i : Instr} {s : State} : faultOf i s = none ↔ Preconditions s i := by
  cases i with
  | nop => simp [faultOf, Preconditions]
  | prepare fs mb =>
    show _ ↔ rateOK fs = true ∧ s.osc.sine.prepareOK fs = true ∧ s.osc.tri.prepareOK fs = true
    rw [faultOf, ← Bool.and_eq_true (s.osc.sine.prepareOK fs)]
    cases rateOK fs <;> cases s.osc.sine.prepareOK fs && s.osc.tri.prepareOK fs <;> simp
  | setFreq tgt force f =>
    rw [faultOf, Preconditions]
    cases freqOK f <;> cases force <;> cases s.prepared <;> cases incOK (incOf f s.fs) <;> simp
  | reset => simp [faultOf, Preconditions]
  | setWave wf => simp [faultOf, Preconditions]
  | process nch nfr xs =>
    have hempty : emptyBlock nch nfr = false ↔ nch ≠ 0 ∧ nfr ≠ 0 := emptyBlock_eq_false
    have hadopt : adoptFreqOK s = true ↔ (s.osc.sine.freqPend = true → incOK (incOf s.osc.sine.freqTgt s.fs) = true) ∧
        (s.osc.tri.freqPend = true → incOK (incOf s.osc.tri.freqTgt s.fs) = true) := by
      rw [adoptFreqOK_iff]
      exact ⟨fun h => ⟨h .sine, h .tri⟩, fun ⟨hsine, htri⟩ w => by cases w <;> assumption⟩
    rw [faultOf, Preconditions, ← hadopt, ← and_imp, ← hempty]
    cases s.prepared <;> cases emptyBlock nch nfr <;> cases adoptFreqOK s <;> simp

/-- No write stops the block. -/
theorem running_written {s : State} (hr : Running s) (i : Instr) : Running (written i s) := by
  cases i with
  | process nch nfr xs =>
    rw [written]
    split
    · exact hr
    · rw [applyFrames_adopted]
      exact hr
  | _ => exact hr

/-- Settles O22: in a running block an instruction raises the fault of its first check that fails, and otherwise writes,
which leaves FAULT at 0. -/
theorem legalInputsNeverFault : Obligations.LegalInputsNeverFault := by
  unfold Obligations.LegalInputsNeverFault
  intro i s _ hr
  refine ⟨applied i s, exec_of_running hr i, ?_⟩
  rw [← faultOf_eq_none_iff]
  cases hf : faultOf i s with
  | none => simp [applied_of_no_fault hf, (running_written hr i).1]
  | some c => simp [applied_of_fault hf]

end Sys2Proof.Machine
end

section
/-! What an instruction keeps (R50, R125), does not depend on (R38) and does again (R79). -/

namespace Sys2Proof.Machine

/-- An Oscillator after a block in which both advance (R124, R147): its deferred frequency adopted, and its phase advanced
once a frame. -/
theorem applyFrames_get {p : Params} (hadv : p.advanceAll = true) (nch : BitVec 12) (nfr : BitVec 16) (xs : List F32)
    (s : State) (w : Wave) :
    (applyFrames p nch nfr xs (adoptWave (adoptFreq s))).osc.get w =
      { phase := phaseAfter (blockInc s w) nfr.toNat (s.osc.get w).phase
        freq := blockFreq s w
        inc := blockInc s w
        freqTgt := (s.osc.get w).freqTgt
        freqPend := false } := by
  simp only [applyFrames_adopted, runFrames_bank, adopt_get, hadv, or_true, if_true, stepMany]

/-- Settles O54: taking a fault keeps every register but FAULT and FAULT_CAUSE, and each instruction writes only what
`written` says. -/
theorem registersHaveTheirWritersOnly : Obligations.RegistersHaveTheirWritersOnly := by
  unfold Obligations.RegistersHaveTheirWritersOnly
  intro i s t h
  obtain ⟨-, ⟨c, -, rfl⟩ | ⟨-, rfl⟩⟩ := exec_cases h
  · simp
  · cases i with
    | nop => simp [written]
    | prepare fs mb => simp [written, Bank.get_map]
    | setFreq tgt force f => cases force <;> simp [written, Bank.get_atTargets, freqWrite, forceFreq, apply_ite]
    | reset => simp [written, Bank.get_map]
    | setWave wf => simp [written]
    | process nch nfr xs =>
      rw [written]
      split
      · simp
      · have hosc (w : Wave) := applyFrames_get (p := params) rfl nch nfr xs s w
        rw [applyFrames_adopted] at hosc ⊢
        simp [hosc]

/-- Settles O53: of the packets that are neither RESET nor PROCESS, SET_FREQ and PREPARE alone write an Oscillator, and not
its phase. -/
theorem onlyResetAndFramesWritePhases : Obligations.OnlyResetAndFramesWritePhases := by
  unfold Obligations.OnlyResetAndFramesWritePhases
  intro i s t h hreset hprocess w
  obtain ⟨-, ⟨c, -, rfl⟩ | ⟨-, rfl⟩⟩ := exec_cases h
  · rfl
  · cases i with
    | nop => rfl
    | prepare fs mb => simp [written, Bank.get_map]
    | setFreq tgt force f => cases force <;> simp [written, Bank.get_atTargets, freqWrite, forceFreq, apply_ite]
    | reset => exact absurd rfl hreset
    | setWave wf => rfl
    | process nch nfr xs => exact absurd rfl (hprocess nch nfr xs)

/-- MAXBLOCK rewritten. -/
def State.setMaxBlock (s : State) (m : Word) : State := { s with maxBlock := m }

theorem faultOf_setMaxBlock (i : Instr) (s : State) (m : Word) : faultOf i (s.setMaxBlock m) = faultOf i s := by
  cases i <;> rfl

/-- Settles O55: no check reads MAXBLOCK, and no write but its own by PREPARE is made from it. -/
theorem maxBlockIsReadByNothing : Obligations.MaxBlockIsReadByNothing := by
  unfold Obligations.MaxBlockIsReadByNothing
  intro i s t m h
  have hr := running_of_exec h
  have hr' : Running (s.setMaxBlock m) := hr
  refine ⟨applied i (s.setMaxBlock m), exec_of_running hr' i, ?_⟩
  have hfault := faultOf_setMaxBlock i s m
  obtain ⟨-, ⟨c, hc, rfl⟩ | ⟨hnone, rfl⟩⟩ := exec_cases h
  · rw [applied_of_fault (hfault.trans hc)]
    rfl
  · rw [applied_of_no_fault (hfault.trans hnone)]
    cases i with
    | process nch nfr xs =>
      rw [written, written]
      split
      · rfl
      · rw [applyFrames_adopted, applyFrames_adopted]
        rfl
    | _ => rfl

/-- A write of SET_FREQ, made twice. -/
theorem freqWrite_freqWrite (force : Bool) (f : F32) (s : State) (b : Bank) (o : Oscillator) :
    freqWrite force f (s.setOsc b) (freqWrite force f s o) = freqWrite force f s o := by
  cases force with
  | false => rfl
  | true => cases h : s.prepared <;> simp [freqWrite, forceFreq, h] <;> rfl

theorem Bank.atTargets_atTargets (tgt : Target) (g k : Oscillator → Oscillator) (b : Bank) :
    (b.atTargets tgt g).atTargets tgt k = b.atTargets tgt fun o => k (g o) := by
  refine Bank.ext_get _ _ fun w => ?_
  rw [Bank.get_atTargets, Bank.get_atTargets, Bank.get_atTargets]
  split <;> rfl

/-- An instruction but PROCESS that raised no fault raises none again, and writes what is there. -/
theorem written_written {i : Instr} {s : State} (hi : ∀ nch nfr xs, i ≠ .process nch nfr xs) (hf : faultOf i s = none) :
    faultOf i (written i s) = none ∧ written i (written i s) = written i s := by
  cases i with
  | nop => exact ⟨rfl, rfl⟩
  | prepare fs mb => exact ⟨hf, rfl⟩
  | setFreq tgt force f =>
    refine ⟨hf, congrArg s.setOsc ((Bank.atTargets_atTargets tgt _ _ s.osc).trans ?_)⟩
    exact congrArg (Bank.atTargets tgt · s.osc) (funext (freqWrite_freqWrite force f s _))
  | reset => exact ⟨rfl, rfl⟩
  | setWave wf => exact ⟨rfl, rfl⟩
  | process nch nfr xs => exact absurd rfl (hi nch nfr xs)

/-- Settles O56: applied once without a fault, these packets pass their checks again and write what is there. -/
theorem repeatedPacketsEqualOne : Obligations.RepeatedPacketsEqualOne := by
  unfold Obligations.RepeatedPacketsEqualOne
  intro i s t hi h ht
  obtain ⟨hr, ⟨c, -, rfl⟩ | ⟨hf, rfl⟩⟩ := exec_cases h
  · cases ht
  · obtain ⟨hf', hw⟩ := written_written hi hf
    rw [exec_of_running (running_written hr i), applied_of_no_fault hf', hw]

end Sys2Proof.Machine
end

section
/-! SET_FREQ, by the Oscillators it addresses (R91, R123), and the adoption's check (R124, R180). -/

namespace Sys2Proof.Machine

theorem addresses_iff_hits {tgt : Target} {w : Wave} : addresses tgt w = true ↔ Hits tgt w := by
  cases tgt <;> cases w <;> simp [addresses, Hits]

theorem Bank.get_atTargets_of_hits {tgt : Target} {w : Wave} {g : Oscillator → Oscillator} {b : Bank} (h : Hits tgt w) :
    (b.atTargets tgt g).get w = g (b.get w) := by
  rw [Bank.get_atTargets, if_pos (addresses_iff_hits.mpr h)]

theorem Bank.get_atTargets_of_not_hits {tgt : Target} {w : Wave} {g : Oscillator → Oscillator} {b : Bank}
    (h : ¬Hits tgt w) : (b.atTargets tgt g).get w = b.get w := by
  rw [Bank.get_atTargets, if_neg (addresses_iff_hits.not.mpr h)]

/-- Settles O30: the check of the increment, and the write to the addressed Oscillators. -/
theorem setFreqImmediateTakesEffect : Obligations.SetFreqImmediateTakesEffect := by
  unfold Obligations.SetFreqImmediateTakesEffect
  intro s tgt f hr hf
  refine ⟨execSetFreq_badInc hr hf, fun hinc => ⟨_, execSetFreq_immediate hr hf hinc, rfl, fun w => ?_⟩⟩
  refine ⟨fun hw => ?_, Bank.get_atTargets_of_not_hits⟩
  rw [State.setOsc_osc, Bank.get_atTargets_of_hits hw, forceFreq]
  split <;> rfl

/-- Settles O31: the request is recorded by the addressed Oscillators, whatever its increment. -/
theorem setFreqDeferredIsRecorded : Obligations.SetFreqDeferredIsRecorded := by
  unfold Obligations.SetFreqDeferredIsRecorded
  intro s tgt f hr hf
  exact ⟨_, execSetFreq_deferred hr hf, rfl, fun w => ⟨Bank.get_atTargets_of_hits, Bank.get_atTargets_of_not_hits⟩⟩

/-- Settles O37: the adoption's checks (R124) come before every write of the block. -/
theorem illegalDeferredFrequencyFaults : Obligations.IllegalDeferredFrequencyFaults := by
  unfold Obligations.IllegalDeferredFrequencyFaults
  rintro s nch nfr xs hr hp hc hf ⟨w, hpend, hinc⟩
  refine processWith_badInc hr hp (emptyBlock_eq_false.mpr ⟨hc, hf⟩) (Bool.eq_false_iff.mpr fun hadopt => ?_)
  rw [adoptFreqOK_iff.mp hadopt w hpend] at hinc
  cases hinc

end Sys2Proof.Machine
end

section
/-! Runs of packets that end unfaulted: every packet wrote, so a deferred frequency is adopted (R202) and both Oscillators
advance once a frame (R157). -/

namespace Sys2Proof.Machine

theorem not_faulted_of_execAll {is : List Instr} {s t : State} (h : execAll is s = .next t) (ht : t.fault = false) :
    s.fault = false := by
  cases is with
  | nil => rwa [execAll_nil_next.mp h]
  | cons i is =>
    obtain ⟨u, hu, -⟩ := execAll_cons_next.mp h
    exact (running_of_exec hu).1

/-- An instruction before the last of a run that ends unfaulted has raised no fault. -/
theorem written_of_execAll {i : Instr} {is : List Instr} {s t : State} (h : execAll (i :: is) s = .next t)
    (ht : t.fault = false) : Running s ∧ faultOf i s = none ∧ execAll is (written i s) = .next t := by
  obtain ⟨u, hu, his⟩ := execAll_cons_next.mp h
  have hfault := not_faulted_of_execAll his ht
  obtain ⟨hr, ⟨c, -, rfl⟩ | ⟨hf, rfl⟩⟩ := exec_cases hu
  · cases hfault
  · exact ⟨hr, hf, his⟩

theorem execAll_cons_of_no_fault {i : Instr} {is : List Instr} {s t : State} (hr : Running s) (hf : faultOf i s = none)
    (h : execAll is (written i s) = .next t) : execAll (i :: is) s = .next t :=
  execAll_cons_next.mpr ⟨written i s, exec_next.mpr ⟨hr, (applied_of_no_fault hf).symm⟩, h⟩

/-- A block of frames writes what its frames do. -/
theorem written_process {nch : BitVec 12} {nfr : BitVec 16} (hc : nch ≠ 0) (hf : nfr ≠ 0) (xs : List F32) (s : State) :
    written (.process nch nfr xs) s = applyFrames params nch nfr xs (adoptWave (adoptFreq s)) := by
  rw [written, emptyBlock_eq_false.mpr ⟨hc, hf⟩, if_neg Bool.false_ne_true]

/-- Settles O32: SET_FREQ marks the frequency pending at the addressed Oscillators, and the block's frames start from the
adopted one. -/
theorem deferredFrequencyIsAdopted : Obligations.DeferredFrequencyIsAdopted := by
  unfold Obligations.DeferredFrequencyIsAdopted
  intro s t tgt f nch nfr xs w hc hf hrun ht hw
  obtain ⟨-, -, hblock⟩ := written_of_execAll hrun ht
  obtain ⟨-, -, hlast⟩ := written_of_execAll hblock ht
  obtain rfl := execAll_nil_next.mp hlast
  have hosc : ((written (.setFreq tgt false f) s).osc.get w) = (s.osc.get w).request f :=
    Bank.get_atTargets_of_hits hw
  rw [written_process hc hf, applyFrames_get rfl, blockInc, blockFreq, hosc]
  rfl

theorem phaseAfter_add (inc : F32) (m n : Nat) (ph : F32) :
    phaseAfter inc (m + n) ph = phaseAfter inc n (phaseAfter inc m ph) := by
  induction m generalizing ph with
  | zero => rw [Nat.zero_add, phaseAfter]
  | succ m ih => rw [Nat.add_right_comm, phaseAfter, ih, phaseAfter]

theorem stepMany_zero (o : Oscillator) : stepMany 0 o = o := rfl

theorem stepMany_stepMany (m n : Nat) (o : Oscillator) : stepMany n (stepMany m o) = stepMany (m + n) o := by
  rw [stepMany, stepMany, stepMany, phaseAfter_add]

/-- With no deferred frequency a block steps both Oscillators once a frame. -/
theorem written_process_stepMany {s : State} (hpend : ∀ w, (s.osc.get w).freqPend = false) (nch : BitVec 12)
    (nfr : BitVec 16) (xs : List F32) (w : Wave) :
    (written (.process nch nfr xs) s).osc.get w = stepMany (framesOf (.process nch nfr xs)) (s.osc.get w) := by
  by_cases hempty : nch = 0 ∨ nfr = 0
  · have hframes : framesOf (.process nch nfr xs) = 0 := by
      rcases hempty with h | h <;> simp [framesOf, h]
    rw [written, emptyBlock_eq_true.mpr hempty, if_pos rfl, hframes, stepMany_zero]
  · obtain ⟨hc, hf⟩ := not_or.mp hempty
    rw [written_process hc hf, applyFrames_get rfl, framesOf, if_neg hc]
    simp only [blockInc, blockFreq, hpend w, Bool.false_eq_true, if_false]
    exact congrArg (Oscillator.mk _ _ _ _) (hpend w).symm

/-- Through blocks and waveform switches with no deferred frequency both Oscillators step once a frame. -/
theorem execAll_stepMany {is : List Instr} {s t : State}
    (his : ∀ i ∈ is, (∃ w, i = .setWave w) ∨ ∃ nch nfr xs, i = .process nch nfr xs)
    (hpend : ∀ w, (s.osc.get w).freqPend = false) (h : execAll is s = .next t) (ht : t.fault = false) (w : Wave) :
    t.osc.get w = stepMany (is.map framesOf).sum (s.osc.get w) := by
  induction is generalizing s with
  | nil => rw [execAll_nil_next.mp h, List.map_nil, List.sum_nil, stepMany_zero]
  | cons i is ih =>
    obtain ⟨hi, his⟩ := List.forall_mem_cons.mp his
    obtain ⟨-, -, hrest⟩ := written_of_execAll h ht
    have hosc (v : Wave) : (written i s).osc.get v = stepMany (framesOf i) (s.osc.get v) := by
      obtain ⟨wf, rfl⟩ | ⟨nch, nfr, xs, rfl⟩ := hi
      · rfl
      · exact written_process_stepMany hpend nch nfr xs v
    rw [ih his (fun v => by rw [hosc]; exact hpend v) hrest, hosc, stepMany_stepMany, List.map_cons, List.sum_cons]

/-- Settles O41: each block steps both Oscillators once a frame, and a SET_WAVE neither. -/
theorem switchingKeepsBothPhasesRunning : Obligations.SwitchingKeepsBothPhasesRunning := by
  unfold Obligations.SwitchingKeepsBothPhasesRunning
  intro is s t his hpend hrun ht w
  rw [execAll_stepMany his hpend hrun ht w]
  rfl

end Sys2Proof.Machine
end

section
/-! No instruction depends on what the hosts have delivered and taken, so that a block restarted by RESET and PREPARE runs
as another does (R159). -/

namespace Sys2Proof.Machine

/-- A state with what the hosts have delivered and not taken in another. -/
def State.atHosts (s h : State) : State :=
  { s with portA := h.portA, portC := h.portC, grants := h.grants, out := h.out }

theorem State.emit_nil (s : State) : s.emit [] = s := by simp [State.emit]

theorem written_atHosts (i : Instr) (s h : State) :
    ∃ ys, (written i s).out = s.out ++ ys ∧ written i (s.atHosts h) = (written i s).atHosts (h.emit ys) := by
  cases i with
  | process nch nfr xs =>
    rw [written, written]
    split
    · exact ⟨[], (List.append_nil _).symm, by rw [State.emit_nil]⟩
    · rw [applyFrames_adopted, applyFrames_adopted]
      exact ⟨_, rfl, rfl⟩
  | _ => exact ⟨[], (List.append_nil _).symm, by rw [State.emit_nil]; rfl⟩

theorem faultOf_atHosts (i : Instr) (s h : State) : faultOf i (s.atHosts h) = faultOf i s := by cases i <;> rfl

theorem exec_atHosts {i : Instr} {s t : State} (h : State) (ht : exec i s = .next t) :
    ∃ ys, t.out = s.out ++ ys ∧ exec i (s.atHosts h) = .next (t.atHosts (h.emit ys)) := by
  have hr : Running s := running_of_exec ht
  have hr' : Running (s.atHosts h) := hr
  rw [exec_of_running hr']
  obtain ⟨-, ⟨c, hc, rfl⟩ | ⟨hf, rfl⟩⟩ := exec_cases ht
  · refine ⟨[], (List.append_nil _).symm, ?_⟩
    rw [applied_of_fault ((faultOf_atHosts i s h).trans hc), State.emit_nil]
    rfl
  · obtain ⟨ys, hout, hw⟩ := written_atHosts i s h
    exact ⟨ys, hout, by rw [applied_of_no_fault ((faultOf_atHosts i s h).trans hf), hw]⟩

theorem execAll_atHosts {is : List Instr} {s t : State} (h : State) (ht : execAll is s = .next t) :
    ∃ ys h', t.out = s.out ++ ys ∧ h'.out = h.out ++ ys ∧ execAll is (s.atHosts h) = .next (t.atHosts h') := by
  induction is generalizing s h with
  | nil =>
    obtain rfl := execAll_nil_next.mp ht
    exact ⟨[], h, (List.append_nil _).symm, (List.append_nil _).symm, rfl⟩
  | cons i is ih =>
    obtain ⟨u, hi, his⟩ := execAll_cons_next.mp ht
    obtain ⟨ys, hout, hi'⟩ := exec_atHosts h hi
    obtain ⟨zs, h', hout', hhost, his'⟩ := ih (h.emit ys) his
    refine ⟨ys ++ zs, h', by rw [hout', hout, List.append_assoc], ?_, execAll_cons_next.mpr ⟨_, hi', his'⟩⟩
    rw [hhost, State.emit_out, List.append_assoc]

/-- A RESET and a PREPARE leave nothing of the phases, the increments, the rate and the block size that were there. -/
theorem written_restart {s s' : State} (fs : F64) (mb : Word) (hr : Running s) (hr' : Running s')
    (hcur : s'.cur = s.cur) (hpend : s'.pend = s.pend) (hdepth : s'.depth = s.depth) (hcause : s'.faultCause = s.faultCause)
    (hcount : s'.freeCount = s.freeCount)
    (hosc : ∀ w, (s'.osc.get w).freq = (s.osc.get w).freq ∧ (s'.osc.get w).freqTgt = (s.osc.get w).freqTgt ∧
      (s'.osc.get w).freqPend = (s.osc.get w).freqPend) :
    written (.prepare fs mb) (written .reset s') = (written (.prepare fs mb) (written .reset s)).atHosts s' := by
  have hbank : (s'.osc.map fun _ o => o.clearPhase.prepare fs) = s.osc.map fun _ o => o.clearPhase.prepare fs := by
    refine Bank.ext_get _ _ fun w => ?_
    obtain ⟨hfreq, htgt, hp⟩ := hosc w
    rw [Bank.get_map, Bank.get_map]
    simp only [Oscillator.prepare, Oscillator.setInc, Oscillator.clearPhase, hfreq, htgt, hp]
  have hfault : s'.fault = s.fault := hr'.1.trans hr.1.symm
  cases s
  cases s'
  subst hcur hpend hdepth hcause hcount hfault
  exact congrArg (State.mk · _ _ _ _ _ _ _ _ _ _ _ _ _) hbank

/-- Settles O57: after RESET and PREPARE the two blocks differ in what their hosts delivered and took alone, on which no
instruction depends. -/
theorem restartReproducesFreshRun : Obligations.RestartReproducesFreshRun := by
  unfold Obligations.RestartReproducesFreshRun
  intro s s' t fs mb is hr hr' hcur hpend hdepth hcause hcount hosc hrun ht
  obtain ⟨-, -, hprepare⟩ := written_of_execAll hrun ht
  obtain ⟨-, hf, his⟩ := written_of_execAll hprepare ht
  obtain ⟨ys, h', hout, hhost, his'⟩ := execAll_atHosts s' his
  have hf' : faultOf (.prepare fs mb) (written .reset s') = none := by
    rw [faultOf_eq_none_iff] at hf ⊢
    obtain ⟨hfs, hsine, htri⟩ := hf
    exact ⟨hfs, (hosc .sine).1 ▸ hsine, (hosc .tri).1 ▸ htri⟩
  have hrun' : execAll (.reset :: .prepare fs mb :: is) s' = .next (t.atHosts h') := by
    refine execAll_cons_of_no_fault hr' rfl (execAll_cons_of_no_fault (running_written hr' .reset) hf' ?_)
    rw [written_restart fs mb hr hr' hcur hpend hdepth hcause hcount hosc]
    exact his'
  exact ⟨t.atHosts h', ys, hrun', hout, hhost, rfl⟩

end Sys2Proof.Machine
end

section
/-! The response words of a block (R147 to R151), for every value of the parameters: each is its sample times the
multiplier of its frame. -/

namespace Sys2Proof.Machine

theorem sampleOut_of_not_nan {n : Nat} {x m : F32} (h : isNaN32 (mul32 x m) = false) : sampleOut n x m = mul32 x m := by
  rw [sampleOut, h, if_neg Bool.false_ne_true]

theorem sampleOut_of_nan {n : Nat} {x m : F32} (h : isNaN32 (mul32 x m) = true) : isNaN32 (sampleOut n x m) = true := by
  rw [sampleOut, h, if_pos rfl]
  exact isNaN32_nanOf32 _

theorem isOutput_sampleOut (n : Nat) (x m : F32) : IsOutput x m (sampleOut n x m) :=
  ⟨sampleOut_of_not_nan, sampleOut_of_nan⟩

/-- The frame's Oscillator advances first, and its shape is taken at the new phase (R116). -/
theorem frameStep_value (p : Params) (w : Wave) (b : Bank) :
    (frameStep p w b).1 = lfoValue p w (b.get w).inc (b.get w).phase 0 := rfl

theorem lfoValue_frameStep (p : Params) (w : Wave) (b : Bank) (j : Nat) :
    lfoValue p w ((frameStep p w b).2.get w).inc ((frameStep p w b).2.get w).phase j =
      lfoValue p w (b.get w).inc (b.get w).phase (j + 1) := by
  rw [frameStep, Bank.get_map, frameOsc, if_pos rfl]
  rfl

/-- The word of frame `j` and channel `c`, with the multiplier of the frame. -/
theorem runFrames_get (p : Params) (w : Wave) (d : F32) (nch k n : Nat) (xs : List F32) (b : Bank)
    (hxs : xs.length = nch * k) {j c : Nat} (hj : j < k) (hc : c < nch) :
    ∃ m, (runFrames p w d nch k n xs b).1[j * nch + c]? =
      xs[j * nch + c]?.map fun x => sampleOut m x (modMul d (lfoValue p w (b.get w).inc (b.get w).phase j)) := by
  induction k generalizing n xs b j with
  | zero => omega
  | succ k ih =>
    rw [Nat.mul_succ] at hxs
    have hlen : (xs.take nch).length = nch := by rw [List.length_take]; omega
    simp only [runFrames]
    cases j with
    | zero =>
      refine ⟨n + c, ?_⟩
      rw [Nat.zero_mul, Nat.zero_add, List.getElem?_append_left (by rw [frameOut_length]; omega), frameOut_get,
        List.getElem?_take_of_lt hc, frameStep_value]
    | succ j =>
      have hdrop : (xs.drop nch).length = nch * k := by rw [List.length_drop]; omega
      obtain ⟨m, hm⟩ := ih (n + nch) (xs.drop nch) (frameStep p w b).2 hdrop (Nat.lt_of_succ_lt_succ hj)
      refine ⟨m, ?_⟩
      have hidx : (j + 1) * nch + c = nch + (j * nch + c) := by rw [Nat.succ_mul]; omega
      rw [hidx, List.getElem?_append_right (by rw [frameOut_length]; omega), frameOut_length, hlen,
        Nat.add_sub_cancel_left, hm, List.getElem?_drop, lfoValue_frameStep]

/-- The response words of a block from the state `s`. -/
def blockWords (p : Params) (nch : BitVec 12) (nfr : BitVec 16) (xs : List F32) (s : State) : List Word :=
  (runFrames p s.pend s.depth nch.toNat nfr.toNat s.freeCount xs (s.osc.map fun _ o => o.adopt s.fs)).1

/-- The multiplier of frame `k` of a block from the state `s`, for the adopted waveform (R148 to R150). -/
def blockMul (p : Params) (s : State) (k : Nat) : F32 :=
  modMul s.depth (lfoValue p s.pend (blockInc s s.pend) (s.osc.get s.pend).phase k)

theorem applyFrames_writes (p : Params) (nch : BitVec 12) (nfr : BitVec 16) (xs : List F32) (s : State) :
    applyFrames p nch nfr xs (adoptWave (adoptFreq s)) =
      { s with
        osc := (applyFrames p nch nfr xs (adoptWave (adoptFreq s))).osc
        cur := s.pend
        out := s.out ++ blockWords p nch nfr xs s
        freeCount := (applyFrames p nch nfr xs (adoptWave (adoptFreq s))).freeCount } := by
  rw [applyFrames_adopted]
  rfl

section Words

variable {p : Params} {nch : BitVec 12} {nfr : BitVec 16} {xs : List F32} {s : State}

/-- A block whose preconditions hold runs its frames. -/
theorem processWith_of_blockRuns (p : Params) (h : BlockRuns s nch nfr xs) :
    processWith p nch nfr xs s = .next (applyFrames p nch nfr xs (adoptWave (adoptFreq s))) :=
  processWith_frames h.running h.prepared (emptyBlock_eq_false.mpr ⟨h.channels, h.frames⟩)
    (adoptFreqOK_iff.mpr h.increments)

theorem blockWords_length (h : xs.length = nch.toNat * nfr.toNat) :
    (blockWords p nch nfr xs s).length = nch.toNat * nfr.toNat := runFrames_length _ _ _ _ _ _ _ _ h

/-- Frame `k`, channel `c`. -/
theorem blockWords_get (h : xs.length = nch.toNat * nfr.toNat) {k c : Nat} {x : F32} (hk : k < nfr.toNat)
    (hc : c < nch.toNat) (hx : xs[k * nch.toNat + c]? = some x) :
    ∃ n, (blockWords p nch nfr xs s)[k * nch.toNat + c]? = some (sampleOut n x (blockMul p s k)) := by
  obtain ⟨n, hn⟩ := runFrames_get p s.pend s.depth nch.toNat nfr.toNat s.freeCount xs
    (s.osc.map fun _ o => o.adopt s.fs) h hk hc
  rw [hx, adopt_get] at hn
  exact ⟨n, hn⟩

/-- Every word of a block is its sample times the multiplier of its frame (R151). -/
theorem blockWords_isOutput (h : xs.length = nch.toNat * nfr.toNat) {k c : Nat} {x y : F32} (hk : k < nfr.toNat)
    (hc : c < nch.toNat) (hx : xs[k * nch.toNat + c]? = some x)
    (hy : (blockWords p nch nfr xs s)[k * nch.toNat + c]? = some y) : IsOutput x (blockMul p s k) y := by
  obtain ⟨n, hn⟩ := blockWords_get (p := p) (s := s) h hk hc hx
  obtain rfl := Option.some.inj (hy.symm.trans hn)
  exact isOutput_sampleOut n x _

end Words

/-- Settles O38: the adoptions, then the frames, of which `runFrames` gives the Oscillators and the words. -/
theorem processModulatesEveryFrame : Obligations.ProcessModulatesEveryFrame := by
  unfold Obligations.ProcessModulatesEveryFrame
  intro s nch nfr xs h
  exact ⟨_, blockWords params nch nfr xs s, processWith_of_blockRuns params h, applyFrames_writes ..,
    applyFrames_get rfl nch nfr xs s, blockWords_length h.length,
    fun k c x y hk hc hx hy => blockWords_isOutput h.length hk hc hx hy⟩

/-- Settles O39: the multiplier is computed once a frame, and a product that is no NaN is the word itself. -/
theorem channelsShareTheMultiplier : Obligations.ChannelsShareTheMultiplier := by
  unfold Obligations.ChannelsShareTheMultiplier
  intro s t nch nfr xs h ht
  obtain rfl := next_inj.mp ((processWith_of_blockRuns params h).symm.trans ht)
  refine ⟨blockMul params s, blockWords params nch nfr xs s, congrArg State.out (applyFrames_writes ..),
    fun k c x y hk hc hx hy => blockWords_isOutput h.length hk hc hx hy, ?_⟩
  intro k c d x hk hc hd hxc hxd hnan
  obtain ⟨n, hn⟩ := blockWords_get (p := params) (s := s) h.length hk hc hxc
  obtain ⟨n', hn'⟩ := blockWords_get (p := params) (s := s) h.length hk hd hxd
  rw [hn, hn', sampleOut_of_not_nan hnan, sampleOut_of_not_nan hnan]

end Sys2Proof.Machine
end

section
/-! Keys and rounding: bounds on a rounded result, encodings told by their keys, and products by a multiplier of
`[0, 1]`. -/

namespace Sys2Proof.Machine

/-! Rounding does not cross an encoding. -/

theorem roundSigned_le_key32 {b : F32} (hb : isNaN32 b = false) {n : Int} {d : Nat} (hd : 0 < d)
    (h : n ≤ units32 b * d) : b32.roundSigned n d ≤ key32 b := by
  rw [← roundSigned_units32 b hb d hd]
  exact b32.roundSigned_mono b32_frac hd hd (mul_le_mul_of_nonneg_right h (Int.natCast_nonneg d))

theorem key32_le_roundSigned {b : F32} (hb : isNaN32 b = false) {n : Int} {d : Nat} (hd : 0 < d)
    (h : units32 b * d ≤ n) : key32 b ≤ b32.roundSigned n d := by
  rw [← roundSigned_units32 b hb d hd]
  exact b32.roundSigned_mono b32_frac hd hd (mul_le_mul_of_nonneg_right h (Int.natCast_nonneg d))

/-! Encodings told by their keys. -/

/-- Only the two zeros share a key. -/
theorem eq_of_key32_eq {a b : F32} (h : key32 a = key32 b) (h0 : key32 a ≠ 0) : a = b := by
  have ha := a.isLt
  have hb := b.isLt
  rw [key32, Fmt.key_eq, Fmt.mag, Fmt.neg, b32_signWeight] at h0
  rw [key32, key32, Fmt.key_eq, Fmt.key_eq, Fmt.mag, Fmt.mag, Fmt.neg, Fmt.neg, b32_signWeight] at h
  apply BitVec.eq_of_toNat_eq
  simp only [beq_iff_eq] at h h0
  split_ifs at h h0 <;> omega

theorem key32_eq_zero_iff {a : F32} : key32 a = 0 ↔ a = 0x00000000#32 ∨ a = 0x80000000#32 := by
  have ha := a.isLt
  rw [key32, Fmt.key_eq, Fmt.mag, Fmt.neg, b32_signWeight, BitVec.toNat_eq, BitVec.toNat_eq, BitVec.toNat_ofNat,
    BitVec.toNat_ofNat]
  split <;> omega

theorem units32_eq_zero_iff {a : F32} : units32 a = 0 ↔ key32 a = 0 :=
  (b32.key_eq_iff a.toNat 0).symm

theorem natAbs_units32_le_iff {a b : F32} :
    (units32 a).natAbs ≤ (units32 b).natAbs ↔ (key32 a).natAbs ≤ (key32 b).natAbs := by
  rw [units32_natAbs, units32_natAbs, key32_natAbs, key32_natAbs, b32.unitsOf_strictMono.le_iff_le]

theorem key32_one32 : key32 one32 = 0x3F800000 := rfl
theorem units32_one32 : units32 one32 = 2 ^ 149 := by decide +kernel
theorem units32_zero32 : units32 zero32 = 0 := rfl
theorem isFinite32_one32 : isFinite32 one32 = true := by decide

/-- What lies between two finite values is finite. -/
theorem isFinite32_of_between {a x b : F32} (ha : isFinite32 a = true) (hb : isFinite32 b = true)
    (hax : le32 a x = true) (hxb : le32 x b = true) : isFinite32 x = true := by
  have h1 := ((le32_iff a x).mp hax).2.2
  have h2 := ((le32_iff x b).mp hxb).2.2
  rw [isFinite32_iff_key] at ha hb ⊢
  omega

/-- The interval `[0, 1]`, in units. -/
theorem unit_interval {m : F32} (h0 : le32 zero32 m = true) (h1 : le32 m one32 = true) :
    isFinite32 m = true ∧ 0 ≤ units32 m ∧ units32 m ≤ 2 ^ 149 :=
  ⟨isFinite32_of_between (by decide) isFinite32_one32 h0 h1, units32_le_of_le32 h0,
    units32_one32 ▸ units32_le_of_le32 h1⟩

/-! Products by a multiplier of `[0, 1]` (R152). -/

section Multiplier

variable {x m : F32}

/-- A product of finite values is as large as the rounded product of their magnitudes. -/
theorem natAbs_key32_mul32 (hx : isFinite32 x = true) (hm : isFinite32 m = true) :
    (key32 (mul32 x m)).natAbs = b32.roundMag ((units32 x).natAbs * (units32 m).natAbs) (2 ^ 149) := by
  rw [(mul32_key hx hm).1, Fmt.roundSigned_natAbs, Int.natAbs_mul]

/-- A multiplier of `[0, 1]` never amplifies. -/
theorem natAbs_mul32_le (hx : isFinite32 x = true) (h0 : le32 zero32 m = true) (h1 : le32 m one32 = true) :
    (key32 (mul32 x m)).natAbs ≤ (key32 x).natAbs := by
  obtain ⟨hm, hlow, hhigh⟩ := unit_interval h0 h1
  have hround : b32.roundMag ((units32 x).natAbs * 2 ^ 149) (2 ^ 149) = (key32 x).natAbs := by
    rw [units32_natAbs, b32.roundMag_exact b32_frac _ _ (Nat.two_pow_pos 149), key32_natAbs,
      min_eq_right ((isFinite32_iff x).mp hx).le]
  rw [natAbs_key32_mul32 hx hm, ← hround]
  refine b32.roundMag_mono b32_frac (Nat.two_pow_pos 149) (Nat.two_pow_pos 149) ?_
  gcongr
  omega

theorem isFinite32_mul32 (hx : isFinite32 x = true) (h0 : le32 zero32 m = true) (h1 : le32 m one32 = true) :
    isFinite32 (mul32 x m) = true := by
  have hle := natAbs_mul32_le hx h0 h1
  rw [isFinite32_iff_key] at hx ⊢
  omega

/-- One unit under the least multiplier of the default depth still rounds to one unit. -/
theorem roundMag_least : 0 < b32.roundMag (units32 0x3F19999A#32).natAbs (2 ^ 149) := by decide +kernel

/-- A multiplier of at least `0x3F19999A` never silences. -/
theorem key32_mul32_ne_zero (hx : isFinite32 x = true) (hm : isFinite32 m = true) (hlow : le32 0x3F19999A#32 m = true)
    (hx0 : units32 x ≠ 0) : key32 (mul32 x m) ≠ 0 := by
  have hle := units32_le_of_le32 hlow
  have hpos : 0 < units32 0x3F19999A#32 := by decide +kernel
  have hmono : b32.roundMag (units32 0x3F19999A#32).natAbs (2 ^ 149) ≤
      b32.roundMag ((units32 x).natAbs * (units32 m).natAbs) (2 ^ 149) := by
    refine b32.roundMag_mono b32_frac (Nat.two_pow_pos 149) (Nat.two_pow_pos 149) (Nat.mul_le_mul_right _ ?_)
    calc (units32 0x3F19999A#32).natAbs ≤ 1 * (units32 m).natAbs := by omega
      _ ≤ (units32 x).natAbs * (units32 m).natAbs := Nat.mul_le_mul_right _ (by omega)
  have hne := roundMag_least
  rw [← natAbs_key32_mul32 hx hm] at hmono
  omega

end Multiplier

/-- Settles O49: rounding is monotone, so the product's magnitude is at most that of the sample and, under the least
multiplier, at least one unit. -/
theorem samplesNeverAmplifiedNorSilenced : Obligations.SamplesNeverAmplifiedNorSilenced := by
  unfold Obligations.SamplesNeverAmplifiedNorSilenced
  intro x m hx h0 h1
  obtain ⟨hm, -, -⟩ := unit_interval h0 h1
  have hfin := isFinite32_mul32 hx h0 h1
  constructor
  · rw [le32_iff, isNaN32_abs32, isNaN32_abs32, key32_abs32, key32_abs32]
    exact ⟨isNaN32_of_isFinite32 hfin, isNaN32_of_isFinite32 hx, Int.ofNat_le.mpr (natAbs_mul32_le hx h0 h1)⟩
  · intro hlow hx0
    rw [value32_eq hx] at hx0
    rw [value32_eq hfin]
    have hx0 : units32 x ≠ 0 := by
      rintro h
      simp [h] at hx0
    have hne := key32_mul32_ne_zero hx hm hlow hx0
    rw [Ne, ← units32_eq_zero_iff] at hne
    simpa using hne

end Sys2Proof.Machine
end

section
/-! The multiplier (R148 to R150): it falls as the LFO value rises, from 1 at -1.0 to `fl32(1 - DEPTH)` at 1.0. -/

namespace Sys2Proof.Machine

theorem units32_half32 : 2 * units32 half32 = 2 ^ 149 := by decide +kernel

theorem isNaN32_one32 : isNaN32 one32 = false := rfl

theorem isFinite32_two32 : isFinite32 two32 = true := by decide

theorem units32_two32 : units32 two32 = 2 * 2 ^ 149 := by decide +kernel

theorem isFinite32_half32 : isFinite32 half32 = true := by decide

/-- An encoding whose key lies between those of two finite values, neither a NaN nor beyond them. -/
theorem between_of_key32 {a x b : F32} (ha : isFinite32 a = true) (hb : isFinite32 b = true) (hx : isNaN32 x = false)
    (hax : key32 a ≤ key32 x) (hxb : key32 x ≤ key32 b) :
    isFinite32 x = true ∧ units32 a ≤ units32 x ∧ units32 x ≤ units32 b :=
  have h1 : le32 a x = true := (le32_iff a x).mpr ⟨isNaN32_of_isFinite32 ha, hx, hax⟩
  have h2 : le32 x b = true := (le32_iff x b).mpr ⟨hx, isNaN32_of_isFinite32 hb, hxb⟩
  ⟨isFinite32_of_between ha hb h1 h2, units32_le_of_le32 h1, units32_le_of_le32 h2⟩

/-- An LFO value of `[-1, 1]` has a unipolar value of `[0, 1]` (R149). -/
theorem unipolar_bounds {v : F32} (h0 : le32 0xBF800000#32 v = true) (h1 : le32 v one32 = true) :
    isFinite32 (unipolar v) = true ∧ 0 ≤ units32 (unipolar v) ∧ units32 (unipolar v) ≤ 2 ^ 149 := by
  have hneg : units32 0xBF800000#32 = -2 ^ 149 := by decide +kernel
  have hv := isFinite32_of_between (by decide) isFinite32_one32 h0 h1
  have hlow := units32_le_of_le32 h0
  have hhigh := units32_le_of_le32 h1
  rw [hneg] at hlow
  rw [units32_one32] at hhigh
  obtain ⟨hsum, hnan⟩ := add32_key hv isFinite32_one32
  obtain ⟨hafin, ha0, ha2⟩ := between_of_key32 (a := zero32) (b := two32) (by decide) isFinite32_two32 hnan
    (hsum ▸ key32_le_roundSigned rfl one_pos (by rw [units32_zero32, units32_one32]; omega))
    (hsum ▸ roundSigned_le_key32 rfl one_pos (by rw [units32_two32, units32_one32]; omega))
  rw [units32_zero32] at ha0
  rw [units32_two32] at ha2
  obtain ⟨hprod, hnan'⟩ := mul32_key hafin isFinite32_half32
  have hhalf := units32_half32
  have h := between_of_key32 (a := zero32) (b := one32) (by decide) isFinite32_one32 hnan'
    (hprod ▸ key32_le_roundSigned rfl (Nat.two_pow_pos 149)
      (by rw [units32_zero32, zero_mul]; exact mul_nonneg ha0 (by omega)))
    (hprod ▸ roundSigned_le_key32 rfl (Nat.two_pow_pos 149) (by rw [units32_one32]; push_cast; nlinarith))
  rwa [units32_zero32, units32_one32] at h

/-- A legal depth, in units (R8). -/
theorem depthOK_bounds {d : F32} (h : depthOK d = true) : isFinite32 d = true ∧ 0 ≤ units32 d ∧ units32 d ≤ 2 ^ 149 := by
  rw [depthOK, Bool.and_eq_true] at h
  exact unit_interval h.1 h.2

/-- The part of the depth a multiplier takes from 1. -/
theorem mul32_unipolar_bounds {d u : F32} (hd : depthOK d = true) (hu : isFinite32 u = true) (hlow : 0 ≤ units32 u)
    (hhigh : units32 u ≤ 2 ^ 149) :
    isFinite32 (mul32 u d) = true ∧ 0 ≤ units32 (mul32 u d) ∧ units32 (mul32 u d) ≤ units32 d := by
  obtain ⟨hfin, h0, -⟩ := depthOK_bounds hd
  obtain ⟨hprod, hnan⟩ := mul32_key hu hfin
  have h := between_of_key32 (a := zero32) (b := d) (by decide) hfin hnan
    (hprod ▸ key32_le_roundSigned rfl (Nat.two_pow_pos 149) (by rw [units32_zero32, zero_mul]; positivity))
    (hprod ▸ roundSigned_le_key32 (isNaN32_of_isFinite32 hfin) (Nat.two_pow_pos 149)
      (by rw [mul_comm (units32 d)]; exact mul_le_mul_of_nonneg_right hhigh h0))
  rwa [units32_zero32] at h

/-- `1 - y` for `y` of `[0, d]` lies between `fl32(1 - d)` and 1. -/
theorem sub32_one_bounds {d y : F32} (hd : isFinite32 d = true) (hy : isFinite32 y = true) (h0 : 0 ≤ units32 y)
    (h1 : units32 y ≤ units32 d) : le32 (sub32 one32 d) (sub32 one32 y) = true ∧ le32 (sub32 one32 y) one32 = true := by
  obtain ⟨hkd, hnd⟩ := sub32_key isFinite32_one32 hd
  obtain ⟨hky, hny⟩ := sub32_key isFinite32_one32 hy
  constructor
  · rw [le32_iff, hkd, hky]
    exact ⟨hnd, hny, b32.roundSigned_mono b32_frac one_pos one_pos (by omega)⟩
  · rw [le32_iff, hky]
    exact ⟨hny, isNaN32_one32, roundSigned_le_key32 isNaN32_one32 one_pos (by omega)⟩

theorem modMul_bounds {d v : F32} (hd : depthOK d = true) (h0 : le32 0xBF800000#32 v = true)
    (h1 : le32 v one32 = true) :
    le32 (sub32 one32 d) (modMul d v) = true ∧ le32 (modMul d v) one32 = true := by
  obtain ⟨hufin, hu0, hu1⟩ := unipolar_bounds h0 h1
  obtain ⟨hyfin, hy0, hy1⟩ := mul32_unipolar_bounds hd hufin hu0 hu1
  exact sub32_one_bounds (depthOK_bounds hd).1 hyfin hy0 hy1

/-- A difference from 1 depends on the units of what is taken alone. -/
theorem sub32_one_of_units_zero {y : F32} (hy : isFinite32 y = true) (h : units32 y = 0) : sub32 one32 y = one32 := by
  have hkey : key32 (sub32 one32 y) = key32 one32 := by
    have hone := roundSigned_units32 one32 rfl 1 one_pos
    rw [(sub32_key isFinite32_one32 hy).1, h, sub_zero]
    rwa [Nat.cast_one, mul_one] at hone
  exact eq_of_key32_eq hkey (by rw [hkey, key32_one32]; decide)

theorem units32_zero32_mul32 {d : F32} (hd : isFinite32 d = true) : units32 (mul32 zero32 d) = 0 := by
  rw [units32_eq_zero_iff, (mul32_key (by decide) hd).1, units32_zero32, zero_mul, Fmt.roundSigned, if_neg (lt_irrefl 0)]
  exact congrArg Nat.cast (b32.roundMag_zero b32_frac _ (Nat.two_pow_pos 149))

/-- 1 times a finite value is that value, a zero with its sign. -/
theorem one32_mul32 {d : F32} (hd : isFinite32 d = true) : mul32 one32 d = d := by
  have hkey : key32 (mul32 one32 d) = key32 d := by
    rw [(mul32_key isFinite32_one32 hd).1, units32_one32, mul_comm]
    exact roundSigned_units32 d (isNaN32_of_isFinite32 hd) _ (Nat.two_pow_pos 149)
  by_cases h0 : key32 d = 0
  · obtain rfl | rfl := key32_eq_zero_iff.mp h0 <;> decide +kernel
  · exact eq_of_key32_eq hkey (hkey ▸ h0)

/-- Settles O48: the operations of the multiplier are monotone, and exact at the two ends of the LFO values. -/
theorem multiplierRange : Obligations.MultiplierRange := by
  unfold Obligations.MultiplierRange
  intro d v hd h0 h1
  obtain ⟨hlow, hhigh⟩ := modMul_bounds hd h0 h1
  have hdepth : sub32 one32 0x3ECCCCCD#32 = 0x3F19999A#32 := by decide +kernel
  refine ⟨hlow, hhigh, ?_, ?_, ?_⟩
  · rintro rfl
    rwa [hdepth] at hlow
  · have hu : unipolar 0xBF800000#32 = zero32 := by decide +kernel
    show sub32 one32 (mul32 (unipolar 0xBF800000#32) d) = one32
    rw [hu]
    exact sub32_one_of_units_zero (mul32_unipolar_bounds hd (by decide) le_rfl (by decide)).1
      (units32_zero32_mul32 (depthOK_bounds hd).1)
  · have hu : unipolar one32 = one32 := by decide +kernel
    show sub32 one32 (mul32 (unipolar one32) d) = sub32 one32 d
    rw [hu, one32_mul32 (depthOK_bounds hd).1]

end Sys2Proof.Machine
end

section
/-! Special samples (R160): the product of a zero or an infinity by a positive multiplier, and NaNs. -/

namespace Sys2Proof.Machine

/-- A multiplier of `(0, 1]` as a number. -/
theorem unpack_multiplier {m : F32} (h0 : lt32 zero32 m = true) (h1 : le32 m one32 = true) :
    isFinite32 m = true ∧ ∃ u, u ≠ 0 ∧ b32.unpack m.toNat = .fin false u := by
  obtain ⟨hnan, -, hpos⟩ := (lt32_iff zero32 m).mp h0
  have hle : le32 zero32 m = true := (le32_iff zero32 m).mpr ⟨hnan, ((le32_iff m one32).mp h1).1, hpos.le⟩
  obtain ⟨hfin, -, -⟩ := unit_interval hle h1
  rw [key32_lt_iff, units32_zero32, units32, Fmt.signed] at hpos
  refine ⟨hfin, ?_⟩
  rw [unpack32_of_finite hfin]
  cases hneg : b32.neg m.toNat with
  | true =>
    rw [hneg, if_pos rfl] at hpos
    omega
  | false =>
    rw [hneg, if_neg Bool.false_ne_true] at hpos
    exact ⟨_, by omega, rfl⟩

/-- A product that is exactly a signed infinity. -/
theorem mul32_inf {x m : F32} {s : Bool} {u : Nat} (hx : b32.unpack x.toNat = .inf s) (hu : u ≠ 0)
    (hm : b32.unpack m.toNat = .fin false u) : mul32 x m = BitVec.ofNat 32 (b32.signOf s + b32.infMag) := by
  rw [mul32, hx, hm, Fmt.mulExact, if_neg hu, Bool.bne_false]
  rfl

/-- A product that is exactly a signed zero. -/
theorem mul32_zero {x m : F32} {s : Bool} {u : Nat} (hx : b32.unpack x.toNat = .fin s 0)
    (hm : b32.unpack m.toNat = .fin false u) : mul32 x m = BitVec.ofNat 32 (b32.signOf s) := by
  rw [mul32, hx, hm, Fmt.mulExact, Bool.bne_false, Nat.zero_mul, Fmt.round,
    b32.roundMag_zero b32_frac _ (Nat.two_pow_pos _)]
  rfl

theorem unpack_of_nan {x : F32} (h : isNaN32 x = true) : b32.unpack x.toNat = .nan := by
  rw [isNaN32_iff] at h
  rw [Fmt.unpack, if_neg h.not_gt, if_neg h.ne']

theorem isNaN32_mul32_of_nan {x : F32} (h : isNaN32 x = true) (m : F32) : isNaN32 (mul32 x m) = true := by
  rw [mul32, unpack_of_nan h]
  exact isNaN32_nanOf32 _

/-- What is neither finite nor a NaN is an infinity. -/
theorem eq_inf_of_not_finite {x : F32} (hnan : isNaN32 x = false) (hfin : isFinite32 x = false) :
    x = 0x7F800000#32 ∨ x = 0xFF800000#32 := by
  have hx := x.isLt
  rw [isNaN32_false_iff, b32_infMag, Fmt.mag, b32_signWeight] at hnan
  rw [← Bool.not_eq_true, isFinite32_iff, b32_infMag, Fmt.mag, b32_signWeight] at hfin
  rw [BitVec.toNat_eq, BitVec.toNat_eq, BitVec.toNat_ofNat, BitVec.toNat_ofNat]
  omega

theorem sampleOut_of_mul32_eq {n : Nat} {x m y : F32} (h : mul32 x m = y) (hy : isNaN32 y = false) :
    sampleOut n x m = y := by
  rw [sampleOut_of_not_nan (h ▸ hy), h]

/-- Settles O50: a positive multiplier keeps the sign, an exact zero or infinity is not rounded, and a NaN product gives
a free NaN. -/
theorem specialSamples : Obligations.SpecialSamples := by
  unfold Obligations.SpecialSamples
  intro n x m h0 h1
  obtain ⟨hfin, u, hu, hm⟩ := unpack_multiplier h0 h1
  have hpinf : mul32 0x7F800000#32 m = 0x7F800000#32 := mul32_inf (s := false) rfl hu hm
  have hninf : mul32 0xFF800000#32 m = 0xFF800000#32 := mul32_inf (s := true) rfl hu hm
  refine ⟨sampleOut_of_mul32_eq (mul32_zero (s := false) rfl hm) rfl,
    sampleOut_of_mul32_eq (mul32_zero (s := true) rfl hm) rfl, sampleOut_of_mul32_eq hpinf rfl,
    sampleOut_of_mul32_eq hninf rfl, fun hx => sampleOut_of_nan (isNaN32_mul32_of_nan hx m), fun hx => ?_⟩
  cases hxfin : isFinite32 x with
  | true =>
    have hnan := (mul32_key hxfin hfin).2
    rwa [sampleOut_of_not_nan hnan]
  | false =>
    obtain rfl | rfl := eq_inf_of_not_finite hx hxfin
    · rw [sampleOut_of_mul32_eq hpinf rfl]; rfl
    · rw [sampleOut_of_mul32_eq hninf rfl]; rfl

end Sys2Proof.Machine
end

section
/-! The triangle (R115): each of its operations is monotone in the magnitude of the phase, so its range is that of its
corners. -/

namespace Sys2Proof.Machine

section Monotone

variable {a b : F32}

theorem natAbs_key32_div32 {c : F32} (ha : isFinite32 a = true) (hc : isFinite32 c = true) (hpos : 0 < units32 c) :
    (key32 (div32 a c)).natAbs = b32.roundMag ((units32 a).natAbs * 2 ^ 149) (units32 c).natAbs := by
  rw [(div32_key ha hc hpos).1, Fmt.roundSigned_natAbs, Int.natAbs_mul, Int.natAbs_pow]
  rfl

/-- Twice the phase grows with the phase's magnitude. -/
theorem natAbs_units32_two_mul_mono (ha : isFinite32 a = true) (hb : isFinite32 b = true)
    (h : (units32 a).natAbs ≤ (units32 b).natAbs) :
    (units32 (mul32 two32 a)).natAbs ≤ (units32 (mul32 two32 b)).natAbs := by
  rw [natAbs_units32_le_iff, natAbs_key32_mul32 isFinite32_two32 ha, natAbs_key32_mul32 isFinite32_two32 hb]
  exact b32.roundMag_mono b32_frac (Nat.two_pow_pos 149) (Nat.two_pow_pos 149)
    (Nat.mul_le_mul_right _ (Nat.mul_le_mul_left _ h))

/-- A quotient by PI32 grows with the dividend's magnitude. -/
theorem natAbs_units32_div_pi_mono (ha : isFinite32 a = true) (hb : isFinite32 b = true)
    (h : (units32 a).natAbs ≤ (units32 b).natAbs) :
    (units32 (div32 a pi32)).natAbs ≤ (units32 (div32 b pi32)).natAbs := by
  have hpi := units32_pi32_pos
  rw [natAbs_units32_le_iff, natAbs_key32_div32 ha isFinite32_pi32 hpi, natAbs_key32_div32 hb isFinite32_pi32 hpi]
  exact b32.roundMag_mono b32_frac (Int.natAbs_pos.mpr hpi.ne') (Int.natAbs_pos.mpr hpi.ne')
    (Nat.mul_le_mul_right _ (Nat.mul_le_mul_right _ h))

/-- A magnitude less 1 grows with the magnitude. -/
theorem le32_abs_sub_one (ha : isFinite32 a = true) (hb : isFinite32 b = true)
    (h : (units32 a).natAbs ≤ (units32 b).natAbs) :
    le32 (sub32 (abs32 a) one32) (sub32 (abs32 b) one32) = true := by
  obtain ⟨hka, hna⟩ := sub32_key (a := abs32 a) (by rwa [isFinite32_abs32]) isFinite32_one32
  obtain ⟨hkb, hnb⟩ := sub32_key (a := abs32 b) (by rwa [isFinite32_abs32]) isFinite32_one32
  rw [le32_iff, hka, hkb, units32_abs32, units32_abs32]
  exact ⟨hna, hnb, b32.roundSigned_mono b32_frac one_pos one_pos (by omega)⟩

end Monotone

/-- A phase is no larger than the lower end of the interval. -/
theorem natAbs_units32_phase_le {p : F32} (h : phaseOK p = true) : (units32 p).natAbs ≤ (units32 negPi32).natAbs := by
  obtain ⟨-, hlow, hhigh⟩ := phaseOK_iff.mp h
  rw [negPi32_eq, units32_neg32]
  omega

/-- The quotient under the magnitude in `TRI32` is finite on the phase interval. -/
theorem isFinite32_tri_quotient {p : F32} (h : phaseOK p = true) :
    isFinite32 (mul32 two32 p) = true ∧ isFinite32 (div32 (mul32 two32 p) pi32) = true := by
  have hend : isFinite32 (mul32 two32 negPi32) = true ∧ isFinite32 (div32 (mul32 two32 negPi32) pi32) = true := by
    decide +kernel
  have hmul := natAbs_units32_two_mul_mono (isFinite32_of_phaseOK h) (by decide) (natAbs_units32_phase_le h)
  have hfin := isFinite32_of_natAbs_units_le hend.1 hmul
  exact ⟨hfin, isFinite32_of_natAbs_units_le hend.2 (natAbs_units32_div_pi_mono hfin hend.1 hmul)⟩

/-- The triangle grows with the magnitude of the phase. -/
theorem tri32_mono {p q : F32} (hp : phaseOK p = true) (hq : phaseOK q = true)
    (h : (units32 p).natAbs ≤ (units32 q).natAbs) : le32 (tri32 p) (tri32 q) = true := by
  obtain ⟨hpm, hpd⟩ := isFinite32_tri_quotient hp
  obtain ⟨hqm, hqd⟩ := isFinite32_tri_quotient hq
  have hmul := natAbs_units32_two_mul_mono (isFinite32_of_phaseOK hp) (isFinite32_of_phaseOK hq) h
  exact le32_abs_sub_one hpd hqd (natAbs_units32_div_pi_mono hpm hqm hmul)

theorem tri32_zero32 : tri32 zero32 = 0xBF800000#32 := by decide +kernel

theorem tri32_negPi32 : tri32 negPi32 = one32 := by decide +kernel

/-- The range of the triangle is that of its corners. -/
theorem tri32_bounds {p : F32} (h : phaseOK p = true) :
    le32 0xBF800000#32 (tri32 p) = true ∧ le32 (tri32 p) one32 = true := by
  rw [← tri32_zero32, ← tri32_negPi32]
  exact ⟨tri32_mono phaseOK_zero32 h (Nat.zero_le _), tri32_mono h (by decide) (natAbs_units32_phase_le h)⟩

/-- Settles O44: the corners by evaluation, the range and the growth from the monotone operations. -/
theorem triangleShape : Obligations.TriangleShape := by
  unfold Obligations.TriangleShape
  refine ⟨tri32_zero32, by decide +kernel, by decide +kernel, tri32_negPi32, fun p => tri32_bounds, fun p q hp hq h => ?_⟩
  have hle := units32_le_of_le32 h
  rw [units32_abs32, units32_abs32, Int.ofNat_le] at hle
  exact tri32_mono hp hq hle

end Sys2Proof.Machine
end

section
/-! An increment of zero (R123): the sum keeps the phase, and no phase wraps. -/

namespace Sys2Proof.Machine

/-- A phase is below PI32, so it is not wrapped. -/
theorem wrapPhase_of_phaseOK {p : F32} (h : phaseOK p = true) : wrapPhase p = p := by
  rw [wrapPhase, if_neg]
  intro hwrap
  have hle := units32_le_of_le32 hwrap
  obtain ⟨-, -, hlt⟩ := phaseOK_iff.mp h
  omega

/-- A value that is not zero keeps its encoding under the addition of either zero. -/
theorem add32_of_units_zero {p z : F32} (hp : isFinite32 p = true) (hz : isFinite32 z = true) (hz0 : units32 z = 0)
    (hp0 : key32 p ≠ 0) : add32 p z = p := by
  have hkey : key32 (add32 p z) = key32 p := by
    have hround := roundSigned_units32 p (isNaN32_of_isFinite32 hp) 1 one_pos
    rw [(add32_key hp hz).1, hz0, add_zero]
    rwa [Nat.cast_one, mul_one] at hround
  exact eq_of_key32_eq hkey (hkey ▸ hp0)

/-- Settles O34: a sum with a zero is exact, and of two zeros it is -0.0 only when both are. -/
theorem zeroIncrementFreezesPhase : Obligations.ZeroIncrementFreezesPhase := by
  unfold Obligations.ZeroIncrementFreezesPhase
  intro p hp
  have hfin := isFinite32_of_phaseOK hp
  refine ⟨?_, fun hne => ?_, by decide +kernel⟩
  · by_cases h0 : key32 p = 0
    · obtain rfl | rfl := key32_eq_zero_iff.mp h0 <;> decide +kernel
    · rw [advance, add32_of_units_zero hfin (by decide) (by decide) h0, wrapPhase_of_phaseOK hp]
  · by_cases h0 : key32 p = 0
    · obtain rfl | rfl := key32_eq_zero_iff.mp h0
      · decide +kernel
      · exact absurd rfl hne
    · rw [advance, add32_of_units_zero hfin (by decide) (by decide) h0, wrapPhase_of_phaseOK hp]

end Sys2Proof.Machine
end

section
/-! A rounded value is the nearest one, the even one of two equally near (R15), first in units and then as an exact
value. -/

namespace Sys2Proof.Machine

/-! Overflow. -/

/-- The midpoint above the largest finite value, in units: rounding yields a finite value below it alone. -/
def overflowUnits : Nat := (2 ^ 128 - 2 ^ 103) * 2 ^ 149

theorem roundMag_overflowUnits : b32.roundMag overflowUnits 1 = b32.infMag := by decide +kernel

theorem unitsOf_infMag : b32.unitsOf b32.infMag + b32.unitsOf (b32.infMag - 1) = 2 * overflowUnits := by decide +kernel

theorem roundMag_eq_infMag {n d : Nat} (hd : 0 < d) (h : overflowUnits * d ≤ n) : b32.roundMag n d = b32.infMag := by
  refine le_antisymm (b32.roundMag_le_infMag n d) ?_
  rw [← roundMag_overflowUnits]
  exact b32.roundMag_mono b32_frac one_pos hd (by rwa [mul_one])

theorem roundMag_lt_infMag {n d : Nat} (hd : 0 < d) (h : n < overflowUnits * d) : b32.roundMag n d < b32.infMag := by
  obtain ⟨m, hm, -, hround⟩ := b32.roundMag_spec b32_frac n d hd
  have hsum := unitsOf_infMag
  have hinf : 0 < b32.infMag := by decide
  have hmlt : m < b32.infMag := by
    rw [← b32.unitsOf_strictMono.lt_iff_lt]
    have hlast := b32.unitsOf_strictMono (Nat.sub_one_lt hinf.ne')
    refine lt_of_le_of_lt ?_ (by omega : overflowUnits < b32.unitsOf b32.infMag)
    exact Nat.le_of_mul_le_mul_right (hm.trans h.le) hd
  rw [hround]
  split
  next hup =>
    by_contra hge
    have hm1 : m = b32.infMag - 1 := by omega
    have hmid : b32.unitsOf m + b32.unitsOf (m + 1) = 2 * overflowUnits := by
      rw [hm1, Nat.sub_add_cancel hinf, ← hsum, Nat.add_comm]
    rw [hmid, mul_assoc] at hup
    omega
  next => omega

/-! The nearest encoding. -/

/-- The distance of `u` units from `n / d` units, in units over `d`. -/
def distUnits (u n : Int) (d : Nat) : Nat := (u * d - n).natAbs

theorem distUnits_neg (u n : Int) (d : Nat) : distUnits (-u) (-n) d = distUnits u n d := by
  rw [distUnits, distUnits, neg_mul, ← Int.natAbs_neg, neg_sub_neg, neg_sub]

/-- A rounded fraction is nearer than any other value of its sign, or as near as another and even. -/
theorem Fmt.roundMag_nearest (f : Fmt) (hf : 0 < f.fracBits) {n d : Nat} (hd : 0 < d) (hfin : f.roundMag n d < f.infMag)
    (k : Nat) :
    distUnits (f.unitsOf (f.roundMag n d)) n d < distUnits (f.unitsOf k) n d ∨
      distUnits (f.unitsOf (f.roundMag n d)) n d = distUnits (f.unitsOf k) n d ∧
        (k = f.roundMag n d ∨ f.roundMag n d % 2 = 0) := by
  obtain ⟨m, hlow, hhigh, hround⟩ := f.roundMag_spec hf n d hd
  have hbelow : k < m → f.unitsOf k * d < f.unitsOf m * d :=
    fun h => Nat.mul_lt_mul_of_pos_right (f.unitsOf_strictMono h) hd
  have habove : m + 1 < k → f.unitsOf (m + 1) * d < f.unitsOf k * d :=
    fun h => Nat.mul_lt_mul_of_pos_right (f.unitsOf_strictMono h) hd
  have hk : k = m ∨ k = m + 1 ∨ k < m ∨ m + 1 < k := by omega
  simp only [distUnits, ← Nat.cast_mul]
  rw [Nat.add_mul] at hround
  split at hround
  next hup =>
    have hr : f.roundMag n d = m + 1 := by omega
    rw [hr]
    obtain rfl | rfl | h | h := hk
    · omega
    · omega
    · have := hbelow h; omega
    · have := habove h; omega
  next hdown =>
    have hr : f.roundMag n d = m := by omega
    rw [hr]
    obtain rfl | rfl | h | h := hk
    · omega
    · omega
    · have := hbelow h; omega
    · have := habove h; omega

/-! Signs. -/

theorem units32_nonneg_iff {a : F32} : 0 ≤ units32 a ↔ 0 ≤ key32 a := by
  exact (key32_le_iff zero32 a).symm

/-- The units of a rounded result carry the sign of the exact one. -/
theorem units32_of_key {r : F32} {n : Int} {d : Nat} (hr : key32 r = b32.roundSigned n d) :
    units32 r =
      if n < 0 then -(b32.unitsOf (b32.roundMag n.natAbs d) : Int) else b32.unitsOf (b32.roundMag n.natAbs d) := by
  have hmag : (units32 r).natAbs = b32.unitsOf (b32.roundMag n.natAbs d) := by
    rw [units32_natAbs, ← key32_natAbs, hr, Fmt.roundSigned_natAbs]
  have hsign := units32_nonneg_iff (a := r)
  have hzero := units32_eq_zero_iff (a := r)
  rw [hr, Fmt.roundSigned] at hsign hzero
  split at hsign
  next hn =>
    rw [if_pos hn] at hzero ⊢
    omega
  next hn =>
    rw [if_neg hn]
    omega

theorem mag_mod_two (a : F32) : b32.mag a.toNat % 2 = a.toNat % 2 := by
  rw [Fmt.mag, b32_signWeight]
  omega

/-- The nearest value to an exact result that is not negative. -/
theorem nearest_of_nonneg {r c : F32} {n : Int} {d : Nat} (hd : 0 < d) (hn : 0 ≤ n) (hr : key32 r = b32.roundSigned n d)
    (hfin : isFinite32 r = true) :
    distUnits (units32 r) n d < distUnits (units32 c) n d ∨
      distUnits (units32 r) n d = distUnits (units32 c) n d ∧ (units32 c = units32 r ∨ r.toNat % 2 = 0) := by
  obtain ⟨m, rfl⟩ := Int.eq_ofNat_of_zero_le hn
  have hmag : b32.mag r.toNat = b32.roundMag m d := by
    rw [← key32_natAbs, hr, Fmt.roundSigned_natAbs, Int.natAbs_natCast]
  have hur : units32 r = b32.unitsOf (b32.mag r.toNat) := by
    rw [units32_of_key hr, if_neg hn.not_gt, Int.natAbs_natCast, hmag]
  have hnear := b32.roundMag_nearest b32_frac hd (n := m) (hmag ▸ (isFinite32_iff r).mp hfin)
  rw [← hmag, ← hur] at hnear
  obtain hc | hc := le_or_gt 0 (units32 c)
  · have huc : units32 c = b32.unitsOf (b32.mag c.toNat) := by rw [← units32_natAbs, Int.natAbs_of_nonneg hc]
    rw [← mag_mod_two, huc]
    obtain h | ⟨h, hk | heven⟩ := hnear (b32.mag c.toNat)
    · exact .inl h
    · exact .inr ⟨h, .inl (by rw [hur, hk])⟩
    · exact .inr ⟨h, .inr heven⟩
  · have hneg : units32 c * d < 0 := mul_neg_of_neg_of_pos hc (by exact_mod_cast hd)
    have hzero := hnear 0
    left
    simp only [distUnits, Fmt.unitsOf_zero] at hzero ⊢
    omega

/-- The nearest value to any exact result that does not overflow. -/
theorem nearest_of_roundSigned {r : F32} {n : Int} {d : Nat} (hd : 0 < d) (hr : key32 r = b32.roundSigned n d)
    (hfin : isFinite32 r = true) (c : F32) :
    distUnits (units32 r) n d < distUnits (units32 c) n d ∨
      distUnits (units32 r) n d = distUnits (units32 c) n d ∧ (units32 c = units32 r ∨ r.toNat % 2 = 0) := by
  obtain hn | hn := le_or_gt 0 n
  · exact nearest_of_nonneg hd hn hr hfin
  · have hr' : key32 (neg32 r) = b32.roundSigned (-n) d := by rw [key32_neg32, hr, b32.roundSigned_neg b32_frac _ _ hd]
    have h := nearest_of_nonneg (c := neg32 c) hd (by omega) hr' (by rwa [isFinite32_neg32])
    rw [units32_neg32, units32_neg32, distUnits_neg, distUnits_neg, neg_inj, ← mag_mod_two, neg32_mag, mag_mod_two] at h
    exact h

/-! Exact values. -/

theorem abs_value32_sub {c : F32} (hc : isFinite32 c = true) (n : Int) {d : Nat} (hd : 0 < d) :
    |value32 c - (n : ℚ) / (d * 2 ^ 149)| = (distUnits (units32 c) n d : ℚ) / (d * 2 ^ 149) := by
  have hdq : (0 : ℚ) < d := by exact_mod_cast hd
  have hsub : value32 c - (n : ℚ) / (d * 2 ^ 149) = ((units32 c * d - n : Int) : ℚ) / (d * 2 ^ 149) := by
    rw [value32_eq hc]
    push_cast
    field_simp
  rw [hsub, abs_div, distUnits, Nat.cast_natAbs, Int.cast_abs, abs_of_pos (by positivity : (0 : ℚ) < d * 2 ^ 149)]

theorem overflowUnits_eq : (overflowUnits : ℚ) = (2 ^ 128 - 2 ^ 103) * 2 ^ 149 := by
  rw [overflowUnits, Nat.cast_mul, Nat.cast_sub (by norm_num)]
  push_cast
  rfl

/-- Overflow, in units. -/
theorem overflow_iff (n : Int) {d : Nat} (hd : 0 < d) :
    2 ^ 128 - 2 ^ 103 ≤ (n : ℚ) / (d * 2 ^ 149) ↔ (overflowUnits * d : Nat) ≤ n := by
  have hdq : (0 : ℚ) < d := by exact_mod_cast hd
  rw [le_div_iff₀ (by positivity), ← Int.cast_le (R := ℚ)]
  push_cast
  rw [overflowUnits_eq, mul_comm (d : ℚ), ← mul_assoc]

/-- The infinity of the sign of an exact result that overflows. -/
theorem eq_inf_of_overflow {r : F32} {n : Int} {d : Nat} (hd : 0 < d) (hr : key32 r = b32.roundSigned n d)
    (h : overflowUnits * d ≤ n.natAbs) : r = if n < 0 then 0xFF800000#32 else 0x7F800000#32 := by
  refine eq_of_key32_eq ?_ ?_
  · rw [hr, Fmt.roundSigned, roundMag_eq_infMag hd h]
    split <;> rfl
  · rw [← Int.natAbs_ne_zero, hr, Fmt.roundSigned_natAbs, roundMag_eq_infMag hd h]
    decide

/-- A result that is the rounding of `n / d` units is the nearest to that exact value. -/
theorem nearest32_of_key {r : F32} {n : Int} {d : Nat} (hd : 0 < d) (hr : key32 r = b32.roundSigned n d) :
    Nearest32 ((n : ℚ) / (d * 2 ^ 149)) r := by
  have hdq : (0 : ℚ) < d * 2 ^ 149 := by
    have : (0 : ℚ) < d := by exact_mod_cast hd
    positivity
  have hpos := overflow_iff n hd
  have hneg := overflow_iff (-n) hd
  rw [Int.cast_neg, neg_div, le_neg] at hneg
  obtain hlt | hge := lt_or_ge n.natAbs (overflowUnits * d)
  · have hfin : isFinite32 r = true := by
      rw [isFinite32_iff_key, hr, Fmt.roundSigned_natAbs]
      exact roundMag_lt_infMag hd hlt
    refine .inl ⟨hfin, ?_, fun c hc => ?_⟩
    · rw [abs_lt, ← not_le, ← not_le, hpos, hneg]
      omega
    · rw [abs_value32_sub hfin n hd, abs_value32_sub hc n hd, div_lt_div_iff_of_pos_right hdq, Nat.cast_lt,
        div_left_inj' hdq.ne', Nat.cast_inj]
      obtain h | ⟨h, hu | heven⟩ := nearest_of_roundSigned hd hr hfin c
      · exact .inl h
      · exact .inr ⟨h, .inl (by rw [value32_eq hfin, value32_eq hc, hu])⟩
      · exact .inr ⟨h, .inr heven⟩
  · have hr' := eq_inf_of_overflow hd hr hge
    obtain hn | hn := lt_or_ge n 0
    · exact .inr (.inr ⟨by rw [hr', if_pos hn], hneg.mpr (by omega)⟩)
    · exact .inr (.inl ⟨by rw [hr', if_neg hn.not_gt], hpos.mpr (by omega)⟩)

/-! The four operations. -/

/-- The sign of a value that is not zero. -/
theorem sign_units32 {b : F32} (hne : units32 b ≠ 0) : (units32 b).sign = if b32.neg b.toNat then -1 else 1 := by
  have hmag : b32.unitsOf (b32.mag b.toNat) ≠ 0 := by rw [← units32_natAbs]; omega
  rw [units32, Fmt.signed]
  split
  · rw [Int.sign_neg, Int.sign_natCast_of_ne_zero hmag]
  · rw [Int.sign_natCast_of_ne_zero hmag]

/-- `/32` of finite values, by one that is not zero: the exact quotient, rounded once (R15). -/
theorem div32_key_ne_zero {a b : F32} (ha : isFinite32 a = true) (hb : isFinite32 b = true) (hne : units32 b ≠ 0) :
    key32 (div32 a b) = b32.roundSigned (units32 a * 2 ^ 149 * (units32 b).sign) (units32 b).natAbs := by
  have hmag : b32.unitsOf (b32.mag b.toNat) ≠ 0 := by rw [← units32_natAbs]; omega
  have h := (fill32_ratio .div a.toNat b.toNat (b32.neg a.toNat != b32.neg b.toNat)
    (b32.unitsOf (b32.mag a.toNat) * 2 ^ b32.unitExp) (b32.unitsOf (b32.mag b.toNat)) (Nat.pos_of_ne_zero hmag)).1
  rw [div32, unpack32_of_finite ha, unpack32_of_finite hb, Fmt.divExact]
  simp only [if_neg hmag]
  rw [h, units32_natAbs, sign_units32 hne, units32, Fmt.signed, b32_unitExp]
  cases b32.neg a.toNat <;> cases b32.neg b.toNat <;> simp

/-- A quotient of values in units of `1 / c`, its sign in the numerator. -/
theorem signed_quotient (m : Int) {n : Int} (hn : n ≠ 0) {c : ℚ} (hc : c ≠ 0) :
    (m : ℚ) * c * (n.sign : ℚ) / ((n.natAbs : ℚ) * c) = m / c / (n / c) := by
  have hnq : (n : ℚ) ≠ 0 := by exact_mod_cast hn
  have hsign : (n.sign : ℚ) ≠ 0 := by
    rw [Int.cast_ne_zero, Ne, Int.sign_eq_zero_iff_zero]
    exact hn
  have habs : (n.natAbs : ℚ) = n * n.sign := by
    rw [Nat.cast_natAbs, ← Int.cast_mul, mul_comm, Int.sign_mul_self_eq_abs]
  rw [habs]
  field_simp

/-- Settles O42: each operation rounds its exact result once. -/
theorem arithmeticRoundsToNearestEven : Obligations.ArithmeticRoundsToNearestEven := by
  unfold Obligations.ArithmeticRoundsToNearestEven
  intro a b ha hb
  have hone : ((1 : ℕ) : ℚ) * 2 ^ 149 = 2 ^ 149 := by rw [Nat.cast_one, one_mul]
  rw [value32_eq ha, value32_eq hb]
  refine ⟨?_, ?_, ?_, fun hne => ?_⟩
  · have h := nearest32_of_key one_pos (add32_key ha hb).1
    rwa [hone, Int.cast_add, add_div] at h
  · have h := nearest32_of_key one_pos (sub32_key ha hb).1
    rwa [hone, Int.cast_sub, sub_div] at h
  · have h := nearest32_of_key (Nat.two_pow_pos 149) (mul32_key ha hb).1
    rwa [Int.cast_mul, Nat.cast_pow, Nat.cast_ofNat, mul_div_mul_comm] at h
  · have hub : units32 b ≠ 0 := by
      rintro h
      simp [h] at hne
    have h := nearest32_of_key (Int.natAbs_pos.mpr hub) (div32_key_ne_zero ha hb hub)
    rwa [Int.cast_mul, Int.cast_mul, Int.cast_pow, Int.cast_ofNat, signed_quotient _ hub (by positivity)] at h

end Sys2Proof.Machine
end

section
/-! The computed sine (R12, R114): its result is its clamped fixed-point value rounded once, so it is odd, and both shapes
stay in `[-1, 1]` (R122). -/

namespace Sys2Proof.Machine

/-- The fixed-point sine of a number of units, cut to the range of the function. -/
def sinClamped (units : Nat) : Int := clampSin (cosSin units).2

theorem sinClamped_zero : sinClamped 0 = 0 := by decide +kernel

/-- The sign and the rounded magnitude of the computed sine; both zeros are no exception. -/
theorem sinBits_eq (neg : Bool) (units : Nat) :
    sinBits neg units = b32.signOf (neg != decide (sinClamped units < 0)) + sinMag (sinClamped units).natAbs := by
  by_cases h : units = 0
  · have hmag : sinMag 0 = 0 := by rw [sinMag, Nat.zero_mul, b32.roundMag_zero b32_frac _ (Nat.two_pow_pos _)]
    rw [sinBits, if_pos h, h, sinClamped_zero, Int.natAbs_zero, hmag, decide_eq_false (lt_irrefl _), Bool.bne_false]
    rfl
  · rw [sinBits, if_neg h]
    rfl

section Finite

variable {x : F32}

theorem sin32_of_finite (hx : isFinite32 x = true) :
    sin32 x = BitVec.ofNat 32 (sinBits (b32.neg x.toNat) (b32.unitsOf (b32.mag x.toNat))) := by
  rw [sin32, unpack32_of_finite hx]

theorem sin32_toNat (hx : isFinite32 x = true) :
    (sin32 x).toNat = sinBits (b32.neg x.toNat) (b32.unitsOf (b32.mag x.toNat)) := by
  rw [sin32_of_finite hx, BitVec.toNat_ofNat, Nat.mod_eq_of_lt]
  rw [sinBits_eq]
  exact signOf_add_lt _ _ _

/-- The other sign on a magnitude. -/
theorem signOf_not_add (s : Bool) {m : Nat} (hm : m < 2 ^ 31) :
    b32.signOf (!s) + m = if b32.signOf s + m < 2 ^ 31 then b32.signOf s + m + 2 ^ 31 else b32.signOf s + m - 2 ^ 31 := by
  have hplus : b32.signOf false = 0 := rfl
  have hminus : b32.signOf true = 2 ^ 31 := rfl
  cases s
  · rw [Bool.not_false, hplus, hminus, if_pos (by omega)]
    omega
  · rw [Bool.not_true, hplus, hminus, if_neg (by omega)]
    omega

/-- The sine is odd, a zero included (R114). -/
theorem sin32_neg32 (hx : isFinite32 x = true) : sin32 (neg32 x) = neg32 (sin32 x) := by
  have hmag (v : Nat) : sinMag v < 2 ^ 31 := (b32.roundMag_le_infMag _ _).trans_lt b32_inf_lt
  apply BitVec.eq_of_toNat_eq
  rw [neg32_toNat, sin32_toNat hx, sin32_toNat (by rwa [isFinite32_neg32]), neg32_mag, neg32_neg, sinBits_eq, sinBits_eq,
    Bool.not_bne, signOf_not_add _ (hmag _)]

/-- The computed sine of a value that is not negative: its fixed-point value, rounded once. -/
theorem sin32_key (hx : isFinite32 x = true) (hpos : b32.neg x.toNat = false) :
    key32 (sin32 x) = b32.roundSigned (sinClamped (b32.unitsOf (b32.mag x.toNat)) * 2 ^ 149) (2 ^ sinScale) ∧
      isNaN32 (sin32 x) = false := by
  generalize hv : sinClamped (b32.unitsOf (b32.mag x.toNat)) = v
  have h := fill32_ratio .sin 0 0 (decide (v < 0)) (v.natAbs * 2 ^ b32.unitExp) (2 ^ sinScale) (Nat.two_pow_pos _)
  have hsin : sin32 x =
      fill32 .sin 0 0 (b32.round (.ratio (decide (v < 0)) (v.natAbs * 2 ^ b32.unitExp) (2 ^ sinScale))) := by
    rw [sin32_of_finite hx, sinBits_eq, hv, hpos, Bool.false_bne]
    rfl
  have hsigned :
      (if decide (v < 0) then -((v.natAbs * 2 ^ b32.unitExp : Nat) : Int) else (v.natAbs * 2 ^ b32.unitExp : Nat)) =
        v * 2 ^ 149 := by
    rw [b32_unitExp, Nat.cast_mul, Nat.cast_pow, Nat.cast_ofNat]
    split
    next hneg =>
      rw [decide_eq_true_eq] at hneg
      rw [Int.ofNat_natAbs_of_nonpos hneg.le, neg_mul, neg_neg]
    next hnneg =>
      rw [decide_eq_true_eq, not_lt] at hnneg
      rw [Int.natAbs_of_nonneg hnneg]
  rw [hsin]
  rwa [hsigned] at h

end Finite

theorem natAbs_sinClamped_le (units : Nat) : (sinClamped units).natAbs ≤ 2 ^ sinScale := by
  have hpos : 0 < 2 ^ sinScale := Nat.two_pow_pos _
  have hcast : ((2 ^ sinScale : Nat) : Int) = 2 ^ sinScale := by rw [Nat.cast_pow, Nat.cast_ofNat]
  rw [sinClamped, clampSin, ← hcast]
  omega

theorem unitsOf_one : b32.unitsOf 0x3F800000 = 2 ^ b32.unitExp := by decide +kernel

/-- A fixed-point magnitude of at most 1 rounds to at most 1. -/
theorem sinMag_le {v : Nat} (h : v ≤ 2 ^ sinScale) : sinMag v ≤ 0x3F800000 := by
  have hone := b32.roundMag_exact b32_frac 0x3F800000 (2 ^ sinScale) (Nat.two_pow_pos _)
  rw [unitsOf_one, Nat.min_eq_right (by decide)] at hone
  rw [sinMag, ← hone]
  refine b32.roundMag_mono b32_frac (Nat.two_pow_pos _) (Nat.two_pow_pos _) (Nat.mul_le_mul_right _ ?_)
  rw [mul_comm]
  exact Nat.mul_le_mul_left _ h

/-- The computed sine is no larger than 1. -/
theorem sin32_mag_le {x : F32} (hx : isFinite32 x = true) : b32.mag (sin32 x).toNat ≤ 0x3F800000 := by
  have hle := sinMag_le (natAbs_sinClamped_le (b32.unitsOf (b32.mag x.toNat)))
  rw [sin32_toNat hx, sinBits_eq, b32.mag_signOf_add _ _ (hle.trans_lt (by decide))]
  exact hle

theorem isFinite32_sin32 {x : F32} (hx : isFinite32 x = true) : isFinite32 (sin32 x) = true :=
  (isFinite32_iff _).mpr ((sin32_mag_le hx).trans_lt (by decide))

/-- Law L1 of the computed sine. -/
theorem sin32_bounds {x : F32} (hx : isFinite32 x = true) :
    le32 (neg32 one32) (sin32 x) = true ∧ le32 (sin32 x) one32 = true := by
  have hle := sin32_mag_le hx
  have hnan := isNaN32_of_isFinite32 (isFinite32_sin32 hx)
  rw [← key32_natAbs] at hle
  rw [le32_iff, le32_iff, isNaN32_neg32, key32_neg32, key32_one32]
  exact ⟨⟨rfl, hnan, by omega⟩, hnan, rfl, by omega⟩

theorem sineBounded_sin32 : SineBounded sin32 := fun x hlow hhigh =>
  sin32_bounds (isFinite32_of_between (by decide) isFinite32_pi32 hlow hhigh)

/-- Both shapes stay in `[-1, 1]` on the phase interval (R122). -/
theorem wave_bounds {p : Params} (hsine : SineBounded p.sin32) (w : Wave) {x : F32} (hx : phaseOK x = true) :
    le32 (neg32 one32) (wave p w x) = true ∧ le32 (wave p w x) one32 = true := by
  cases w with
  | sine =>
    rw [phaseOK, Bool.and_eq_true] at hx
    obtain ⟨hlow, hhigh⟩ := hx
    obtain ⟨hnan, hnan', hlt⟩ := (lt32_iff _ _).mp hhigh
    exact hsine x hlow ((le32_iff _ _).mpr ⟨hnan, hnan', hlt.le⟩)
  | tri => exact tri32_bounds hx

/-- Settles O45: a phase of the invariant is in the sine's interval and within the triangle's corners, and the computed
sine is cut to `[-1, 1]` before it is rounded. -/
theorem shapesStayInRange : Obligations.ShapesStayInRange := by
  unfold Obligations.ShapesStayInRange
  exact ⟨fun p s w hsine hinv => wave_bounds hsine w (hinv.osc w).phase, sineBounded_sin32⟩

end Sys2Proof.Machine
end

section
/-! Whole blocks (R152): in every state of the invariant and for all legal parameters, each multiplier is one of a legal
depth and an LFO value of `[-1, 1]`. -/

namespace Sys2Proof.Machine

theorem ParamsLegal.sineBounded {p : Params} (h : ParamsLegal p) : SineBounded p.sin32 := by
  obtain hdefault | hlegal := h.sine
  · exact hdefault ▸ sineBounded_sin32
  · exact hlegal.bounded

/-- The increment a block runs with is legal (R124). -/
theorem Inv.incOK_blockInc {s : State} (h : Inv s) (hp : s.prepared = true) (hadopt : adoptFreqOK s = true) (w : Wave) :
    incOK (blockInc s w) = true := by
  have hosc := h.adopted hp hadopt w
  rw [adopt_get] at hosc
  exact (hosc.inc rfl).2

/-- The multiplier of every frame of a block that runs. -/
theorem blockMul_bounds {p : Params} {s : State} (hsine : SineBounded p.sin32) (h : Inv s) (hp : s.prepared = true)
    (hadopt : adoptFreqOK s = true) (k : Nat) :
    le32 (sub32 one32 s.depth) (blockMul p s k) = true ∧ le32 (blockMul p s k) one32 = true := by
  have hphase := phaseOK_phaseAfter (h.osc s.pend).phase (h.incOK_blockInc hp hadopt s.pend) (k + 1)
  obtain ⟨hlow, hhigh⟩ := wave_bounds hsine s.pend hphase
  exact modMul_bounds h.depth hlow hhigh

/-- Settles O51: the frames keep the phases in their interval, so the LFO values in `[-1, 1]` and the multipliers in the
range of the depth, and each word is its sample times the multiplier of its frame. -/
theorem blocksAttenuateWithinDepth : Obligations.BlocksAttenuateWithinDepth := by
  unfold Obligations.BlocksAttenuateWithinDepth
  refine ⟨fun p s nch nfr xs hlegal hinv hruns => ?_, ⟨by decide, by decide, .inl rfl⟩, fun _ _ _ _ => rfl⟩
  have hadopt := adoptFreqOK_iff.mpr hruns.increments
  exact ⟨_, blockMul p s, blockWords p nch nfr xs s, processWith_of_blockRuns p hruns,
    hinv.applyFrames hruns.prepared hadopt p nch nfr xs, congrArg State.out (applyFrames_writes ..),
    fun k _ => blockMul_bounds hlegal.sineBounded hinv hruns.prepared hadopt k,
    fun k c x y hk hc hx hy => blockWords_isOutput hruns.length hk hc hx hy⟩

end Sys2Proof.Machine
end

section
/-! How near the computed sine is to the sine (R12, R114): its evaluation's error (`cosSin_sound`), the cut to `[-1, 1]`,
which only brings it nearer, and one rounding. -/

namespace Sys2Proof.Machine

/-! Values as reals, and signs. -/

/-- The distance of a value from the sine of another. -/
noncomputable def sinErr (c x : F32) : ℝ := |((value32 c : ℚ) : ℝ) - Real.sin ((value32 x : ℚ) : ℝ)|

theorem value32_real {a : F32} (h : isFinite32 a = true) : ((value32 a : ℚ) : ℝ) = (units32 a : ℝ) / 2 ^ 149 := by
  rw [value32_eq h, Rat.cast_div, Rat.cast_intCast, Rat.cast_pow, Rat.cast_ofNat]

theorem value32_neg32 {a : F32} (h : isFinite32 a = true) : value32 (neg32 a) = -value32 a := by
  rw [value32_eq h, value32_eq (by rwa [isFinite32_neg32]), units32_neg32, Int.cast_neg, neg_div]

/-- The sine is odd, so negating both values keeps the distance. -/
theorem sinErr_neg32 {c x : F32} (hc : isFinite32 c = true) (hx : isFinite32 x = true) :
    sinErr (neg32 c) (neg32 x) = sinErr c x := by
  rw [sinErr, sinErr, value32_neg32 hc, value32_neg32 hx, Rat.cast_neg, Rat.cast_neg, Real.sin_neg, neg_sub_neg,
    abs_sub_comm]

/-- So is the computed sine. -/
theorem sinErr_sin32_neg32 {x : F32} (hx : isFinite32 x = true) :
    sinErr (sin32 (neg32 x)) (neg32 x) = sinErr (sin32 x) x := by
  rw [sin32_neg32 hx, sinErr_neg32 (isFinite32_sin32 hx) hx]

/-! The evaluation. -/

theorem unitsOf_lt_of_finite {x : F32} (hx : isFinite32 x = true) : b32.unitsOf (b32.mag x.toNat) < 2 ^ 277 := by
  have hinf : b32.unitsOf b32.infMag = 2 ^ 277 := by decide +kernel
  rw [← hinf]
  exact b32.unitsOf_strictMono ((isFinite32_iff x).mp hx)

theorem value32_of_nonneg {x : F32} (hx : isFinite32 x = true) (hpos : b32.neg x.toNat = false) :
    ((value32 x : ℚ) : ℝ) = (b32.unitsOf (b32.mag x.toNat) : ℝ) / 2 ^ 149 := by
  rw [value32_real hx, units32, Fmt.signed, hpos, if_neg Bool.false_ne_true, Int.cast_natCast]

/-- The evaluation, as fractions of the scale. -/
theorem cosSin_near {x : F32} (hx : isFinite32 x = true) (hpos : b32.neg x.toNat = false) :
    |((cosSin (b32.unitsOf (b32.mag x.toNat))).2 : ℝ) - sinOne * Real.sin ((value32 x : ℚ) : ℝ)| ≤
      sinError (sinHalvings (b32.unitsOf (b32.mag x.toNat))) := by
  rw [value32_of_nonneg hx hpos]
  exact (cosSin_sound _ (unitsOf_lt_of_finite hx)).2

/-! One rounding of a fixed-point value. -/

theorem sinOne_cast : ((2 ^ sinScale : ℕ) : ℝ) = sinOne := by rw [sinOne_eq, Nat.cast_pow, Nat.cast_ofNat]

/-- The distance of a value from a fraction, as a real. -/
theorem abs_value32_sub_real {c : F32} (hc : isFinite32 c = true) (v : Int) {d : Nat} (hd : 0 < d) :
    |((value32 c : ℚ) : ℝ) - v / d| = (distUnits (units32 c) (v * 2 ^ 149) d : ℝ) / (d * 2 ^ 149) := by
  have h := abs_value32_sub hc (v * 2 ^ 149) hd
  rw [Int.cast_mul, Int.cast_pow, Int.cast_ofNat, mul_div_mul_right _ _ (by positivity)] at h
  have hreal := congrArg (Rat.cast : ℚ → ℝ) h
  rwa [Rat.cast_abs, Rat.cast_sub, Rat.cast_div, Rat.cast_intCast, Rat.cast_natCast, Rat.cast_div, Rat.cast_natCast,
    Rat.cast_mul, Rat.cast_natCast, Rat.cast_pow, Rat.cast_ofNat] at hreal

/-- A fixed-point value rounded is the sign of it on its rounded magnitude. -/
theorem roundSigned_fixed (v : Int) :
    b32.roundSigned (v * 2 ^ 149) (2 ^ sinScale) = if v < 0 then -(sinMag v.natAbs : Int) else sinMag v.natAbs := by
  have hmag : (v * 2 ^ 149).natAbs = v.natAbs * 2 ^ b32.unitExp := by
    rw [Int.natAbs_mul, Int.natAbs_pow, b32_unitExp]
    rfl
  have hsign : v * 2 ^ 149 < 0 ↔ v < 0 := by omega
  rw [Fmt.roundSigned, hmag, sinMag]
  simp only [hsign]

/-- What rounds a fixed-point value is nearest to it. -/
theorem fixed_nearest {r c : F32} {v : Int} (hr : key32 r = b32.roundSigned (v * 2 ^ 149) (2 ^ sinScale))
    (hfin : isFinite32 r = true) (hc : isFinite32 c = true) :
    |((value32 r : ℚ) : ℝ) - v / sinOne| ≤ |((value32 c : ℚ) : ℝ) - v / sinOne| := by
  have hd : 0 < 2 ^ sinScale := Nat.two_pow_pos _
  rw [← sinOne_cast, abs_value32_sub_real hfin v hd, abs_value32_sub_real hc v hd]
  have hle : distUnits (units32 r) (v * 2 ^ 149) (2 ^ sinScale) ≤ distUnits (units32 c) (v * 2 ^ 149) (2 ^ sinScale) := by
    obtain h | ⟨h, -⟩ := nearest_of_roundSigned hd hr hfin c
    · exact h.le
    · exact h.le
  gcongr

/-- A value nearest to both ends of an interval is nearest to every point of it. -/
theorem nearest_of_ends {a b lo hi y : ℝ} (hlo : |a - lo| ≤ |b - lo|) (hhi : |a - hi| ≤ |b - hi|) (h1 : lo ≤ y)
    (h2 : y ≤ hi) : |a - y| ≤ |b - y| := by
  rw [← sq_le_sq] at hlo hhi ⊢
  obtain hab | hab := le_total a b <;> nlinarith

/-! Where the rounding is settled. -/

/-- The rounding is settled: the ends of the interval of the error round as the computed value does. -/
theorem sinDecided_ends {units : Nat} (h0 : units ≠ 0) (h : sinDecided units = true) :
    b32.roundSigned (((cosSin units).2 - sinError (sinHalvings units)) * 2 ^ 149) (2 ^ sinScale) =
        b32.roundSigned (sinClamped units * 2 ^ 149) (2 ^ sinScale) ∧
      b32.roundSigned (((cosSin units).2 + sinError (sinHalvings units)) * 2 ^ 149) (2 ^ sinScale) =
        b32.roundSigned (sinClamped units * 2 ^ 149) (2 ^ sinScale) := by
  have hpos : (0 : Int) < 2 ^ sinScale := by positivity
  have hsign : sinClamped units < 0 ↔ (cosSin units).2 < 0 := by
    rw [sinClamped, clampSin]
    omega
  simp only [sinDecided, Bool.or_eq_true, Bool.and_eq_true, beq_iff_eq, decide_eq_true_eq] at h
  obtain ⟨⟨hside, hlo⟩, hhi⟩ := h.resolve_left h0
  rw [roundSigned_fixed, roundSigned_fixed, roundSigned_fixed, hlo, hhi, sinClamped]
  rw [sinClamped] at hsign
  have hends : ((cosSin units).2 - sinError (sinHalvings units) < 0 ↔ clampSin (cosSin units).2 < 0) ∧
      ((cosSin units).2 + sinError (sinHalvings units) < 0 ↔ clampSin (cosSin units).2 < 0) := by
    omega
  simp only [hends, and_self]

/-- The sine lies between the ends of the evaluation's error. -/
theorem sin_mem_interval {v : Int} {e : Nat} {y : ℝ} (h : |(v : ℝ) - sinOne * y| ≤ e) :
    ((v - e : Int) : ℝ) / sinOne ≤ y ∧ y ≤ ((v + e : Int) : ℝ) / sinOne := by
  have hone := sinOne_pos
  obtain ⟨hlow, hhigh⟩ := abs_le.mp h
  rw [div_le_iff₀ hone, le_div_iff₀ hone, Int.cast_sub, Int.cast_add, Int.cast_natCast]
  constructor <;> linarith

/-- Where the rounding is settled no value is nearer to the sine, at a value that is not negative. -/
theorem sin32_nearest_of_nonneg {x c : F32} (hx : isFinite32 x = true) (hpos : b32.neg x.toNat = false)
    (hc : isFinite32 c = true) (hdec : sinDecided (b32.unitsOf (b32.mag x.toNat)) = true) :
    sinErr (sin32 x) x ≤ sinErr c x := by
  have hfin := isFinite32_sin32 hx
  obtain ⟨hkey, -⟩ := sin32_key hx hpos
  by_cases h0 : b32.unitsOf (b32.mag x.toNat) = 0
  · have hzero : units32 (sin32 x) = 0 := by
      rw [units32_eq_zero_iff, hkey, h0, sinClamped_zero, zero_mul, Fmt.roundSigned, if_neg (lt_irrefl 0)]
      exact congrArg Nat.cast (b32.roundMag_zero b32_frac _ (Nat.two_pow_pos _))
    have herr : sinErr (sin32 x) x = 0 := by
      rw [sinErr, value32_real hfin, hzero, value32_of_nonneg hx hpos, h0]
      simp
    rw [herr]
    exact abs_nonneg _
  · obtain ⟨hlo, hhi⟩ := sinDecided_ends h0 hdec
    obtain ⟨hlow, hhigh⟩ := sin_mem_interval (cosSin_near hx hpos)
    exact nearest_of_ends (fixed_nearest (hkey.trans hlo.symm) hfin hc) (fixed_nearest (hkey.trans hhi.symm) hfin hc)
      hlow hhigh

/-- Settles O47: the real sine lies between the ends of the evaluation's error, to both of which the result is the nearest
value; negative values by the sine being odd. -/
theorem computedSineIsCorrectlyRounded : Obligations.ComputedSineIsCorrectlyRounded := by
  unfold Obligations.ComputedSineIsCorrectlyRounded
  refine ⟨fun x c hx hc hdec => ⟨isFinite32_sin32 hx, ?_⟩, by decide, by decide, fun x hx => sin32_neg32 hx⟩
  change sinErr (sin32 x) x ≤ sinErr c x
  cases hneg : b32.neg x.toNat with
  | false => exact sin32_nearest_of_nonneg hx hneg hc hdec
  | true =>
    rw [← sinErr_sin32_neg32 hx, ← sinErr_neg32 hc hx]
    exact sin32_nearest_of_nonneg (by rwa [isFinite32_neg32]) (by rw [neg32_neg, hneg]; rfl) (by rwa [isFinite32_neg32])
      (by rwa [neg32_mag])

/-! Wherever it is settled or not (law L3). -/

/-- Cutting to the range of the sine brings a fixed-point value no farther from it. -/
theorem clampSin_near (v : Int) (θ : ℝ) :
    |(clampSin v : ℝ) - sinOne * Real.sin θ| ≤ |(v : ℝ) - sinOne * Real.sin θ| := by
  have hone := sinOne_pos
  have hy : sinOne * Real.sin θ = max (-sinOne) (min sinOne (sinOne * Real.sin θ)) := by
    have h1 := mul_le_mul_of_nonneg_left (Real.sin_le_one θ) hone.le
    have h2 := mul_le_mul_of_nonneg_left (Real.neg_one_le_sin θ) hone.le
    rw [min_eq_right (by linarith), max_eq_right (by linarith)]
  have hv : (clampSin v : ℝ) = max (-sinOne) (min sinOne (v : ℝ)) := by
    rw [clampSin, Int.cast_max, Int.cast_min, Int.cast_neg, Int.cast_pow, Int.cast_ofNat, sinOne_eq]
  have hmax := abs_max_sub_max_le_max (-sinOne) (min sinOne (v : ℝ)) (-sinOne) (min sinOne (sinOne * Real.sin θ))
  have hmin := abs_min_sub_min_le_max sinOne (v : ℝ) sinOne (sinOne * Real.sin θ)
  rw [sub_self, abs_zero, max_eq_right (abs_nonneg (min sinOne (v : ℝ) - _))] at hmax
  rw [sub_self, abs_zero, max_eq_right (abs_nonneg ((v : ℝ) - _))] at hmin
  rw [← hy, ← hv] at hmax
  exact hmax.trans hmin

/-- Below 1 encodings are at most `2^-24` apart. -/
theorem unitsOf_succ_le {m : Nat} (h : m < 0x3F800000) : b32.unitsOf (m + 1) ≤ b32.unitsOf m + 2 ^ 125 := by
  obtain ⟨s, q, rfl, hq, hs⟩ := b32.exists_split m
  rw [b32.unitsOf_split s q (by omega) hs, Nat.add_assoc, b32.unitsOf_split s (q + 1) hq (by omega), Nat.add_one_mul]
  have hfrac : b32.fracBits = 23 := rfl
  rw [hfrac] at h hs
  have hs125 : s ≤ 125 := by omega
  exact Nat.add_le_add_left (Nat.pow_le_pow_right two_pos hs125) _

/-- Rounding a magnitude of at most 1 moves it by at most `2^-25`. -/
theorem roundMag_error {n d : Nat} (hd : 0 < d) (h : n ≤ b32.unitsOf 0x3F800000 * d) :
    2 * distUnits (b32.unitsOf (b32.roundMag n d)) n d ≤ 2 ^ 125 * d := by
  have hexact := b32.roundMag_exact b32_frac 0x3F800000 d hd
  rw [min_eq_right (by decide)] at hexact
  have hle : b32.roundMag n d ≤ 0x3F800000 := hexact ▸ b32.roundMag_mono b32_frac hd hd (Nat.mul_le_mul_right d h)
  obtain ⟨m, hlow, hhigh, -⟩ := b32.roundMag_spec b32_frac n d hd
  have hnear := b32.roundMag_nearest b32_frac hd (n := n) (hle.trans_lt (by decide))
  have hbelow := hnear m
  have habove := hnear (m + 1)
  simp only [distUnits, ← Nat.cast_mul] at hbelow habove ⊢
  obtain hm | hm := lt_or_ge m 0x3F800000
  · have hgap := Nat.mul_le_mul_right d (unitsOf_succ_le hm)
    rw [Nat.add_mul] at hgap
    omega
  · have hone := Nat.mul_le_mul_right d (b32.unitsOf_strictMono.monotone hm)
    omega

/-- The distance of a rounded result from the exact one, by magnitudes. -/
theorem distUnits_of_key {r : F32} {n : Int} {d : Nat} (hr : key32 r = b32.roundSigned n d) :
    distUnits (units32 r) n d = distUnits (b32.unitsOf (b32.roundMag n.natAbs d)) n.natAbs d := by
  rw [units32_of_key hr]
  split
  next hn => rw [Int.ofNat_natAbs_of_nonpos hn.le, ← distUnits_neg, neg_neg]
  next hn => rw [Int.natAbs_of_nonneg (not_lt.mp hn)]

/-- Rounding a fraction of at most 1 moves it by at most `2^-25`. -/
theorem rounded_near {r : F32} {v : Int} {d : Nat} (hd : 0 < d) (hv : v.natAbs ≤ d)
    (hr : key32 r = b32.roundSigned (v * 2 ^ 149) d) (hfin : isFinite32 r = true) :
    |((value32 r : ℚ) : ℝ) - v / d| ≤ 1 / 2 ^ 25 := by
  have hmag : (v * 2 ^ 149).natAbs ≤ b32.unitsOf 0x3F800000 * d := by
    rw [Int.natAbs_mul, unitsOf_one, mul_comm]
    exact Nat.mul_le_mul_left _ hv
  have herr := roundMag_error hd hmag
  rw [← distUnits_of_key hr] at herr
  rw [abs_value32_sub_real hfin v hd]
  have hdR : (0 : ℝ) < d := by exact_mod_cast hd
  have herrR : 2 * (distUnits (units32 r) (v * 2 ^ 149) d : ℝ) ≤ 2 ^ 125 * d := by exact_mod_cast herr
  rw [div_le_div_iff₀ (by positivity) (by positivity)]
  nlinarith

/-- A magnitude of at most PI32 is halved six times at most. -/
theorem sinError_phase_le {x : F32} (h : (units32 x).natAbs ≤ (units32 pi32).natAbs) :
    sinError (sinHalvings (b32.unitsOf (b32.mag x.toNat))) ≤ 2 ^ 17 := by
  have hpi : (units32 pi32).natAbs < 2 ^ 151 := by decide +kernel
  rw [units32_natAbs x] at h
  have hlog := log2_lt_of_lt (by decide) (h.trans_lt hpi)
  have hhalvings : sinHalvings (b32.unitsOf (b32.mag x.toNat)) ≤ 6 := by
    rw [sinHalvings, b32_unitExp]
    omega
  exact (sinError_mono hhalvings).trans (by decide)

theorem scaled_error_le : (2 : ℝ) ^ 17 / sinOne ≤ 1 / 2 ^ 400 := by
  rw [div_le_div_iff₀ sinOne_pos (by positivity), one_mul, sinOne_eq, ← pow_add]
  exact pow_le_pow_right₀ one_le_two (by decide)

/-- Law L3 at a value that is not negative. -/
theorem sinErr_sin32_of_nonneg {x : F32} (hx : isFinite32 x = true) (hpos : b32.neg x.toNat = false)
    (hle : (units32 x).natAbs ≤ (units32 pi32).natAbs) : sinErr (sin32 x) x ≤ 1 / 2 ^ 25 + 1 / 2 ^ 400 := by
  have hone := sinOne_pos
  have hround := rounded_near (Nat.two_pow_pos sinScale) (natAbs_sinClamped_le _) (sin32_key hx hpos).1
    (isFinite32_sin32 hx)
  rw [sinOne_cast] at hround
  have heval := ((clampSin_near _ _).trans (cosSin_near hx hpos)).trans (Nat.cast_le.mpr (sinError_phase_le hle))
  rw [Nat.cast_pow, Nat.cast_ofNat] at heval
  have hscaled (v : Int) (y : ℝ) (hv : |(v : ℝ) - sinOne * y| ≤ 2 ^ 17) : |v / sinOne - y| ≤ 1 / 2 ^ 400 := by
    have hdiv : v / sinOne - y = (v - sinOne * y) / sinOne := by field_simp
    rw [hdiv, abs_div, abs_of_pos hone]
    exact (div_le_div_of_nonneg_right hv hone.le).trans scaled_error_le
  exact (abs_sub_le _ _ _).trans (add_le_add hround (hscaled _ _ heval))

/-- Settles O46: half a unit in the last place below 1, and the evaluation's error, `2^17` units of `2^-512` at most on the
phase interval. -/
theorem computedSineIsNearTheSine : Obligations.ComputedSineIsNearTheSine := by
  unfold Obligations.ComputedSineIsNearTheSine
  have htol : ((params.sinTol : ℚ) : ℝ) = 1 / 2 ^ 25 := by
    rw [show params.sinTol = 1 / 2 ^ 25 from rfl, Rat.cast_div, Rat.cast_one, Rat.cast_pow, Rat.cast_ofNat]
  rw [htol]
  intro x hlow hhigh
  have hx := isFinite32_of_between (by decide) isFinite32_pi32 hlow hhigh
  have hle : (units32 x).natAbs ≤ (units32 pi32).natAbs := by
    have h1 := units32_le_of_le32 hlow
    have h2 := units32_le_of_le32 hhigh
    rw [negPi32_eq, units32_neg32] at h1
    omega
  change sinErr (sin32 x) x ≤ _
  cases hneg : b32.neg x.toNat with
  | false => exact sinErr_sin32_of_nonneg hx hneg hle
  | true =>
    rw [← sinErr_sin32_neg32 hx]
    exact sinErr_sin32_of_nonneg (by rwa [isFinite32_neg32]) (by rw [neg32_neg, hneg]; rfl)
      (by rwa [units32_neg32, Int.natAbs_neg])

end Sys2Proof.Machine
end

section
/-! The increment of a frequency (R111) grows with it, so the legal ones at 48 kHz end where the increment reaches the
period (R118). -/

namespace Sys2Proof.Machine

theorem Fmt.roundSigned_nonneg (f : Fmt) {n : Int} (h : 0 ≤ n) (d : Nat) : 0 ≤ f.roundSigned n d := by
  rw [Fmt.roundSigned, if_neg h.not_gt]
  exact Int.natCast_nonneg _

theorem isFinite64_iff_key (a : F64) : isFinite64 a = true ↔ (key64 a).natAbs < b64.infMag := by
  rw [key64_natAbs, isFinite64_iff]

theorem units64_nonneg_iff {a : F64} : 0 ≤ units64 a ↔ 0 ≤ key64 a := (key64_le_iff zero64 a).symm

/-- Of two results that round `m` and `n` over the same denominator with `0 ≤ m ≤ n`, the smaller is finite when the
larger is, and in order. -/
theorem rounded64_mono {x y : F64} {m n : Int} {d : Nat} (hd : 0 < d) (hx : key64 x = b64.roundSigned m d)
    (hy : key64 y = b64.roundSigned n d) (hm : 0 ≤ m) (hmn : m ≤ n) (hfin : isFinite64 y = true) :
    isFinite64 x = true ∧ 0 ≤ units64 x ∧ units64 x ≤ units64 y := by
  have hx0 : 0 ≤ key64 x := hx ▸ b64.roundSigned_nonneg hm d
  have hle : key64 x ≤ key64 y := by
    rw [hx, hy]
    exact b64.roundSigned_mono b64_frac hd hd (mul_le_mul_of_nonneg_right hmn (Int.natCast_nonneg d))
  refine ⟨?_, units64_nonneg_iff.mpr hx0, (key64_le_iff x y).mp hle⟩
  rw [isFinite64_iff_key] at hfin ⊢
  omega

/-- No step of `IncOf` before the last overflows. -/
def IncFinite (f : F32) (fs : F64) : Prop :=
  isFinite64 (widen f) = true ∧ isFinite64 (mul64 twoPi64 (widen f)) = true ∧
    isFinite64 (div64 (mul64 twoPi64 (widen f)) fs) = true

/-- `IncOf` grows with the frequency. -/
theorem incOf_mono {f g : F32} {fs : F64} (hf : isFinite32 f = true) (hg : isFinite32 g = true) (h0 : 0 ≤ units32 f)
    (hfg : units32 f ≤ units32 g) (hfs : isFinite64 fs = true) (hpos : 0 < units64 fs) (hfin : IncFinite g fs) :
    IncFinite f fs ∧ isNaN32 (incOf f fs) = false ∧ 0 ≤ key32 (incOf f fs) ∧
      key32 (incOf f fs) ≤ key32 (incOf g fs) := by
  obtain ⟨hwg, hmg, hdg⟩ := hfin
  have hpi : isFinite64 twoPi64 = true := by decide
  have hpi0 : 0 ≤ units64 twoPi64 := units64_nonneg_iff.mpr (by decide)
  obtain ⟨hwf, hw0, hw⟩ := rounded64_mono one_pos (widen_key hf).1 (widen_key hg).1
    (mul_nonneg h0 (Int.natCast_nonneg _)) (mul_le_mul_of_nonneg_right hfg (Int.natCast_nonneg _)) hwg
  obtain ⟨hmf, hm0, hm⟩ := rounded64_mono (Nat.two_pow_pos _) (mul64_key hpi hwf).1 (mul64_key hpi hwg).1
    (mul_nonneg hpi0 hw0) (mul_le_mul_of_nonneg_left hw hpi0) hmg
  obtain ⟨hdf, hd0, hd⟩ := rounded64_mono (Int.natAbs_pos.mpr hpos.ne') (div64_key hmf hfs hpos).1
    (div64_key hmg hfs hpos).1 (mul_nonneg hm0 (Int.natCast_nonneg _)) (mul_le_mul_of_nonneg_right hm (Int.natCast_nonneg _)) hdg
  obtain ⟨hkf, hnan⟩ := narrow_key hdf
  refine ⟨⟨hwf, hmf, hdf⟩, hnan, ?_, ?_⟩
  · rw [incOf, hkf]
    exact b32.roundSigned_nonneg hd0 _
  · rw [incOf, incOf, hkf, (narrow_key hdg).1]
    exact b32.roundSigned_mono b32_frac (Nat.two_pow_pos _) (Nat.two_pow_pos _)
      (mul_le_mul_of_nonneg_right hd (Int.natCast_nonneg _))

/-- 48 kHz. -/
def rate48 : F64 := 0x40E7700000000000#64

/-- At 48 kHz no finite frequency overflows binary64. -/
theorem incFinite_largest : IncFinite 0x7F7FFFFF#32 rate48 := by
  refine ⟨?_, ?_, ?_⟩ <;> decide +kernel

theorem incOf_rate48_mono {f g : F32} (hf : isFinite32 f = true) (hg : isFinite32 g = true) (h0 : 0 ≤ units32 f)
    (hfg : units32 f ≤ units32 g) :
    isNaN32 (incOf f rate48) = false ∧ 0 ≤ key32 (incOf f rate48) ∧ key32 (incOf f rate48) ≤ key32 (incOf g rate48) := by
  have hfs : isFinite64 rate48 = true := by decide
  have hpos : 0 < units64 rate48 := by decide +kernel
  have hglast : units32 g ≤ units32 0x7F7FFFFF#32 := by
    have hmax : key32 0x7F7FFFFF#32 = 0x7F7FFFFF := rfl
    rw [isFinite32_iff_key, b32_infMag] at hg
    rw [← key32_le_iff, hmax]
    omega
  obtain ⟨hgfin, -⟩ := incOf_mono hg (by decide) (h0.trans hfg) hglast hfs hpos incFinite_largest
  exact (incOf_mono hf hg h0 hfg hfs hpos hgfin).2

/-- The legal increments (R118), by their keys. -/
theorem incOK_iff_key {n : F32} : incOK n = true ↔ isNaN32 n = false ∧ 0 ≤ key32 n ∧ key32 n < key32 twoPi32 := by
  have htwo : key32 twoPi32 = 0x40C90FDB := rfl
  have hnan := isNaN32_of_isFinite32 isFinite32_twoPi32
  rw [incOK, Bool.and_eq_true, Bool.and_eq_true, le32_zero32_iff, lt32_iff, isFinite32_iff_key, b32_infMag, htwo]
  constructor
  · rintro ⟨⟨-, hn, hlow⟩, -, -, hhigh⟩
    exact ⟨hn, hlow, hhigh⟩
  · rintro ⟨hn, hlow, hhigh⟩
    exact ⟨⟨by omega, hn, hlow⟩, hn, hnan, hhigh⟩

/-- The increments of the two frequencies at the bound lie on either side of the period. -/
theorem incOf_rate48_bound : key32 (incOf 0x473B7FFF#32 rate48) < key32 twoPi32 ∧
    key32 twoPi32 ≤ key32 (incOf 0x473B8000#32 rate48) := by decide +kernel

/-- Settles O33: the increment grows with the frequency, and reaches the period between the two frequencies at the
bound. -/
theorem largestLegalFrequencyAt48kHz : Obligations.LargestLegalFrequencyAt48kHz := by
  unfold Obligations.LargestLegalFrequencyAt48kHz
  intro f hf
  rw [freqOK, Bool.and_eq_true] at hf
  obtain ⟨hfin, hlow⟩ := hf
  have h0 : 0 ≤ units32 f := units32_le_of_le32 hlow
  obtain ⟨hbelow, habove⟩ := incOf_rate48_bound
  change incOK (incOf f rate48) = true ↔ _
  constructor
  · intro hinc
    obtain ⟨-, -, hlt⟩ := incOK_iff_key.mp hinc
    refine (le32_iff _ _).mpr ⟨isNaN32_of_isFinite32 hfin, rfl, ?_⟩
    by_contra! hgt
    have hnext : key32 0x473B8000#32 ≤ key32 f := hgt
    obtain ⟨-, -, hmono⟩ := incOf_rate48_mono (f := 0x473B8000#32) (by decide) hfin
      (units32_nonneg_iff.mpr (by decide)) ((key32_le_iff _ _).mp hnext)
    omega
  · intro hle
    obtain ⟨hnan, hpos, hmono⟩ := incOf_rate48_mono hfin (g := 0x473B7FFF#32) (by decide) h0 (units32_le_of_le32 hle)
    exact incOK_iff_key.mpr ⟨hnan, hpos, hmono.trans_lt hbelow⟩

end Sys2Proof.Machine
end

section
/-! The step by what it finds at the front of the port it serves (R65 to R67), and when it finds nothing or may not look
(R8, R182, R190). -/

namespace Sys2Proof.Machine

/-! A step of a running block. -/

section Running

variable {s s1 : State} {p : Port}

/-- Serving a port leaves its words where they are. -/
theorem queue_of_arbitrate (harb : arbitrate s = some (p, s1)) : s1.queue p = s.queue p := by
  obtain ⟨-, gs, n, rfl⟩ := arbitrate_spec harb
  exact queue_regrant s gs n p

theorem step_of_instr (hr : Running s) (harb : arbitrate s = some (p, s1)) {i : Instr} {rest : List Word}
    (hd : decode p (s.queue p) = .instr i rest) : step s = exec i (s1.setQueue p rest) := by
  rw [step, live_of_running hr, fetch_of_arbitrate harb, hd]

theorem step_of_cutShort (hr : Running s) (harb : arbitrate s = some (p, s1)) (hd : decode p (s.queue p) = .cutShort) :
    step s = .refused .partialPacket := by
  rw [step, live_of_running hr, fetch_of_arbitrate harb, hd]

end Running

/-- Settles O11: the three answers of the decoder to the words of the port served. -/
theorem stepAppliesNextPacket : Obligations.StepAppliesNextPacket := by
  unfold Obligations.StepAppliesNextPacket
  intro s s1 p hr harb
  exact ⟨fun i rest hd => step_of_instr hr harb hd, fun c rest hd => step_of_bad hr harb (queue_of_arbitrate harb ▸ hd),
    step_of_cutShort hr harb⟩

/-- Settles O12: the cases of `arbitrate`. -/
theorem portsServedInAnyInterleaving : Obligations.PortsServedInAnyInterleaving := by
  unfold Obligations.PortsServedInAnyInterleaving
  intro s a c as cs
  refine ⟨fun ha hc => ?_, fun ha hc => ?_, fun ha hc => ?_, fun ha hc => ⟨fun p ps hg => ?_, fun hg => ?_⟩⟩
  · simp only [arbitrate, ha, hc]
  · simp only [arbitrate, ha, hc]
  · simp only [arbitrate, ha, hc]
  · show arbitrate s = some (p, s.setGrants ps)
    simp only [arbitrate, ha, hc, hg]
  · refine ⟨Config.freeGrant s.freeCount, ?_⟩
    show arbitrate s = some (_, s.spendIndex)
    simp only [arbitrate, ha, hc, hg]

/-- Settles O13: with no word on either port nothing is fetched. -/
theorem waitingBlockHoldsItsState : Obligations.WaitingBlockHoldsItsState := by
  unfold Obligations.WaitingBlockHoldsItsState
  intro s hr ha hc
  rw [step, live_of_running hr, fetch_of_idle ha hc]

/-- Every instruction is applied through the check for a running block. -/
theorem exec_eq_live (i : Instr) (s : State) : ∃ r, exec i s = live s r := by
  cases i <;> exact ⟨_, rfl⟩

/-- Settles O14: the check for a running block comes first, in a step and in every instruction. -/
theorem faultedBlockTakesNoStep : Obligations.FaultedBlockTakesNoStep := by
  unfold Obligations.FaultedBlockTakesNoStep
  refine fun s hs => ⟨live_of_faulted hs _, fun i => ?_⟩
  obtain ⟨r, hr⟩ := exec_eq_live i s
  rw [hr, live_of_faulted hs]

/-- Settles O15: the check for a running block reads DEPTH after FAULT, in a step and in every instruction. -/
theorem illegalDepthRefused : Obligations.IllegalDepthRefused := by
  unfold Obligations.IllegalDepthRefused
  refine fun s hs hd => ⟨live_of_bad_depth hs hd _, fun i => ?_⟩
  obtain ⟨r, hr⟩ := exec_eq_live i s
  rw [hr, live_of_bad_depth hs hd]

/-- Settles O20: the two outputs show FAULT and the code of FAULT_CAUSE. -/
theorem causeCodesOnStatusOutputs : Obligations.CauseCodesOnStatusOutputs := by
  unfold Obligations.CauseCodesOnStatusOutputs
  refine ⟨fun s => ⟨?_, rfl⟩, rfl, rfl, rfl, rfl, rfl, rfl, rfl, rfl⟩
  rw [statusFault]
  cases s.fault <;> rfl

end Sys2Proof.Machine
end

section
/-! What a step takes from the ports: nothing when nothing waits, and otherwise words from the front of one port (R65,
R82); and what a packet of port C can write (R68, R72). -/

namespace Sys2Proof.Machine

/-- A packet that decodes has consumed its words from the front, one at least. -/
theorem decode_instr_consumes {p : Port} {ws rest : List Word} {i : Instr} (h : decode p ws = .instr i rest) :
    ∃ xs, xs ≠ [] ∧ ws = xs ++ rest := by
  obtain ⟨-, hws, -⟩ := encodeOfDecode p ws rest i h
  exact ⟨encode i, by simp [encode], hws⟩

/-- A packet that faults at decoding has consumed its words all the same. -/
theorem decode_bad_consumes {p : Port} {ws rest : List Word} {c : Cause} (h : decode p ws = .bad c rest) :
    ∃ xs, xs ≠ [] ∧ ws = xs ++ rest := by
  cases ws with
  | nil => cases h
  | cons w ws =>
    obtain ⟨rfl, -, -⟩ := decode_bad h
    exact ⟨w :: ws.take (operandCount w), by simp, by rw [List.cons_append, List.take_append_drop]⟩

/-- A fetch finds nothing only when no word waits. -/
theorem ports_of_fetch_idle {s : State} (h : fetch s = .idle) : s.portA = [] ∧ s.portC = [] := by
  cases harb : arbitrate s with
  | none => exact arbitrate_eq_none.mp harb
  | some r =>
    rw [fetch_of_arbitrate harb] at h
    cases hd : decode r.1 (s.queue r.1) <;> simp [hd] at h

/-- What a step leaves on the ports: all of it when nothing waits, or what stands after a packet of one port. -/
theorem step_ports {s t : State} (h : step s = .next t) :
    (s.portA = [] ∧ s.portC = [] ∧ t = s) ∨
      ∃ p xs rest, xs ≠ [] ∧ s.queue p = xs ++ rest ∧ t.portA = (s.setQueue p rest).portA ∧
        t.portC = (s.setQueue p rest).portC := by
  obtain ⟨-, ⟨hidle, rfl⟩ | ⟨c, s1, hbad, rfl⟩ | ⟨i, s1, hrun, hexec⟩⟩ := step_cases h
  · obtain ⟨ha, hc⟩ := ports_of_fetch_idle hidle
    exact .inl ⟨ha, hc, rfl⟩
  · obtain ⟨p, gs, n, rest, -, hdec, rfl⟩ := fetch_bad hbad
    obtain ⟨xs, hne, hq⟩ := decode_bad_consumes hdec
    exact .inr ⟨p, xs, rest, hne, hq, by cases p <;> rfl, by cases p <;> rfl⟩
  · obtain ⟨p, gs, n, rest, -, hdec, rfl⟩ := fetch_run hrun
    obtain ⟨xs, hne, hq⟩ := decode_instr_consumes hdec
    obtain ⟨-, ha, hc, -⟩ := registersHaveTheirWritersOnly i _ t hexec
    refine .inr ⟨p, xs, rest, hne, hq, ?_, ?_⟩
    · rw [ha]; cases p <;> rfl
    · rw [hc]; cases p <;> rfl

/-- Settles O17: a step leaves one port as it is, and of the other what stands after the packet it consumed. -/
theorem portsAreFirstInFirstOut : Obligations.PortsAreFirstInFirstOut := by
  unfold Obligations.PortsAreFirstInFirstOut
  intro s t h
  obtain ⟨-, -, rfl⟩ | ⟨p, xs, rest, -, hq, ha, hc⟩ := step_ports h
  · exact ⟨⟨[], rfl⟩, ⟨[], rfl⟩, .inl rfl⟩
  · rw [ha, hc]
    cases p with
    | a => exact ⟨⟨xs, hq⟩, ⟨[], rfl⟩, .inr rfl⟩
    | c => exact ⟨⟨[], rfl⟩, ⟨xs, hq⟩, .inl rfl⟩

/-- A step consumes a word, if any waits. -/
theorem waiting_step_le {s t : State} (h : step s = .next t) : t.waiting ≤ s.waiting - 1 := by
  obtain ⟨ha, hc, rfl⟩ | ⟨p, xs, rest, hne, hq, ha, hc⟩ := step_ports h
  · simp [State.waiting, ha, hc]
  · have hpos := List.length_pos_iff.mpr hne
    have hlen := congrArg List.length hq
    rw [List.length_append] at hlen
    rw [State.waiting, State.waiting, ha, hc]
    cases p with
    | a => rw [State.queue_a] at hlen; rw [State.setQueue_a_portA, State.setQueue_a_portC]; omega
    | c => rw [State.queue_c] at hlen; rw [State.setQueue_c_portA, State.setQueue_c_portC]; omega

theorem waiting_step_lt {s t : State} (hw : 0 < s.waiting) (h : step s = .next t) : t.waiting < s.waiting := by
  have hle := waiting_step_le h
  omega

theorem run_succ_next {M : Host.Core} {n : Nat} {s t : M.State} :
    M.run (n + 1) s = .next t ↔ ∃ u, M.step s = .next u ∧ M.run n u = .next t := by
  rw [Host.Core.run]
  cases M.step s <;> simp

/-- As many steps as words wait leave none. -/
theorem waiting_run {n : Nat} {s t : State} (hn : s.waiting ≤ n) (h : Host.Core.run core n s = .next t) :
    t.waiting = 0 := by
  induction n generalizing s with
  | zero =>
    obtain rfl := next_inj.mp h
    exact Nat.le_zero.mp hn
  | succ n ih =>
    obtain ⟨u, hu, hrun⟩ := (run_succ_next (M := core)).mp h
    have := waiting_step_le hu
    exact ih (by omega) hrun

/-- Settles O18: every step consumes a word while any wait, so the words bound the steps. -/
theorem deliveredPacketsAreApplied : Obligations.DeliveredPacketsAreApplied := by
  unfold Obligations.DeliveredPacketsAreApplied
  exact ⟨fun s t => waiting_step_lt, fun s t => waiting_run le_rfl⟩

/-- Settles O19: what decodes on port C is NOP or SET_WAVE; what does not decode faults or is refused. -/
theorem portCWritesOnlyPend : Obligations.PortCWritesOnlyPend := by
  unfold Obligations.PortCWritesOnlyPend
  intro s s1 t harb h ht
  have hr := (step_cases h).1
  obtain ⟨hinstr, hbad, hcut⟩ := stepAppliesNextPacket s s1 .c hr harb
  obtain ⟨-, gs, n, rfl⟩ := arbitrate_spec harb
  cases hd : decode .c (s.queue .c) with
  | instr i rest =>
    rw [hinstr i rest hd] at h
    obtain ⟨-, -, hc⟩ := encodeOfDecode .c _ rest i hd
    obtain rfl | ⟨w, rfl⟩ := hc rfl
    · obtain ⟨-, rfl⟩ := execNop_next.mp h
      simp
    · obtain ⟨-, rfl⟩ := execSetWave_next.mp h
      simp
  | bad c rest =>
    rw [hbad c rest hd, next_inj] at h
    rw [← h] at ht
    cases ht
  | cutShort =>
    rw [hcut hd] at h
    cases h

end Sys2Proof.Machine
end

section
/-! A packet placed at the front of port A (log entry 11) is the next one served. -/

namespace Sys2Proof.Machine

theorem tableWords_length (nbits w : Nat) :
    (tableWords nbits w).length = packetLength (BitVec.ofNat 32 (w % 2 ^ nbits)) := by
  rw [tableWords, List.length_map, List.length_range]

/-- The first word of a table number is its command word. -/
theorem tableWords_eq_cons (nbits w : Nat) : ∃ ws, tableWords nbits w = BitVec.ofNat 32 (w % 2 ^ nbits) :: ws := by
  rw [tableWords, packetLength_eq, List.range_succ_eq_map, List.map_cons, Nat.mul_zero, Nat.pow_zero, Nat.div_one]
  exact ⟨_, rfl⟩

/-- A table number holds one packet: what decodes from it leaves no word. -/
theorem tableWords_eq_encode {nbits w : Nat} {i : Instr} (h : decodeTableWord nbits w = some i) :
    i.WellFormed ∧ tableWords nbits w = encode i := by
  obtain ⟨ws, hws⟩ := tableWords_eq_cons nbits w
  have hlen := tableWords_length nbits w
  rw [decodeTableWord] at h
  split at h
  next j rest hd =>
    obtain rfl := Option.some.inj h
    obtain ⟨hwf, henc, -⟩ := encodeOfDecode .a _ rest j hd
    have hrest := (packetLengthsByOpcode.2 .a (BitVec.ofNat 32 (w % 2 ^ nbits)) ws rest).2.1 j (hws ▸ hd)
    rw [← hws, hlen] at hrest
    rw [List.eq_nil_of_length_eq_zero (by omega : rest.length = 0), List.append_nil] at henc
    exact ⟨hwf, henc⟩
  next => cases h

/-- What is placed is served next, and serving it leaves the state as it was. -/
theorem arbitrate_placePacket {s : State} {ws : List Word} (h : ws ≠ []) :
    arbitrate (placePacket s ws) = some (.a, s.setQueue .a (ws ++ s.portA)) := by
  obtain ⟨w, ws, rfl⟩ := List.exists_cons_of_ne_nil h
  cases hc : s.portC with
  | nil => simp [placePacket, arbitrate, hc]
  | cons c cs =>
    simp only [placePacket, arbitrate, hc, State.setGrants_portA, State.setGrants_portC, State.setQueue_a_portA,
      State.setQueue_a_portC, List.cons_append, State.setGrants_grants]
    rfl

/-- Settles O16: the placed words are an encoding, which decodes whatever waited on the port. -/
theorem placedPacketRunsNext : Obligations.PlacedPacketRunsNext := by
  unfold Obligations.PlacedPacketRunsNext
  intro s nbits w i hr h
  obtain ⟨hwf, henc⟩ := tableWords_eq_encode h
  have harb := arbitrate_placePacket (s := s) (ws := encode i) (List.cons_ne_nil _ _)
  have hr' : Running (placePacket s (encode i)) := by
    rw [placePacket]
    split <;> exact hr
  have hq : (placePacket s (encode i)).queue .a = encode i ++ s.portA := by
    rw [← queue_of_arbitrate harb, State.queue_setQueue]
  rw [State.withFetchWord, henc, step_of_instr hr' harb (hq ▸ (decodeOfEncode i s.portA hwf).1), State.setQueue_setQueue]
  exact congrArg (exec i) (State.setQueue_queue s .a)

end Sys2Proof.Machine
end

section
/-! Runs (R81): one continued to its end has ended, and when host A takes the response words makes no difference. -/

namespace Sys2Proof.Machine

theorem finishIn_succ_next {n : Nat} {r t : Run} (h : r.finishIn (n + 1) = .next t) :
    r.ended = true ∧ t = r ∨ r.ended = false ∧ ∃ u, r.event .apply = .next u ∧ u.finishIn n = .next t := by
  rw [Run.finishIn] at h
  cases he : r.ended with
  | true =>
    rw [he, if_pos rfl] at h
    injection h with h
    exact .inl ⟨rfl, h.symm⟩
  | false =>
    rw [he, if_neg Bool.false_ne_true] at h
    cases hu : r.event .apply with
    | next u =>
      rw [hu] at h
      exact .inr ⟨rfl, u, rfl, h⟩
    | fault c => rw [hu] at h; cases h
    | refused c => rw [hu] at h; cases h

theorem ended_of_not_waiting {r : Run} (h : r.state.waiting = 0) : r.ended = true := by simp [Run.ended, h]

theorem ended_iff {r : Run} : r.ended = true ↔ r.state.fault = true ∨ r.state.portA = [] ∧ r.state.portC = [] := by
  simp [Run.ended, State.waiting]

/-- A run continued for as many steps as words wait has ended, by applying packets alone. -/
theorem finishIn_ended {n : Nat} {r t : Run} (hn : r.state.waiting ≤ n) (h : r.finishIn n = .next t) :
    t.ended = true ∧ ∃ m, m ≤ n ∧ r.events (List.replicate m .apply) = .next t := by
  induction n generalizing r with
  | zero =>
    injection h with h
    subst h
    exact ⟨ended_of_not_waiting (Nat.le_zero.mp hn), 0, le_rfl, rfl⟩
  | succ n ih =>
    obtain ⟨hend, rfl⟩ | ⟨hend, u, hu, hrest⟩ := finishIn_succ_next h
    · exact ⟨hend, 0, Nat.zero_le _, rfl⟩
    · have hle : u.state.waiting ≤ r.state.waiting - 1 := by
        obtain ⟨_, _, he, -⟩ | ⟨_, he, -⟩ | ⟨he, -⟩ | ⟨-, s, hs, rfl⟩ := event_cases hu
        · cases he
        · cases he
        · cases he
        · exact waiting_step_le hs
      obtain ⟨hend', m, hm, hevents⟩ := ih (by omega) hrest
      exact ⟨hend', m + 1, Nat.succ_le_succ hm, events_cons.mpr ⟨u, hu, hevents⟩⟩

/-- Settles O58: a run is continued by packets, each of which consumes a word at least. -/
theorem finishedRunHasEnded : Obligations.FinishedRunHasEnded := by
  unfold Obligations.FinishedRunHasEnded
  intro r t h
  obtain ⟨hend, hevents⟩ := finishIn_ended le_rfl h
  exact ⟨ended_iff.mp hend, hevents⟩

/-! The observation, event by event. -/

/-- The status outputs are of registers. -/
theorem observe_congr {r t : Run} (hout : t.taken ++ t.state.out = r.taken ++ r.state.out)
    (hreg : t.state.registers = r.state.registers) : t.observe = r.observe := by
  have hfault := congrArg Registers.fault hreg
  have hcause := congrArg Registers.faultCause hreg
  simp only [State.registers] at hfault hcause
  rw [Run.observe, Run.observe, hout, hreg, statusFault, statusCause, hfault, hcause]
  rfl

/-- An event adds response words at the end, and only a packet applied adds any or writes a register. -/
theorem event_observe {r t : Run} {e : Event} (h : r.event e = .next t) :
    ∃ ys, t.observe.response = r.observe.response ++ ys ∧ (e ≠ .apply → ys = [] ∧ t.observe = r.observe) := by
  have unchanged (hobs : t.observe = r.observe) :
      ∃ ys, t.observe.response = r.observe.response ++ ys ∧ (e ≠ .apply → ys = [] ∧ t.observe = r.observe) :=
    ⟨[], by rw [hobs, List.append_nil], fun _ => ⟨rfl, hobs⟩⟩
  obtain ⟨port, words, -, rfl⟩ | ⟨ports, -, rfl⟩ | ⟨-, rfl⟩ | ⟨rfl, s, hs, rfl⟩ := event_cases h
  · exact unchanged (observe_congr (by rw [deliver_out]) (deliver_registers ..))
  · exact unchanged rfl
  · exact unchanged (observe_congr (by rw [takeResponses_out, List.append_nil]) rfl)
  · obtain ⟨ys, hout⟩ := step_out hs
    exact ⟨ys, by simp only [Run.observe, hout, List.append_assoc], fun hne => absurd rfl hne⟩

/-! A run in which host A never takes a word. -/

/-- `r'` is the run `r` with the words `ys`, which host A has taken in `r`, still waiting. -/
def Untaken (r r' : Run) : Prop := ∃ ys, r'.state = r.state.before ys ∧ r.taken = r'.taken ++ ys

theorem Untaken.observe {r r' : Run} (h : Untaken r r') : r'.observe = r.observe := by
  obtain ⟨ys, hstate, htaken⟩ := h
  refine observe_congr ?_ (by rw [hstate]; rfl)
  rw [hstate, htaken, State.before, List.append_assoc]

theorem Untaken.ended {r r' : Run} (h : Untaken r r') : r'.ended = r.ended := by
  obtain ⟨ys, hstate, -⟩ := h
  rw [Run.ended, Run.ended, hstate]
  rfl

/-- Taking words in the one run is no event of the other. -/
theorem Untaken.take {r r' t : Run} (h : Untaken r r') (ht : r.event .take = .next t) : Untaken t r' := by
  obtain ⟨ys, hstate, htaken⟩ := h
  injection ht with ht
  subst ht
  refine ⟨ys ++ r.state.out, ?_, by rw [htaken, List.append_assoc]; rfl⟩
  rw [hstate, State.before, State.before, takeResponses, List.append_nil]

/-- Every other event is the same in both runs. -/
theorem Untaken.event {r r' t : Run} {e : Event} (h : Untaken r r') (he : e ≠ .take) (ht : r.event e = .next t) :
    ∃ t', r'.event e = .next t' ∧ Untaken t t' := by
  obtain ⟨ys, hstate, htaken⟩ := h
  obtain ⟨port, words, rfl, rfl⟩ | ⟨ports, rfl, rfl⟩ | ⟨rfl, -⟩ | ⟨rfl, s, hs, rfl⟩ := event_cases ht
  · refine ⟨_, rfl, ys, ?_, htaken⟩
    simp only [deliver, hstate, queue_before, setQueue_before]
  · refine ⟨_, rfl, ys, ?_, htaken⟩
    simp only [hstate]
    rfl
  · exact absurd rfl he
  · have hs' : step r'.state = .next (s.before ys) := by
      rw [hstate, step_before, hs]
      rfl
    exact ⟨_, event_apply hs', ys, rfl, htaken⟩

theorem Untaken.events {r r' t : Run} {es : List Event} (h : Untaken r r') (ht : r.events es = .next t) :
    ∃ t', r'.events (es.filter (· ≠ .take)) = .next t' ∧ Untaken t t' := by
  induction es generalizing r r' with
  | nil =>
    injection ht with ht
    exact ⟨r', rfl, ht ▸ h⟩
  | cons e es ih =>
    obtain ⟨u, hu, hes⟩ := events_cons.mp ht
    by_cases he : e = .take
    · subst he
      obtain ⟨t', ht', hrel⟩ := ih (h.take hu) hes
      exact ⟨t', by rw [List.filter_cons_of_neg (by simp)]; exact ht', hrel⟩
    · obtain ⟨u', hu', hrel⟩ := h.event he hu
      obtain ⟨t', ht', hrel'⟩ := ih hrel hes
      exact ⟨t', by rw [List.filter_cons_of_pos (by simpa using he)]; exact events_cons.mpr ⟨u', hu', ht'⟩, hrel'⟩

/-- Settles O59: no event but a packet applied changes what is observed, and no packet reads the response words. -/
theorem observationIsOfWholeRun : Obligations.ObservationIsOfWholeRun := by
  unfold Obligations.ObservationIsOfWholeRun
  refine ⟨fun r t e => event_observe, fun r t es ht => ?_⟩
  have hself : Untaken r r := ⟨[], rfl, (List.append_nil _).symm⟩
  obtain ⟨t', ht', hrel⟩ := hself.events ht
  exact ⟨t', ht', hrel.observe, hrel.ended⟩

end Sys2Proof.Machine
end
